-- ==== Sys2Proof/Word.lean ====
section
/-! DEFINITION. The word types of the OSD decoder engine (00_scope.md R8, R9): what the spec treats as bits. -/

namespace Sys2Proof

/-- A host register, a command word, an access-port word or an element of a P object: 32 bits (R8). -/
abbrev Word := BitVec 32

/-- A byte of the buffer `B` (R40). -/
abbrev Byte := BitVec 8

/-- An IEEE 754 binary64 encoding (R13): sign bit 63, biased exponent [62:52], fraction [51:0]. -/
abbrev F64 := BitVec 64

/-- A 5-bit object id (R33). -/
abbrev ObjId := BitVec 5

end Sys2Proof
end

