-- ==== Sys2Proof/Syntax.lean ====
section
/-! DEFINITION. The object names of the store (R33), the commands of the opcode map (R104, R105), and what the host
can do: the register accesses of 20_memory.md and the script lines of R110. -/

namespace Sys2Proof

/-- `V0`–`V7`, bit vectors. -/
abbrev VId := Fin 8
/-- `S0`–`S3`, sequences of binary64 encodings. -/
abbrev SId := Fin 4
/-- `P0`–`P3`, index sequences. -/
abbrev PId := Fin 4
/-- `M0`, `M1`, matrices. -/
abbrev MId := Fin 2

/-- The class of an object (R33). -/
inductive ObjClass
  | V | S | P | M | C | B
deriving DecidableEq, Repr

/-- One of the 20 objects of the store, by name (R33). -/
inductive ObjRef
  | v (i : VId)
  | s (i : SId)
  | p (i : PId)
  | m (i : MId)
  | c
  | b
deriving DecidableEq, Repr

/-- The operand class X of R105: a V, an S or a P object. -/
inductive SeqRef
  | v (i : VId)
  | s (i : SId)
  | p (i : PId)
deriving DecidableEq, Repr

/-- The eleven commands (R104), one constructor per row of the opcode table. The used fields stand in the order
`fd`, `fa`, `fb` (R109); an unused field, `rsv`, and `VPARSE`'s fixed `fa` = `B` are no arguments. -/
inductive Instr
  /-- `VADD Vd, Va, Vb` -/
  | vadd (fd fa fb : VId)
  /-- `VEQ Va, Vb` -/
  | veq (fa fb : VId)
  /-- `VPARSE Vd, B` -/
  | vparse (fd : VId)
  /-- `VMUL Vd, Va, Mb` -/
  | vmul (fd fa : VId) (fb : MId)
  /-- `GAUSS Md, Ma, Pb` -/
  | gauss (fd fa : MId) (fb : PId)
  /-- `PINV Pd, Pa` -/
  | pinv (fd fa : PId)
  /-- `PAPPLY Xd, Pa, Xb` -/
  | papply (fd : SeqRef) (fa : PId) (fb : SeqRef)
  /-- `PCOLS Md, Ma, Pb` -/
  | pcols (fd fa : MId) (fb : PId)
  /-- `CINIT` -/
  | cinit
  /-- `CADV` -/
  | cadv
  /-- `DECODE Vd, Sa, Mb` -/
  | decode (fd : VId) (fa : SId) (fb : MId)
deriving DecidableEq, Repr

/-- The width of a host access (R72: 8, 16 and 64 bits are named as the ones not performed). -/
inductive Width
  | w8 | w16 | w32 | w64
deriving DecidableEq, Repr

/-- How many bytes an access of this width covers. -/
def Width.bytes : Width → Nat
  | .w8 => 1
  | .w16 => 2
  | .w32 => 4
  | .w64 => 8

/-- A name the host script gives to a value it reads (`RD <reg> -> name`, R110). -/
abbrev HostName := Nat

/-- A label of the host script (`label:`, R110). -/
abbrev HostLabel := Nat

/-- `name[hi:lo] = value` or `name[hi:lo] != value`: a condition on a value already read (R110). -/
structure HostCond where
  name : HostName
  hi : Nat
  lo : Nat
  /-- true for `=`, false for `!=`. -/
  equal : Bool
  value : Word
deriving DecidableEq, Repr

/-- What one line of a host script does (R110). Addresses are the host's byte addresses, so `WR <reg>, v` is a write
at `BASE + off(reg)`. The data of a write is as wide as the widest access; a narrower one carries its low bits. -/
inductive HostOp
  /-- `MemRead(addr, width)`, the value kept under a name or dropped. -/
  | rd (addr : Nat) (width : Width) (dst : Option HostName)
  /-- `MemWrite(addr, width, data)`. -/
  | wr (addr : Nat) (width : Width) (data : BitVec 64)
  /-- `IF <condition> GOTO label`. -/
  | ifGoto (cond : HostCond) (target : HostLabel)
deriving DecidableEq, Repr

/-- A line of a host script: an optional `label:` and what the line does (R110). -/
structure HostLine where
  label : Option HostLabel
  op : HostOp
deriving DecidableEq, Repr

/-- Who takes the next step of the interleaving (R30, R31, R86; the platform's reset input, R290). -/
inductive Turn
  | host
  | engine
  | resetInput
deriving DecidableEq, Repr

end Sys2Proof
end

