-- ==== Sys2Proof/WellFormed.lean ====
section
/-! DEFINITION. Which terms of `Instr` are legal commands (R105, R107). Every operand but `PAPPLY`'s carries its class
in its type; what is left to check is R105's "it must be the same class in `fd` and `fb`". -/

namespace Sys2Proof

/-- The class of an X operand. -/
def SeqRef.objClass : SeqRef → ObjClass
  | .v _ => .V
  | .s _ => .S
  | .p _ => .P

/-- R105, row by row. -/
def Instr.wellFormed : Instr → Bool
  | .vadd _ _ _ => true
  | .veq _ _ => true
  | .vparse _ => true
  | .vmul _ _ _ => true
  | .gauss _ _ _ => true
  | .pinv _ _ => true
  | .papply fd _ fb => decide (fd.objClass = fb.objClass)
  | .pcols _ _ _ => true
  | .cinit => true
  | .cadv => true
  | .decode _ _ _ => true

end Sys2Proof
end

