-- ==== Sys2Proof/Decode.lean ====
section
/-! DEFINITION. The command encoding of 30_encoding.md: object ids (R33, R106), the opcode map (R103, R104), the
decoder, total on every word and rejecting by name (R105, R107), and the encoder. -/

namespace Sys2Proof

/-- The object an id names; ids 20–31 are reserved and name none (R33, R106). -/
def ObjRef.ofId (id : ObjId) : Option ObjRef :=
  let n := id.toNat
  if n < 8 then some (.v (Fin.ofNat 8 n))
  else if n < 12 then some (.s (Fin.ofNat 4 (n - 8)))
  else if n < 16 then some (.p (Fin.ofNat 4 (n - 12)))
  else if n < 18 then some (.m (Fin.ofNat 2 (n - 16)))
  else if n = 18 then some .c
  else if n = 19 then some .b
  else none

/-- The id of an object (R33). -/
def ObjRef.id : ObjRef → ObjId
  | .v i => BitVec.ofNat 5 i.val
  | .s i => BitVec.ofNat 5 (8 + i.val)
  | .p i => BitVec.ofNat 5 (12 + i.val)
  | .m i => BitVec.ofNat 5 (16 + i.val)
  | .c => 18#5
  | .b => 19#5

/-- An X operand as an object of the store. -/
def SeqRef.toObj : SeqRef → ObjRef
  | .v i => .v i
  | .s i => .s i
  | .p i => .p i

/-- The V object an id names, if its class is V (R105). -/
def ObjId.asV (id : ObjId) : Option VId :=
  match ObjRef.ofId id with
  | some (.v i) => some i
  | _ => none

/-- The S object an id names, if its class is S (R105). -/
def ObjId.asS (id : ObjId) : Option SId :=
  match ObjRef.ofId id with
  | some (.s i) => some i
  | _ => none

/-- The P object an id names, if its class is P (R105). -/
def ObjId.asP (id : ObjId) : Option PId :=
  match ObjRef.ofId id with
  | some (.p i) => some i
  | _ => none

/-- The M object an id names, if its class is M (R105). -/
def ObjId.asM (id : ObjId) : Option MId :=
  match ObjRef.ofId id with
  | some (.m i) => some i
  | _ => none

/-- The X operand an id names, if its class is V, S or P (R105). -/
def ObjId.asX (id : ObjId) : Option SeqRef :=
  match ObjRef.ofId id with
  | some (.v i) => some (.v i)
  | some (.s i) => some (.s i)
  | some (.p i) => some (.p i)
  | _ => none

/-- The eleven assigned opcodes (R104). -/
inductive Opcode
  | vadd | veq | vparse | vmul | gauss | pinv | papply | pcols | cinit | cadv | decode
deriving DecidableEq, Repr

/-- The opcode map (R104). -/
def Opcode.code : Opcode → BitVec 8
  | .vadd => 0x01#8
  | .veq => 0x02#8
  | .vparse => 0x03#8
  | .vmul => 0x04#8
  | .gauss => 0x10#8
  | .pinv => 0x20#8
  | .papply => 0x21#8
  | .pcols => 0x22#8
  | .cinit => 0x30#8
  | .cadv => 0x31#8
  | .decode => 0x40#8

/-- The opcode an `op` field holds; the other 245 values are reserved (R103). -/
def Opcode.ofCode (op : BitVec 8) : Option Opcode :=
  match op.toNat with
  | 0x01 => some .vadd
  | 0x02 => some .veq
  | 0x03 => some .vparse
  | 0x04 => some .vmul
  | 0x10 => some .gauss
  | 0x20 => some .pinv
  | 0x21 => some .papply
  | 0x22 => some .pcols
  | 0x30 => some .cinit
  | 0x31 => some .cadv
  | 0x40 => some .decode
  | _ => none

/-- Why a word is no legal command (R107). -/
inductive DecodeError
  /-- `op` is reserved (R103). -/
  | illegalOpcode
  /-- `op` is assigned, but `rsv` or an operand field breaks R105. -/
  | illegalOperand
deriving DecidableEq, Repr

/-- `op`, bits [31:24] (R100). -/
def opField (w : Word) : BitVec 8 := w.extractLsb' 24 8
/-- `fd`, bits [23:19] (R100). -/
def fdField (w : Word) : ObjId := w.extractLsb' 19 5
/-- `fa`, bits [18:14] (R100). -/
def faField (w : Word) : ObjId := w.extractLsb' 14 5
/-- `fb`, bits [13:9] (R100). -/
def fbField (w : Word) : ObjId := w.extractLsb' 9 5
/-- `rsv`, bits [8:0] (R100). -/
def rsvField (w : Word) : BitVec 9 := w.extractLsb' 0 9

/-- The operand classes of R105: the command an opcode makes of its three object fields, if every used field has its
class and every unused field is 0. -/
def decodeOperands (op : Opcode) (fd fa fb : ObjId) : Option Instr :=
  match op with
  | .vadd =>
    match ObjId.asV fd, ObjId.asV fa, ObjId.asV fb with
    | some d, some a, some b => some (.vadd d a b)
    | _, _, _ => none
  | .veq =>
    match ObjId.asV fa, ObjId.asV fb with
    | some a, some b => if fd = 0#5 then some (.veq a b) else none
    | _, _ => none
  | .vparse =>
    match ObjId.asV fd with
    | some d => if fa = ObjRef.b.id ∧ fb = 0#5 then some (.vparse d) else none
    | none => none
  | .vmul =>
    match ObjId.asV fd, ObjId.asV fa, ObjId.asM fb with
    | some d, some a, some b => some (.vmul d a b)
    | _, _, _ => none
  | .gauss =>
    match ObjId.asM fd, ObjId.asM fa, ObjId.asP fb with
    | some d, some a, some b => some (.gauss d a b)
    | _, _, _ => none
  | .pinv =>
    match ObjId.asP fd, ObjId.asP fa with
    | some d, some a => if fb = 0#5 then some (.pinv d a) else none
    | _, _ => none
  | .papply =>
    match ObjId.asX fd, ObjId.asP fa, ObjId.asX fb with
    | some d, some a, some b => if d.objClass = b.objClass then some (.papply d a b) else none
    | _, _, _ => none
  | .pcols =>
    match ObjId.asM fd, ObjId.asM fa, ObjId.asP fb with
    | some d, some a, some b => some (.pcols d a b)
    | _, _, _ => none
  | .cinit => if fd = 0#5 ∧ fa = 0#5 ∧ fb = 0#5 then some .cinit else none
  | .cadv => if fd = 0#5 ∧ fa = 0#5 ∧ fb = 0#5 then some .cadv else none
  | .decode =>
    match ObjId.asV fd, ObjId.asS fa, ObjId.asM fb with
    | some d, some a, some b => some (.decode d a b)
    | _, _, _ => none

/-- The decoder (R107): the legal command a word is, or the name of what makes it illegal. A reserved `op` comes before
every operand check (R262). -/
def decode (w : Word) : Except DecodeError Instr :=
  match Opcode.ofCode (opField w) with
  | none => .error .illegalOpcode
  | some op =>
    if rsvField w ≠ 0#9 then .error .illegalOperand
    else
      match decodeOperands op (fdField w) (faField w) (fbField w) with
      | some i => .ok i
      | none => .error .illegalOperand

/-- `word = (op << 24) | (fd << 19) | (fa << 14) | (fb << 9)` (R100). -/
def packWord (op : Opcode) (fd fa fb : ObjId) : Word := op.code ++ fd ++ fa ++ fb ++ 0#9

/-- The encoder: the word of a command (R100, R105). -/
def encode : Instr → Word
  | .vadd fd fa fb => packWord .vadd (ObjRef.v fd).id (ObjRef.v fa).id (ObjRef.v fb).id
  | .veq fa fb => packWord .veq 0#5 (ObjRef.v fa).id (ObjRef.v fb).id
  | .vparse fd => packWord .vparse (ObjRef.v fd).id ObjRef.b.id 0#5
  | .vmul fd fa fb => packWord .vmul (ObjRef.v fd).id (ObjRef.v fa).id (ObjRef.m fb).id
  | .gauss fd fa fb => packWord .gauss (ObjRef.m fd).id (ObjRef.m fa).id (ObjRef.p fb).id
  | .pinv fd fa => packWord .pinv (ObjRef.p fd).id (ObjRef.p fa).id 0#5
  | .papply fd fa fb => packWord .papply fd.toObj.id (ObjRef.p fa).id fb.toObj.id
  | .pcols fd fa fb => packWord .pcols (ObjRef.m fd).id (ObjRef.m fa).id (ObjRef.p fb).id
  | .cinit => packWord .cinit 0#5 0#5 0#5
  | .cadv => packWord .cadv 0#5 0#5 0#5
  | .decode fd fa fb => packWord .decode (ObjRef.v fd).id (ObjRef.s fa).id (ObjRef.m fb).id

/-- The word of `nbits` bits `w`, every higher bit 0. A command is one 32-bit register value, so there is no order of
bytes to lay out (R73, R108). -/
def tableWord (nbits w : Nat) : Word := BitVec.ofNat 32 (w % 2 ^ nbits)

/-- What the decoder reads from a row's word (the host's question). -/
def decodeTableWord (nbits w : Nat) : Option Instr :=
  match decode (tableWord nbits w) with
  | .ok i => some i
  | .error _ => none

end Sys2Proof
end

