-- ==== Sys2Proof/Config.lean ====
section
/-! DEFINITION. What an implementation fixes and what the spec leaves free: the identity values (R2, R42), the
parameters `N_MAX`, `K_MAX`, `BASE` (R7) and the free values (R12 `draw()`). The `opaque` constants have no body, so
nothing proved in Lean can rest on what they are. -/

namespace Sys2Proof

/-- The three implementation parameters of R7, fixed for one engine. A machine's state carries them, so that a
statement about every state holds for every engine. -/
structure Params where
  /-- `N_MAX`: capacity of every length-`n` object; read in `CAP_N`. -/
  nMax : Nat
  /-- `K_MAX`: rows per matrix object; read in `CAP_K`. -/
  kMax : Nat
  /-- `BASE`: byte address of the 64-byte register block. -/
  base : Nat
deriving DecidableEq, Repr

/-- The legal ranges of R7. -/
abbrev Params.wf (p : Params) : Prop :=
  1 ≤ p.nMax ∧ p.nMax ≤ 65535 ∧ 1 ≤ p.kMax ∧ p.kMax ≤ p.nMax ∧ p.base % 64 = 0

/-- `WPR = ceil(N_MAX / 32)`, the words of one matrix row in the access-port layout (R7, R78). -/
def Params.wordsPerRow (p : Params) : Nat := (p.nMax + 31) / 32

namespace Config

/-- The read-only register `ID` (R2, R42). -/
def idValue : Word := 0x4F534445#32

/-- The read-only register `VERSION` (R2, R42). -/
def versionValue : Word := 0x00000001#32

/-- OPEN (R7, D3): what `N_MAX` is derived from. -/
opaque nMaxChoice : Nat

/-- OPEN (R7, D3): what `K_MAX` is derived from. -/
opaque kMaxChoice : Nat

/-- OPEN (R7, D2): which 64-byte block of the host's address space is the engine's. -/
opaque blockChoice : Nat

/-- The parameters of the engine at hand: unknown, but in the legal ranges of R7, every one of which some choice
reaches. DESIGN CHOICE (log 2): the wrapping that keeps a free choice in its range. -/
def params : Params :=
  let n := nMaxChoice % 65535 + 1
  { nMax := n, kMax := kMaxChoice % n + 1, base := 64 * blockChoice }

/-- FREE VALUE. The `n`-th value of `draw()` (R12): any 32-bit value. -/
opaque draw : Nat → Word

/-- FREE VALUE. The sign (bit 51) and payload (bits [50:0]) of a NaN that `fadd` makes (R13): IEEE 754 leaves both
open. No command reaches it (R226: no term of a metric is a NaN or a negative infinity). -/
opaque nanBits : F64 → F64 → BitVec 52

end Config

end Sys2Proof
end

