-- ==== Sys2Proof/Machine/State.lean ====
section
/-! DEFINITION. The state of the machine (10_state.md): the object store, the host registers with the hidden `PEND`,
the parameters, and, as the model's own fields, the host agent, the interleaving and the counter of free values.
The engine has no byte-addressed memory (R70, R71): its only storage is the object store, held as sequences of exactly
their length (R34–R40), so two equal stores are equal data. -/

namespace Sys2Proof.Machine

/-- The error codes of R260 by name; codes 9–15 are never produced, and have no name here. -/
inductive ErrCode
  | ok
  | illegalOpcode
  | illegalOperand
  | argRange
  | lengthMismatch
  | invalidInput
  | invalidPermutation
  | badReal
  | rankDeficiency
deriving DecidableEq, Repr

/-- An M object (R37): its column count and its rows. `rows(M)` is `rows.length`; an empty matrix still has `cols`. -/
structure Matrix where
  cols : Nat
  rows : List (List Bool)
deriving DecidableEq, Repr

/-- The combination unit `C = (w, n, state)` (R39). -/
structure Comb where
  w : Nat
  n : Nat
  state : List Word
deriving DecidableEq, Repr

/-- The object store (R33): 20 objects. -/
structure ObjectStore where
  /-- `V0`–`V7` (R34). -/
  v : Vector (List Bool) 8
  /-- `S0`–`S3` (R35). -/
  s : Vector (List F64) 4
  /-- `P0`–`P3` (R36). -/
  p : Vector (List Word) 4
  /-- `M0`, `M1` (R37). -/
  m : Vector Matrix 2
  /-- `C` (R39). -/
  c : Comb
  /-- `B` (R40). -/
  b : List Byte
deriving DecidableEq, Repr

/-- The registers of the engine that are no object (R41, R45, R48–R51, R54). `STATUS` and `ACC_SEL` are held by their
fields; their reserved bits read 0 and hold nothing. -/
structure Regs where
  /-- `STATUS.BUSY` (R45). -/
  busy : Bool
  /-- `STATUS.RES` (R45). -/
  res : Bool
  /-- `STATUS.AERR` (R45, R46). -/
  aerr : Bool
  /-- `STATUS.ERR` (R45, R260). -/
  err : ErrCode
  /-- `ARG0` (R48). -/
  arg0 : Word
  /-- `ARG1` (R48). -/
  arg1 : Word
  /-- `METRIC`, read in halves (R49). -/
  metric : F64
  /-- `ACC_SEL.OBJ` (R50). -/
  accObj : ObjId
  /-- `ACC_SEL.PART` (R50): false element data, true attribute words. -/
  accPart : Bool
  /-- `ACC_IDX` (R51). -/
  accIdx : Word
  /-- `PEND`, hidden (R54). -/
  pend : Word
deriving DecidableEq, Repr

/-- The host agent (R30, R110): its script, the line it comes to next, and the values it has read and named. The
engine cannot reach any of it. -/
structure HostAgent where
  script : List HostLine
  line : Nat
  values : List (HostName × Word)
deriving DecidableEq, Repr

/-- The whole machine. -/
structure State where
  /-- `N_MAX`, `K_MAX`, `BASE` (R7): hardwired, read in `CAP_N` and `CAP_K` (R43). -/
  params : Params
  store : ObjectStore
  regs : Regs
  /-- The model's own: the host agent. -/
  host : HostAgent
  /-- The model's own: who takes the next steps, in order (R86). When it is empty, a busy engine completes first, and
  otherwise the host goes on (R300's finite delay). -/
  turns : List Turn
  /-- The model's own: how many values of `draw()` have been taken (R12). -/
  draws : Nat
deriving DecidableEq, Repr

/-- Why the machine stops. It has NO constructor: no engine state is a fault that stops the engine (R264), and every
host access and every command word has an effect the spec gives (R72, R83, R107). Safe: nothing can raise it. -/
inductive Fault
deriving DecidableEq, Repr

/-- Why the model has no meaning to give. -/
inductive Refusal
  /-- Raised only by an arm of `exec` for a command that has no meaning yet; no arm raises it now. Safe: the model
  stops where the hardware goes on. -/
  | notModelled (mnemonic : String)
deriving DecidableEq, Repr

/-- What a command's meaning answers. -/
abbrev Result := Host.Outcome State Fault Refusal

/-- The store after reset (R59, R290). -/
def ObjectStore.reset : ObjectStore :=
  { v := Vector.replicate 8 []
    s := Vector.replicate 4 []
    p := Vector.replicate 4 []
    m := Vector.replicate 2 { cols := 0, rows := [] }
    c := { w := 0, n := 0, state := [0#32] }
    b := [] }

/-- The registers after reset (R41, R290). -/
def Regs.reset : Regs :=
  { busy := false
    res := false
    aerr := false
    err := .ok
    arg0 := 0#32
    arg1 := 0#32
    metric := 0#64
    accObj := 0#5
    accPart := false
    accIdx := 0#32
    pend := 0#32 }

/-- The machine right after reset (R290). The three fields that are the model's own (log 3, 4, 5) hold nothing: no
host script, no interleaving given, no free value taken. -/
def State.reset : State :=
  { params := Config.params
    store := ObjectStore.reset
    regs := Regs.reset
    host := { script := [], line := 0, values := [] }
    turns := []
    draws := 0 }

end Sys2Proof.Machine
end

