-- ==== Sys2Proof/Machine/Flags.lean ====
section
/-! DEFINITION. The engine's flags: the codes of `STATUS.ERR` (R260), the `STATUS` word (R45) and `ACC_SEL` (R50) put
together from their fields, and the bit helpers the register file uses. -/

namespace Sys2Proof.Machine

/-- The 4-bit code of an error (R260). -/
def ErrCode.code : ErrCode → BitVec 4
  | .ok => 0#4
  | .illegalOpcode => 1#4
  | .illegalOperand => 2#4
  | .argRange => 3#4
  | .lengthMismatch => 4#4
  | .invalidInput => 5#4
  | .invalidPermutation => 6#4
  | .badReal => 7#4
  | .rankDeficiency => 8#4

/-- The error an illegal word completes with (R107). -/
def decodeErrCode : DecodeError → ErrCode
  | .illegalOpcode => .illegalOpcode
  | .illegalOperand => .illegalOperand

/-- `STATUS` as it reads (R45): `ERR` in [11:8], `AERR` in 2, `RES` in 1, `BUSY` in 0, every other bit 0. -/
def Regs.status (r : Regs) : Word :=
  0#20 ++ r.err.code ++ 0#5 ++ BitVec.ofBool r.aerr ++ BitVec.ofBool r.res ++ BitVec.ofBool r.busy

/-- `ACC_SEL` as it reads (R50): `PART` in 8, `OBJ` in [4:0], every other bit 0. -/
def Regs.accSel (r : Regs) : Word :=
  0#23 ++ BitVec.ofBool r.accPart ++ 0#3 ++ r.accObj

/-- `METRIC[31:0]` (R49). -/
def Regs.metricLo (r : Regs) : Word := r.metric.extractLsb' 0 32

/-- `METRIC[63:32]` (R49). -/
def Regs.metricHi (r : Regs) : Word := r.metric.extractLsb' 32 32

end Sys2Proof.Machine
end

