-- ==== Sys2Proof/Machine/Operands.lean ====
section
/-! DEFINITION. The operands of the commands: an object's whole value (`O[x]`, R12), the pseudocode's `rows(M)` and
`M[r][c]`, and index sequences read as numbers. -/

namespace Sys2Proof.Machine

/-- The class of an object (R33). -/
def objClass : ObjRef → ObjClass
  | .v _ => .V
  | .s _ => .S
  | .p _ => .P
  | .m _ => .M
  | .c => .C
  | .b => .B

/-- The whole value of an object, of any class (R12). -/
inductive ObjVal
  | v (x : List Bool)
  | s (x : List F64)
  | p (x : List Word)
  | m (x : Matrix)
  | c (x : Comb)
  | b (x : List Byte)
deriving DecidableEq, Repr

/-- `O[x]` (R12): read an object of the store, whole. -/
def ObjectStore.value (o : ObjectStore) : ObjRef → ObjVal
  | .v i => .v o.v[i]
  | .s i => .s o.s[i]
  | .p i => .p o.p[i]
  | .m i => .m o.m[i]
  | .c => .c o.c
  | .b => .b o.b

/-- `rows(M)` (R10). -/
def Matrix.rowCount (m : Matrix) : Nat := m.rows.length

/-- `M[r]` (R10): row `r`, for `r < rows(M)`. -/
def Matrix.row (m : Matrix) (r : Nat) : List Bool := m.rows.getD r []

/-- `M[r][c]` (R10): an element of a matrix, for `r < rows(M)` and `c < cols(M)`. -/
def Matrix.entry (m : Matrix) (r c : Nat) : Bool := (m.row r).getD c false

/-- An index sequence as numbers: its elements are 32-bit unsigned integers (R36). -/
def indexNats (p : List Word) : List Nat := p.map BitVec.toNat

/-- `zext_32` of every index of a sequence (R12). -/
def indexWords (p : List Nat) : List Word := p.map (BitVec.ofNat 32)

end Sys2Proof.Machine
end

