-- ==== Sys2Proof/Machine/Ops.lean ====
section
/-! DEFINITION. The operations every command is built from: replacing an object (`O[x] <- v`, R12, R38), ending a
command with success or with an error (R32, R261), `draw()` (R12), and the engine's one reset (R290). -/

namespace Sys2Proof.Machine

/-- `O[fd] <- x` for a V object (R38). -/
def State.setV (s : State) (d : VId) (x : List Bool) : State :=
  { s with store := { s.store with v := s.store.v.set d x } }

/-- `O[fd] <- x` for an S object (R38). -/
def State.setS (s : State) (d : SId) (x : List F64) : State :=
  { s with store := { s.store with s := s.store.s.set d x } }

/-- `O[fd] <- x` for a P object (R38). -/
def State.setP (s : State) (d : PId) (x : List Word) : State :=
  { s with store := { s.store with p := s.store.p.set d x } }

/-- `O[fd] <- x` for an M object (R38). -/
def State.setM (s : State) (d : MId) (x : Matrix) : State :=
  { s with store := { s.store with m := s.store.m.set d x } }

/-- `O[C] <- x` (R39). -/
def State.setC (s : State) (x : Comb) : State := { s with store := { s.store with c := x } }

/-- `O[B] <- x` (R40). -/
def State.setB (s : State) (x : List Byte) : State := { s with store := { s.store with b := x } }

/-- `STATUS.RES <- b` (R45). -/
def State.setRes (s : State) (b : Bool) : State := { s with regs := { s.regs with res := b } }

/-- `METRIC <- x` (R49). -/
def State.setMetric (s : State) (x : F64) : State := { s with regs := { s.regs with metric := x } }

/-- `STATUS.AERR <- 1` (R46). -/
def State.setAerr (s : State) : State := { s with regs := { s.regs with aerr := true } }

/-- The end of a completion step: `STATUS.ERR <- code`, `STATUS.BUSY <- 0` (R32, R56). -/
def State.finish (s : State) (code : ErrCode) : State :=
  { s with regs := { s.regs with err := code, busy := false } }

/-- A command completes: its objects are written, `ERR` is `OK` (R32, R260). -/
def complete (s : State) : Result := .next (s.finish .ok)

/-- `raise Error(code)` (R12, R261), the engine's only exception: nothing but `ERR` and `BUSY` changes. There is no
trap entry, no saved state and no return (R265, R266). -/
def raiseError (code : ErrCode) (s : State) : Result := .next (s.finish code)

/-- `draw()` (R12): the next free value and the state that has taken it. -/
def State.draw (s : State) : Word × State := (Config.draw s.draws, { s with draws := s.draws + 1 })

/-- Reset (R290, R291): every object and register takes its reset value, a pending command is dropped, and the
hardwired parameters stay. The host, the interleaving and the count of free values are outside the engine. -/
def State.engineReset (s : State) : State :=
  { s with store := ObjectStore.reset, regs := Regs.reset }

end Sys2Proof.Machine
end

