-- ==== Sys2Proof/Machine/Combination.lean ====
section
/-! DEFINITION. The combination enumerator of 43_combination.md: its step, and `CINIT`, `CADV`. -/

namespace Sys2Proof.Machine

/-- `[0, 1, ..., w-1] ++ [n]` (R200). -/
def initialCombination (w n : Nat) : List Word := indexWords (List.range w ++ [n])

/-- The search of R201 from `t - 1` down to 0: the rightmost `i < t` with `st[i] + 1 != st[i+1]`. -/
def rightmostGap (st : List Word) : Nat → Option Nat
  | 0 => none
  | i + 1 => if st.getD i 0#32 + 1#32 ≠ st.getD (i + 1) 0#32 then some i else rightmostGap st i

/-- The update of R201 at `t`: `st[t] + 1`, then consecutive values up to place `w - 1`; the rest stays. -/
def bumpFrom (st : List Word) (w t : Nat) : List Word :=
  st.mapIdx fun i x =>
    if i < t then x else if i < w then st.getD t 0#32 + 1#32 + BitVec.ofNat 32 (i - t) else x

/-- `advance()` (R201): the next combination of size `w`, or none when the sequence is exhausted. -/
def advance (w : Nat) (st : List Word) : Option (List Word) :=
  (rightmostGap st w).map (bumpFrom st w)

/-- `CINIT` (R200). -/
def execCinit (s : State) : Host.Outcome State Fault Refusal :=
  let w := s.regs.arg0.toNat
  let n := s.regs.arg1.toNat
  if s.params.nMax < n then raiseError .argRange s
  else if n < w then raiseError .argRange s
  else complete (s.setC { w := w, n := n, state := initialCombination w n })

/-- `CADV` (R201). -/
def execCadv (s : State) : Host.Outcome State Fault Refusal :=
  match advance s.store.c.w s.store.c.state with
  | none => complete (s.setRes false)
  | some st => complete ((s.setC { s.store.c with state := st }).setRes true)

end Sys2Proof.Machine
end

