-- ==== Sys2Proof/Machine/Gf2.lean ====
section
/-! DEFINITION. The GF(2) vector and matrix commands of 40_gf2_vector_matrix.md: `VADD`, `VEQ`, `VPARSE`, `VMUL`. -/

namespace Sys2Proof.Machine

/-- `[ a[i] XOR b[i] for i in 0..<len(a) ]`, for `len(a) = len(b)` (R130). -/
def addBits (a b : List Bool) : List Bool := List.zipWith xor a b

/-- `multiply(v, M)` (R135): the XOR of the rows `i` of `M` with `v[i] = 1`, from the zero vector of length `cols(M)`. -/
def multiply (v : List Bool) (m : Matrix) : List Bool :=
  (v.zip m.rows).foldl (fun r (bit, row) => if bit then addBits r row else r) (List.replicate m.cols false)

/-- The two characters `parse` reads (R134): `'0'` and `'1'`. -/
def isBitChar (x : Byte) : Bool := decide (x = 0x30#8) || decide (x = 0x31#8)

/-- `VADD` (R132). -/
def execVadd (fd fa fb : VId) (s : State) : Host.Outcome State Fault Refusal :=
  let a := s.store.v[fa]
  let b := s.store.v[fb]
  if a.length ≠ b.length then raiseError .lengthMismatch s
  else complete (s.setV fd (addBits a b))

/-- `VEQ` (R133). -/
def execVeq (fa fb : VId) (s : State) : Host.Outcome State Fault Refusal :=
  let a := s.store.v[fa]
  let b := s.store.v[fb]
  if a.length ≠ b.length then raiseError .lengthMismatch s
  else complete (s.setRes (decide (a = b)))

/-- `VPARSE` (R134). -/
def execVparse (fd : VId) (s : State) : Host.Outcome State Fault Refusal :=
  let x := s.store.b
  if x.all isBitChar then complete (s.setV fd (x.map fun ch => decide (ch = 0x31#8)))
  else raiseError .invalidInput s

/-- `VMUL` (R135). -/
def execVmul (fd fa : VId) (fb : MId) (s : State) : Host.Outcome State Fault Refusal :=
  let v := s.store.v[fa]
  let m := s.store.m[fb]
  if m.rowCount = 0 then raiseError .lengthMismatch s
  else if v.length ≠ m.rowCount then raiseError .lengthMismatch s
  else complete (s.setV fd (multiply v m))

end Sys2Proof.Machine
end

