-- ==== Sys2Proof/Machine/Elimination.lean ====
section
/-! DEFINITION. Gaussian elimination (41_gaussian_elimination.md): the function `gauss` and the command `GAUSS`. -/

namespace Sys2Proof.Machine

/-- Step 2 of R160: the first row in `p..<k` with a 1 in column `j`. -/
def pivotRow (rows : List (List Bool)) (p j : Nat) : Option Nat :=
  ((rows.drop p).findIdx? fun row => row.getD j false).map (p + ·)

/-- Step 3 of R160: if the row found is not row `p`, add it to row `p`; it stays as it is. -/
def addToPivot (rows : List (List Bool)) (p f : Nat) : List (List Bool) :=
  if f = p then rows else rows.set p (addBits (rows.getD p []) (rows.getD f []))

/-- Step 4 of R160: clear column `j` in every row but row `p`, by adding row `p`. -/
def clearColumn (rows : List (List Bool)) (p j : Nat) : List (List Bool) :=
  rows.mapIdx fun i row => if i ≠ p ∧ row.getD j false = true then addBits row (rows.getD p []) else row

/-- One column of R160's loop, on the rows and the pivots found so far; the pivot count `p` is the list's length. -/
def gaussColumn (x : List (List Bool) × List Nat) (j : Nat) : List (List Bool) × List Nat :=
  let p := x.2.length
  match pivotRow x.1 p j with
  | none => x
  | some f => (clearColumn (addToPivot x.1 p f) p j, x.2 ++ [j])

/-- `gauss(M)` (R160): the reduced matrix and the pivot columns, in the order discovered. -/
def gauss (m : Matrix) : Matrix × List Nat :=
  let x := (List.range m.cols).foldl gaussColumn (m.rows, [])
  ({ m with rows := x.1 }, x.2)

/-- `GAUSS` (R161). -/
def execGauss (fd fa : MId) (fb : PId) (s : State) : Host.Outcome State Fault Refusal :=
  let m := s.store.m[fa]
  if m.rowCount = 0 then raiseError .lengthMismatch s
  else
    let r := gauss m
    if r.2.length < m.rowCount then raiseError .rankDeficiency s
    else complete ((s.setM fd r.1).setP fb (indexWords r.2))

end Sys2Proof.Machine
end

