-- ==== Sys2Proof/Machine/Binary64.lean ====
section
/-! DEFINITION. The binary64 primitives of R13 on encodings. Sums are computed exactly, as integers counting units of
2^-1074, and rounded once, to nearest, ties to even. -/

namespace Sys2Proof.Machine

/-- The encoding without its sign: the magnitude's exponent and fraction, [62:0]. -/
def f64Mag (x : F64) : Nat := (x.extractLsb' 0 63).toNat

/-- The sign, bit 63. -/
def f64Sign (x : F64) : Bool := x.getLsbD 63

/-- The magnitude bits of an infinity. -/
def f64InfMag : Nat := 0x7FF0000000000000

/-- `isNaN` (R13): exponent bits all 1 and a fraction other than 0. -/
def isNaN (x : F64) : Bool := decide (f64InfMag < f64Mag x)

/-- An infinity: exponent bits all 1 and fraction 0. -/
def isInf (x : F64) : Bool := decide (f64Mag x = f64InfMag)

/-- `lt0` (R13): IEEE `x < 0`, so false of NaN and of both zeros. -/
def lt0 (x : F64) : Bool := !isNaN x && f64Sign x && decide (f64Mag x ≠ 0)

/-- `fabs` (R13): bit 63 cleared. -/
def fabs (x : F64) : F64 := 0#1 ++ x.extractLsb' 0 63

/-- The place of a non-NaN value in the order of the reals (with both infinities): its magnitude's encoding, signed.
For magnitudes, the order of encodings is the order of values (R235). -/
def f64Key (x : F64) : Int := if f64Sign x then -(f64Mag x : Int) else (f64Mag x : Int)

/-- `flt` (R13): IEEE `x < y`. -/
def flt (x y : F64) : Bool := !isNaN x && !isNaN y && decide (f64Key x < f64Key y)

/-- `feq` (R13): IEEE `x == y`. -/
def feq (x y : F64) : Bool := !isNaN x && !isNaN y && decide (f64Key x = f64Key y)

/-- The magnitude of a finite value in units of 2^-1074: the fraction with its hidden bit, shifted by the exponent. -/
def f64Units (x : F64) : Nat :=
  let e := f64Mag x >>> 52
  let f := f64Mag x % (1 <<< 52)
  if e = 0 then f else ((1 <<< 52) + f) <<< (e - 1)

/-- The exact value of a finite encoding, in units of 2^-1074. -/
def f64Exact (x : F64) : Int := if f64Sign x then -(f64Units x : Int) else (f64Units x : Int)

/-- Divide by 2^k, to nearest, ties to even. -/
def roundShift (n k : Nat) : Nat :=
  let q := n >>> k
  let twice := 2 * (n % (1 <<< k))
  if twice < 1 <<< k then q
  else if 1 <<< k < twice then q + 1
  else q + q % 2

/-- The magnitude bits of `n` units of 2^-1074, rounded to 53 significant bits (roundTiesToEven), an overflow giving
an infinity. A carry out of the significand goes into the exponent field above it, as it must. -/
def roundUnits (n : Nat) : Nat :=
  let k := Nat.log2 n - 52
  let m := (k <<< 52) + roundShift n k
  if f64InfMag < m then f64InfMag else m

/-- An encoding from its sign and its magnitude bits. -/
def mkF64 (sign : Bool) (mag : Nat) : F64 := BitVec.ofBool sign ++ BitVec.ofNat 63 mag

/-- A quiet NaN whose sign and payload are free (log 6). -/
def freeNaN (x y : F64) : F64 :=
  let b := Config.nanBits x y
  BitVec.ofBool (b.getLsbD 51) ++ 0xFFF#12 ++ b.extractLsb' 0 51

/-- `fadd` (R13): IEEE binary64 addition, roundTiesToEven. An exact sum of 0 is `+0.0`, but for two negative zeros. -/
def fadd (x y : F64) : F64 :=
  if isNaN x || isNaN y then freeNaN x y
  else if isInf x then
    if isInf y && (f64Sign x != f64Sign y) then freeNaN x y else x
  else if isInf y then y
  else
    let z := f64Exact x + f64Exact y
    if z = 0 then mkF64 (f64Sign x && f64Sign y) 0
    else mkF64 (decide (z < 0)) (roundUnits z.natAbs)

/-- `+0.0` (R226). -/
def f64Zero : F64 := 0#64

end Sys2Proof.Machine
end

