-- ==== Sys2Proof/Machine/Permutation.lean ====
section
/-! DEFINITION. The permutation commands of 42_permutation.md: the bijection check, `invert`, `apply`, and `PINV`,
`PAPPLY`, `PCOLS`. -/

namespace Sys2Proof.Machine

/-- `bij(p)` (R180): every element is less than the length and none appears twice. -/
def bij (p : List Nat) : Bool := p.all (fun x => decide (x < p.length)) && decide p.Nodup

/-- `apply(p, s)` (R181): `r[p[i]] <- s[i]` for every `i`. With `bij(p)` every position is written once, so it does
not matter what `r` holds before; it starts as `s`. -/
def applyPerm {α : Type} (p : List Nat) (x : List α) : List α :=
  (p.zip x).foldl (fun r (d, e) => r.set d e) x

/-- `invert(p)` (R181): `q[p[i]] <- i` for every `i`, which is `apply` of `p` to the sequence of all indices. -/
def invert (p : List Nat) : List Nat := applyPerm p (List.range p.length)

/-- `permuteColumns` (R184): `apply` to every row. -/
def permuteColumns (m : Matrix) (p : List Nat) : Matrix := { m with rows := m.rows.map (applyPerm p) }

/-- `PAPPLY`'s two checks, in their order, and its result, for a sequence of any class (R183). -/
def checkedApply {α : Type} (p : List Nat) (x : List α) : Except ErrCode (List α) :=
  if p.length ≠ x.length then .error .lengthMismatch
  else if bij p then .ok (applyPerm p x)
  else .error .invalidPermutation

/-- `PINV` (R182). -/
def execPinv (fd fa : PId) (s : State) : Host.Outcome State Fault Refusal :=
  let p := indexNats s.store.p[fa]
  if bij p then complete (s.setP fd (indexWords (invert p)))
  else raiseError .invalidPermutation s

/-- `PAPPLY` (R183). -/
def execPapply (fd : SeqRef) (fa : PId) (fb : SeqRef) (s : State) : Host.Outcome State Fault Refusal :=
  let p := indexNats s.store.p[fa]
  match fd, fb with
  | .v d, .v q =>
    match checkedApply p s.store.v[q] with
    | .ok x => complete (s.setV d x)
    | .error e => raiseError e s
  | .s d, .s q =>
    match checkedApply p s.store.s[q] with
    | .ok x => complete (s.setS d x)
    | .error e => raiseError e s
  | .p d, .p q =>
    match checkedApply p s.store.p[q] with
    | .ok x => complete (s.setP d x)
    | .error e => raiseError e s
  | _, _ => raiseError .illegalOperand s

/-- `PCOLS` (R184). An empty matrix is copied, and the permutation is not examined. -/
def execPcols (fd fa : MId) (fb : PId) (s : State) : Host.Outcome State Fault Refusal :=
  let m := s.store.m[fa]
  let p := indexNats s.store.p[fb]
  if m.rowCount = 0 then complete (s.setM fd m)
  else if p.length ≠ m.cols then raiseError .lengthMismatch s
  else if bij p then complete (s.setM fd (permuteColumns m p))
  else raiseError .invalidPermutation s

end Sys2Proof.Machine
end

