-- ==== Sys2Proof/Machine/Osd.lean ====
section
/-! DEFINITION. The OSD decoder of 44_osd_decoder.md: the seven steps R221–R228 as pure functions, and `DECODE`. -/

namespace Sys2Proof.Machine

/-- `alpha`, the hard decisions (R221). -/
def hardDecisions (x : List F64) : List Bool := x.map lt0

/-- `beta`, the reliabilities (R221). -/
def reliabilities (x : List F64) : List F64 := x.map fabs

/-- Position `i` comes before position `j` in the order of R222: strictly more reliable, or equally reliable and of
lower original index. -/
def moreReliable (beta : List F64) (i j : Nat) : Bool :=
  flt (beta.getD j f64Zero) (beta.getD i f64Zero)
    || (feq (beta.getD i f64Zero) (beta.getD j f64Zero) && decide (i < j))

/-- Put position `i` into a sequence ordered by R222. -/
def insertByReliability (beta : List F64) (i : Nat) : List Nat → List Nat
  | [] => [i]
  | j :: js => if moreReliable beta i j then i :: j :: js else j :: insertByReliability beta i js

/-- `ipi`, the reliability order (R222): all positions, most reliable first. -/
def reliabilityOrder (beta : List F64) : List Nat :=
  (List.range beta.length).foldr (insertByReliability beta) []

/-- The metric of a candidate (R226), summed in increasing position from `+0.0`. -/
def metric (cand alpha : List Bool) (beta : List F64) : F64 :=
  ((cand.zip alpha).zip beta).foldl (fun m (x, b) => if x.1 ≠ x.2 then fadd m b else m) f64Zero

/-- `info` with the bits of a subset flipped (R227). -/
def flipBits (info : List Bool) (positions : List Nat) : List Bool :=
  info.mapIdx fun i x => if i ∈ positions then !x else x

/-- Every state from `st` to exhaustion (R227's inner loop), at most `fuel` of them. -/
def enumerateFrom (w : Nat) : Nat → List Word → List (List Word)
  | 0, _ => []
  | fuel + 1, st =>
    st :: match advance w st with
      | none => []
      | some next => enumerateFrom w fuel next

/-- The size-`w` subsets of `{0..k-1}`, in the enumerator's order (R204, R227). The loop ends by exhaustion: `2^k`
bounds the number of subsets, so the fuel does not run out. -/
def subsetsOfSize (k w : Nat) : List (List Nat) :=
  (enumerateFrom w (2 ^ k) (initialCombination w k)).map fun st => indexNats (st.take w)

/-- The subsets the search visits, in its order: weights `0..min(w_max, k)` (R227). -/
def searchSubsets (k wMax : Nat) : List (List Nat) :=
  (List.range (min wMax k + 1)).flatMap (subsetsOfSize k)

/-- A candidate and its metric (R227): flip, encode, score. -/
def scoreCandidate (info : List Bool) (g : Matrix) (alpha : List Bool) (beta : List F64) (positions : List Nat) :
    List Bool × F64 :=
  let cand := multiply (flipBits info positions) g
  (cand, metric cand alpha beta)

/-- Keep the first candidate, and replace it only by one of strictly lower metric (R227). -/
def keepBetter (best : Option (List Bool × F64)) (x : List Bool × F64) : Option (List Bool × F64) :=
  match best with
  | none => some x
  | some b => if flt x.2 b.2 then some x else some b

/-- The search (R227). The seed is always scored, so a best candidate is always set; `getD` only says so to Lean. -/
def search (info : List Bool) (g : Matrix) (alpha : List Bool) (beta : List F64) (wMax : Nat) : List Bool × F64 :=
  let score := scoreCandidate info g alpha beta
  (((searchSubsets g.rowCount wMax).map score).foldl keepBetter none).getD (score [])

/-- What `DECODE` computes from its samples, its generator matrix and `w_max` (R221–R228, R230): the codeword in
original column order and its metric, or the error, each check in its order. -/
def decodeWord (x : List F64) (g : Matrix) (wMax : Nat) : Except ErrCode (List Bool × F64) :=
  if g.rowCount = 0 then .error .lengthMismatch
  else if x.length ≠ g.cols then .error .lengthMismatch
  else if x.any isNaN then .error .badReal
  else
    let ipi := reliabilityOrder (reliabilities x)
    let pi := invert ipi
    let alpha := applyPerm pi (hardDecisions x)
    let beta := applyPerm pi (reliabilities x)
    let r := gauss (permuteColumns g pi)
    if r.2.length < g.rowCount then .error .rankDeficiency
    else
      let info := r.2.map fun c => alpha.getD c false
      let best := search info r.1 alpha beta wMax
      .ok (applyPerm ipi best.1, best.2)

/-- `DECODE` (R230). -/
def execDecode (fd : VId) (fa : SId) (fb : MId) (s : State) : Host.Outcome State Fault Refusal :=
  match decodeWord s.store.s[fa] s.store.m[fb] s.regs.arg0.toNat with
  | .ok out => complete ((s.setV fd out.1).setMetric out.2)
  | .error e => raiseError e s

end Sys2Proof.Machine
end

