-- ==== Sys2Proof/Machine/Dispatch.lean ====
section
/-! DEFINITION. What each command does when it completes: one arm per constructor of `Instr`. -/

namespace Sys2Proof.Machine

def exec (i : Instr) (s : State) : Host.Outcome State Fault Refusal :=
  match i with
  | .vadd fd fa fb => Sys2Proof.Machine.execVadd fd fa fb s
  | .veq fa fb => Sys2Proof.Machine.execVeq fa fb s
  | .vparse fd => Sys2Proof.Machine.execVparse fd s
  | .vmul fd fa fb => Sys2Proof.Machine.execVmul fd fa fb s
  | .gauss fd fa fb => Sys2Proof.Machine.execGauss fd fa fb s
  | .pinv fd fa => Sys2Proof.Machine.execPinv fd fa s
  | .papply fd fa fb => Sys2Proof.Machine.execPapply fd fa fb s
  | .pcols fd fa fb => Sys2Proof.Machine.execPcols fd fa fb s
  | .cinit => Sys2Proof.Machine.execCinit s
  | .cadv => Sys2Proof.Machine.execCadv s
  | .decode fd fa fb => Sys2Proof.Machine.execDecode fd fa fb s

end Sys2Proof.Machine
end

