-- ==== Sys2Proof/Machine/AccessPort.lean ====
section
/-! DEFINITION. The access port (20_memory.md R76–R83): the words of an object's data and attributes, read and
written, and what is refused. `none` stands for a refused access. -/

namespace Sys2Proof.Machine

/-- The 32 bits of a bit sequence from element `32x` on, element `32x + j` in bit `j`, 0 beyond its end (R77). -/
def packBits (x : List Bool) (word : Nat) : Word :=
  BitVec.ofNat 32 ((List.range 32).foldr (fun j n => 2 * n + (x.getD (32 * word + j) false).toNat) 0)

/-- Store a word into a bit sequence from element `32x` on; bits beyond its end are ignored (R77). -/
def unpackBits (x : List Bool) (word : Nat) (data : Word) : List Bool :=
  x.mapIdx fun i b => if i / 32 = word then data.getLsbD (i % 32) else b

/-- The four bytes from `4x` on, byte `4x + b` in bits `[8b+7:8b]`, 0 beyond the end (R79). -/
def packBytes (x : List Byte) (word : Nat) : Word :=
  x.getD (4 * word + 3) 0#8 ++ x.getD (4 * word + 2) 0#8 ++ x.getD (4 * word + 1) 0#8 ++ x.getD (4 * word) 0#8

/-- Store a word into the bytes from `4x` on; bytes beyond the end are ignored (R79). -/
def unpackBytes (x : List Byte) (word : Nat) (data : Word) : List Byte :=
  x.mapIdx fun i b => if i / 4 = word then data.extractLsb' (8 * (i % 4)) 8 else b

/-- Half `h` of a binary64 encoding: 0 the low word, 1 the high word (R79). -/
def f64Half (x : F64) (h : Nat) : Word := if h = 0 then x.extractLsb' 0 32 else x.extractLsb' 32 32

/-- Replace half `h` of a binary64 encoding and keep the other (R79). -/
def setF64Half (x : F64) (h : Nat) (data : Word) : F64 :=
  if h = 0 then x.extractLsb' 32 32 ++ data else data ++ x.extractLsb' 0 32

/-- The resize rule of R81: zero elements are added at the end, or the elements at and beyond the new length are lost. -/
def resize {α : Type} (x : List α) (n : Nat) (zero : α) : List α :=
  x.take n ++ List.replicate (n - x.length) zero

/-- A change of a matrix's row count (R81). -/
def Matrix.resizeRows (m : Matrix) (n : Nat) : Matrix :=
  { m with rows := resize m.rows n (List.replicate m.cols false) }

/-- A change of a matrix's column count (R81). -/
def Matrix.resizeCols (m : Matrix) (n : Nat) : Matrix :=
  { cols := n, rows := m.rows.map fun row => resize row n false }

/-- Element data, `part = 0` (R77–R80): word `x` of an object, if there is one. -/
def readData (p : Params) (v : ObjVal) (x : Nat) : Option Word :=
  match v with
  | .v bits => if 32 * x < bits.length then some (packBits bits x) else none
  | .s reals => if h : x / 2 < reals.length then some (f64Half reals[x / 2] (x % 2)) else none
  | .p idx => idx[x]?
  | .m mat =>
    let r := x / p.wordsPerRow
    let c := x % p.wordsPerRow
    if r < mat.rowCount ∧ 32 * c < mat.cols then some (packBits (mat.row r) c) else none
  | .c comb => if x ≤ comb.w then comb.state[x]? else none
  | .b bytes => if 4 * x < bytes.length then some (packBytes bytes x) else none

/-- Attribute words, `part = 1` (R81). -/
def readAttr (v : ObjVal) (x : Nat) : Option Word :=
  match v, x with
  | .v bits, 0 => some (BitVec.ofNat 32 bits.length)
  | .s reals, 0 => some (BitVec.ofNat 32 reals.length)
  | .p idx, 0 => some (BitVec.ofNat 32 idx.length)
  | .b bytes, 0 => some (BitVec.ofNat 32 bytes.length)
  | .m mat, 0 => some (BitVec.ofNat 32 mat.rowCount)
  | .m mat, 1 => some (BitVec.ofNat 32 mat.cols)
  | .c comb, 0 => some (BitVec.ofNat 32 comb.w)
  | .c comb, 1 => some (BitVec.ofNat 32 comb.n)
  | _, _ => none

/-- A write of element data, `part = 0` (R77–R80). `C` takes none. -/
def writeData (p : Params) (o : ObjectStore) (r : ObjRef) (x : Nat) (data : Word) : Option ObjectStore :=
  match r with
  | .v i =>
    let bits := o.v[i]
    if 32 * x < bits.length then some { o with v := o.v.set i (unpackBits bits x data) } else none
  | .s i =>
    let reals := o.s[i]
    if h : x / 2 < reals.length then
      some { o with s := o.s.set i (reals.set (x / 2) (setF64Half reals[x / 2] (x % 2) data)) }
    else none
  | .p i =>
    let idx := o.p[i]
    if x < idx.length then some { o with p := o.p.set i (idx.set x data) } else none
  | .m i =>
    let mat := o.m[i]
    let r := x / p.wordsPerRow
    let c := x % p.wordsPerRow
    if r < mat.rowCount ∧ 32 * c < mat.cols then
      some { o with m := o.m.set i { mat with rows := mat.rows.set r (unpackBits (mat.row r) c data) } }
    else none
  | .c => none
  | .b => if 4 * x < o.b.length then some { o with b := unpackBytes o.b x data } else none

/-- A write of an attribute word, `part = 1` (R81). `C` takes none, and a value beyond its limit is refused. -/
def writeAttr (p : Params) (o : ObjectStore) (r : ObjRef) (x : Nat) (data : Word) : Option ObjectStore :=
  let n := data.toNat
  match r, x with
  | .v i, 0 => if n ≤ p.nMax then some { o with v := o.v.set i (resize o.v[i] n false) } else none
  | .s i, 0 => if n ≤ p.nMax then some { o with s := o.s.set i (resize o.s[i] n 0#64) } else none
  | .p i, 0 => if n ≤ p.nMax then some { o with p := o.p.set i (resize o.p[i] n 0#32) } else none
  | .b, 0 => if n ≤ p.nMax then some { o with b := resize o.b n 0#8 } else none
  | .m i, 0 => if n ≤ p.kMax then some { o with m := o.m.set i (o.m[i].resizeRows n) } else none
  | .m i, 1 => if n ≤ p.nMax then some { o with m := o.m.set i (o.m[i].resizeCols n) } else none
  | _, _ => none

/-- A read through the port: the word `x` of a part of the object an id names; a reserved id names none (R76, R82). -/
def portRead (p : Params) (o : ObjectStore) (id : ObjId) (part : Bool) (x : Nat) : Option Word :=
  match ObjRef.ofId id with
  | none => none
  | some r => if part then readAttr (o.value r) x else readData p (o.value r) x

/-- A write through the port (R76, R82): the store it leaves. -/
def portWrite (p : Params) (o : ObjectStore) (id : ObjId) (part : Bool) (x : Nat) (data : Word) : Option ObjectStore :=
  match ObjRef.ofId id with
  | none => none
  | some r => if part then writeAttr p o r x data else writeData p o r x data

end Sys2Proof.Machine
end

