-- ==== Sys2Proof/Machine/HostAccess.lean ====
section
/-! DEFINITION. The host's accesses to the register block (10_state.md R41–R53, 20_memory.md R70–R74): which register
an access reaches, what a read returns, and what a write does. -/

namespace Sys2Proof.Machine

/-- The sixteen registers of the block (R41). -/
inductive Reg
  | id | version | capN | capK | ctrl | status | cmd | arg0 | arg1 | metricLo | metricHi | accSel | accIdx | accData
  | reserved38 | reserved3C
deriving DecidableEq, Repr

/-- The byte offset of a register (R41). -/
def Reg.offset : Reg → Nat
  | .id => 0x00
  | .version => 0x04
  | .capN => 0x08
  | .capK => 0x0C
  | .ctrl => 0x10
  | .status => 0x14
  | .cmd => 0x18
  | .arg0 => 0x1C
  | .arg1 => 0x20
  | .metricLo => 0x24
  | .metricHi => 0x28
  | .accSel => 0x2C
  | .accIdx => 0x30
  | .accData => 0x34
  | .reserved38 => 0x38
  | .reserved3C => 0x3C

/-- The registers, in the order of their offsets. -/
def Reg.all : List Reg :=
  [.id, .version, .capN, .capK, .ctrl, .status, .cmd, .arg0, .arg1, .metricLo, .metricHi, .accSel, .accIdx, .accData,
   .reserved38, .reserved3C]

/-- The register at an offset, for an aligned offset inside the block. -/
def Reg.ofOffset (off : Nat) : Option Reg := Reg.all.find? fun r => r.offset == off

/-- What a host access is to the engine (R70, R72). -/
inductive Target
  /-- An aligned 32-bit access to a register of the block. -/
  | reg (r : Reg)
  /-- It touches the block, but is no aligned 32-bit access. -/
  | malformed
  /-- It touches no byte of the block: the platform's business, not the engine's. -/
  | outside
deriving DecidableEq, Repr

/-- What an access of a width at a host byte address is (R70, R72). -/
def accessTarget (p : Params) (addr : Nat) (width : Width) : Target :=
  if addr + width.bytes ≤ p.base ∨ p.base + 64 ≤ addr then .outside
  else if width = .w32 ∧ p.base ≤ addr then
    match Reg.ofOffset (addr - p.base) with
    | some r => .reg r
    | none => .malformed
  else .malformed

/-- Byte lane `i` of a register value: bits `[8i+7:8i]` travel at address `BASE + off + i` (R73). -/
def byteLane (v : Word) (i : Nat) : Byte := v.extractLsb' (8 * i) 8

/-- The access port's part of an `ACC_DATA` read: the word (0 if refused) and the state, `ACC_IDX` one further
whether the access is refused or not, and `AERR` set if it is (R51, R76, R83). -/
def readAccData (s : State) : Word × State :=
  let t := { s with regs := { s.regs with accIdx := s.regs.accIdx + 1#32 } }
  match portRead s.params s.store s.regs.accObj s.regs.accPart s.regs.accIdx.toNat with
  | some v => (v, t)
  | none => (0#32, t.setAerr)

/-- The same of a write (R51, R76, R83). -/
def writeAccData (s : State) (data : Word) : State :=
  let t := { s with regs := { s.regs with accIdx := s.regs.accIdx + 1#32 } }
  match portWrite s.params s.store s.regs.accObj s.regs.accPart s.regs.accIdx.toNat data with
  | some o => { t with store := o }
  | none => t.setAerr

/-- A 32-bit read of a register: the value and the state it leaves (R41–R53). -/
def readReg (s : State) (r : Reg) : Word × State :=
  match r with
  | .id => (Config.idValue, s)
  | .version => (Config.versionValue, s)
  | .capN => (BitVec.ofNat 32 s.params.nMax, s)
  | .capK => (BitVec.ofNat 32 s.params.kMax, s)
  | .ctrl => (0#32, s)
  | .status => (s.regs.status, s)
  | .cmd => (0#32, s)
  | .arg0 => (s.regs.arg0, s)
  | .arg1 => (s.regs.arg1, s)
  | .metricLo => if s.regs.busy then s.draw else (s.regs.metricLo, s)
  | .metricHi => if s.regs.busy then s.draw else (s.regs.metricHi, s)
  | .accSel => (s.regs.accSel, s)
  | .accIdx => (s.regs.accIdx, s)
  | .accData => if s.regs.busy then (s.draw.1, s.draw.2.setAerr) else readAccData s
  | .reserved38 => (0#32, s.setAerr)
  | .reserved3C => (0#32, s.setAerr)

/-- A write to `CTRL` (R44): bit 1 clears `AERR`, bit 0 resets the engine; every other bit is ignored. -/
def writeCtrl (s : State) (data : Word) : State :=
  let t := if data.getLsbD 1 then { s with regs := { s.regs with aerr := false } } else s
  if data.getLsbD 0 then t.engineReset else t

/-- The issue of a command (R32, R47). -/
def issue (s : State) (word : Word) : State :=
  { s with regs := { s.regs with pend := word, busy := true, err := .ok } }

/-- A 32-bit write of a register (R41–R53). -/
def writeReg (s : State) (r : Reg) (data : Word) : State :=
  match r with
  | .id => s.setAerr
  | .version => s.setAerr
  | .capN => s.setAerr
  | .capK => s.setAerr
  | .ctrl => writeCtrl s data
  | .status => s.setAerr
  | .cmd => if s.regs.busy then s.setAerr else issue s data
  | .arg0 => if s.regs.busy then s.setAerr else { s with regs := { s.regs with arg0 := data } }
  | .arg1 => if s.regs.busy then s.setAerr else { s with regs := { s.regs with arg1 := data } }
  | .metricLo => s.setAerr
  | .metricHi => s.setAerr
  | .accSel =>
    if s.regs.busy then s.setAerr
    else { s with regs := { s.regs with accObj := data.extractLsb' 0 5, accPart := data.getLsbD 8 } }
  | .accIdx => if s.regs.busy then s.setAerr else { s with regs := { s.regs with accIdx := data } }
  | .accData => if s.regs.busy then s.setAerr else writeAccData s data
  | .reserved38 => s.setAerr
  | .reserved3C => s.setAerr

/-- `MemRead(addr, width)` by the host (R12, R70, R72). What an address outside the block reads as is the platform's:
a free value (log 7). -/
def hostRead (s : State) (addr : Nat) (width : Width) : Word × State :=
  match accessTarget s.params addr width with
  | .reg r => readReg s r
  | .malformed => (0#32, s.setAerr)
  | .outside => s.draw

/-- `MemWrite(addr, width, data)` by the host (R12, R70, R72). -/
def hostWrite (s : State) (addr : Nat) (width : Width) (data : BitVec 64) : State :=
  match accessTarget s.params addr width with
  | .reg r => writeReg s r (data.extractLsb' 0 32)
  | .malformed => s.setAerr
  | .outside => s

end Sys2Proof.Machine
end

