-- ==== Sys2Proof/Machine/HostScript.lean ====
section
/-! DEFINITION. The host agent (10_state.md R30, 30_encoding.md R109–R111): one line of its script as one host step,
the pseudo-instructions a script is written with, and the written form of a command. -/

namespace Sys2Proof.Machine

/-- The value a host name stands for, if the host has read it. -/
def HostAgent.value (h : HostAgent) (name : HostName) : Option Word :=
  (h.values.find? fun x => x.1 == name).map Prod.snd

/-- Keep a value under a name (`RD <reg> -> name`), in place of an older one. -/
def HostAgent.keep (h : HostAgent) (dst : Option HostName) (v : Word) : HostAgent :=
  match dst with
  | none => h
  | some name => { h with values := (name, v) :: h.values.filter fun x => x.1 != name }

/-- Go on to the next line. -/
def HostAgent.nextLine (h : HostAgent) : HostAgent := { h with line := h.line + 1 }

/-- Go to the first line marked with a label; a label no line has ends the script. -/
def HostAgent.goto (h : HostAgent) (target : HostLabel) : HostAgent :=
  { h with line := h.script.findIdx fun l => l.label == some target }

/-- A condition of R110 on the value its name stands for. -/
def condHolds (c : HostCond) (v : Word) : Bool :=
  decide ((v.extractLsb' c.lo (c.hi + 1 - c.lo)).toNat = c.value.toNat) == c.equal

/-- The value a condition looks at. A name nothing has been read into stands for a free value (log 8). -/
def hostValue (s : State) (name : HostName) : Word × State :=
  match s.host.value name with
  | some v => (v, s)
  | none => s.draw

/-- One line of a host script (R30, R110): one register access, or a branch inside the host. -/
def runHostLine (s : State) (op : HostOp) : State :=
  match op with
  | .rd addr width dst =>
    let r := hostRead s addr width
    { r.2 with host := (r.2.host.keep dst r.1).nextLine }
  | .wr addr width data =>
    let t := hostWrite s addr width data
    { t with host := t.host.nextLine }
  | .ifGoto c target =>
    let r := hostValue s c.name
    { r.2 with host := if condHolds c r.1 then r.2.host.goto target else r.2.host.nextLine }

/-- The host's step: the line it has come to; a host at the end of its script has no step (R30). -/
def hostStep (s : State) : State :=
  match s.host.script[s.host.line]? with
  | none => s
  | some l => runHostLine s l.op

/-! The pseudo-instructions of R111, each as the lines it expands to. -/

/-- `WR <reg>, v` (R110). -/
def lineWr (p : Params) (r : Reg) (v : Word) : HostLine :=
  { label := none, op := .wr (p.base + r.offset) .w32 (0#32 ++ v) }

/-- `RD <reg> -> name` (R110). -/
def lineRd (p : Params) (r : Reg) (dst : Option HostName) : HostLine :=
  { label := none, op := .rd (p.base + r.offset) .w32 dst }

/-- `SEL x, part` (R111). -/
def scriptSel (p : Params) (x : ObjRef) (part : Bool) : List HostLine :=
  [lineWr p .accSel (0#23 ++ BitVec.ofBool part ++ 0#3 ++ x.id)]

/-- `SETLEN x, L` (R111). -/
def scriptSetLen (p : Params) (x : ObjRef) (len : Nat) : List HostLine :=
  scriptSel p x true ++ [lineWr p .accIdx 0#32, lineWr p .accData (BitVec.ofNat 32 len)]

/-- `SETDIM Mx, r, c` (R111). -/
def scriptSetDim (p : Params) (i : MId) (rows cols : Nat) : List HostLine :=
  scriptSel p (.m i) true
    ++ [lineWr p .accIdx 0#32, lineWr p .accData (BitVec.ofNat 32 rows), lineWr p .accData (BitVec.ofNat 32 cols)]

/-- One `WR ACC_DATA, word` for each word. -/
def scriptData (p : Params) (words : List Word) : List HostLine := words.map (lineWr p .accData)

/-- The words a bit sequence is loaded with: `ceil(L/32)` of them (R111). -/
def bitWords (x : List Bool) : List Word := (List.range ((x.length + 31) / 32)).map (packBits x)

/-- `LOADV Vx, "b0b1..."` (R111). -/
def scriptLoadV (p : Params) (i : VId) (x : List Bool) : List HostLine :=
  scriptSetLen p (.v i) x.length ++ scriptSel p (.v i) false ++ [lineWr p .accIdx 0#32] ++ scriptData p (bitWords x)

/-- `LOADM Mx, ["row0", ...]` (R111), for rows of `cols` elements. -/
def scriptLoadM (p : Params) (i : MId) (cols : Nat) (rows : List (List Bool)) : List HostLine :=
  scriptSetDim p i rows.length cols ++ scriptSel p (.m i) false
    ++ rows.zipIdx.flatMap fun (row, q) =>
      lineWr p .accIdx (BitVec.ofNat 32 (q * p.wordsPerRow)) :: scriptData p (bitWords row)

/-- `LOADS Sx, [f0, f1, ...]` (R111). -/
def scriptLoadS (p : Params) (i : SId) (x : List F64) : List HostLine :=
  scriptSetLen p (.s i) x.length ++ scriptSel p (.s i) false ++ [lineWr p .accIdx 0#32]
    ++ scriptData p (x.flatMap fun f => [f64Half f 0, f64Half f 1])

/-- `LOADP Px, [e0, ...]` (R111). -/
def scriptLoadP (p : Params) (i : PId) (x : List Word) : List HostLine :=
  scriptSetLen p (.p i) x.length ++ scriptSel p (.p i) false ++ [lineWr p .accIdx 0#32] ++ scriptData p x

/-- `LOADB "chars"` (R111). -/
def scriptLoadB (p : Params) (x : List Byte) : List HostLine :=
  scriptSetLen p .b x.length ++ scriptSel p .b false ++ [lineWr p .accIdx 0#32]
    ++ scriptData p ((List.range ((x.length + 3) / 4)).map (packBytes x))

/-- `POLL` (R111): `p: RD STATUS -> s` and `IF s[0] = 1 GOTO p`, with a label and a name of the script's choice. -/
def scriptPoll (p : Params) (label : HostLabel) (name : HostName) : List HostLine :=
  [{ lineRd p .status (some name) with label := some label },
   { label := none, op := .ifGoto { name := name, hi := 0, lo := 0, equal := true, value := 1#32 } label }]

/-- `EXEC <command>` (R111). -/
def scriptExec (p : Params) (i : Instr) (label : HostLabel) (name : HostName) : List HostLine :=
  lineWr p .cmd (encode i) :: scriptPoll p label name

/-- `READ x, part, i -> name` (R111). -/
def scriptRead (p : Params) (x : ObjRef) (part : Bool) (i : Nat) (name : HostName) : List HostLine :=
  scriptSel p x part ++ [lineWr p .accIdx (BitVec.ofNat 32 i), lineRd p .accData (some name)]

/-- The written name of an object (R109). -/
def objText : ObjRef → String
  | .v i => "V" ++ toString i.val
  | .s i => "S" ++ toString i.val
  | .p i => "P" ++ toString i.val
  | .m i => "M" ++ toString i.val
  | .c => "C"
  | .b => "B"

/-- The written form of a command (R109): its mnemonic, then its used object fields in the order `fd, fa, fb`. -/
def commandText : Instr → String
  | .vadd fd fa fb => "VADD " ++ objText (.v fd) ++ ", " ++ objText (.v fa) ++ ", " ++ objText (.v fb)
  | .veq fa fb => "VEQ " ++ objText (.v fa) ++ ", " ++ objText (.v fb)
  | .vparse fd => "VPARSE " ++ objText (.v fd) ++ ", " ++ objText .b
  | .vmul fd fa fb => "VMUL " ++ objText (.v fd) ++ ", " ++ objText (.v fa) ++ ", " ++ objText (.m fb)
  | .gauss fd fa fb => "GAUSS " ++ objText (.m fd) ++ ", " ++ objText (.m fa) ++ ", " ++ objText (.p fb)
  | .pinv fd fa => "PINV " ++ objText (.p fd) ++ ", " ++ objText (.p fa)
  | .papply fd fa fb =>
    "PAPPLY " ++ objText fd.toObj ++ ", " ++ objText (.p fa) ++ ", " ++ objText fb.toObj
  | .pcols fd fa fb => "PCOLS " ++ objText (.m fd) ++ ", " ++ objText (.m fa) ++ ", " ++ objText (.p fb)
  | .cinit => "CINIT"
  | .cadv => "CADV"
  | .decode fd fa fb => "DECODE " ++ objText (.v fd) ++ ", " ++ objText (.s fa) ++ ", " ++ objText (.m fb)

end Sys2Proof.Machine
end

