-- ==== Sys2Proof/Machine/Turns.lean ====
section
/-! DEFINITION. The two agents' steps and their interleaving (R30–R32, R86, R290, R300). -/

namespace Sys2Proof.Machine

/-- The engine's completion step (R32): the whole pending command, or the error an illegal word ends with (R107). -/
def completionStep (s : State) : Host.Outcome State Fault Refusal :=
  match decode s.regs.pend with
  | .ok i => exec i s
  | .error e => raiseError (decodeErrCode e) s

/-- Who takes the next step, and the state in which it is taken: the turn the interleaving names, or, when it names
none, the engine while a command is pending and the host otherwise (R86, R300; log 4). -/
def nextTurn (s : State) : Turn × State :=
  match s.turns with
  | t :: rest => (t, { s with turns := rest })
  | [] => (if s.regs.busy then .engine else .host, s)

/-- One agent's step. An agent that has no step leaves everything as it is: an idle engine (R31, R274), a host at the
end of its script. The platform's reset input acts at any time (R290). -/
def takeTurn (t : Turn) (s : State) : Host.Outcome State Fault Refusal :=
  match t with
  | .host => .next (hostStep s)
  | .engine => if s.regs.busy then completionStep s else .next s
  | .resetInput => .next s.engineReset

end Sys2Proof.Machine
end

