-- ==== Sys2Proof/Machine/Step.lean ====
section
/-! DEFINITION. One step of the machine, and the placing of a command where the next step runs it. -/

namespace Sys2Proof.Machine

/-- One step of the interleaving (R86). -/
def step (s : State) : Host.Outcome State Fault Refusal := takeTurn (nextTurn s).1 (nextTurn s).2

/-- `s` with the word `w` issued (R47) and the engine's completion step coming next, so that the very next step runs
it. The engine fetches nothing (R55): this stands for the host's write to `CMD` (log 9). -/
def State.withFetchWord (s : State) (nbits w : Nat) : State :=
  { issue s (tableWord nbits w) with turns := .engine :: s.turns }

end Sys2Proof.Machine
end

