-- ==== Sys2Proof/Machine/Invariant.lean ====
section
/-! DEFINITION. The form the spec gives the machine's data: the lengths and dimensions of the objects (R33, R37), the
combination's invariant (R39), the parameters' ranges (R7), and `ERR = 0` while busy (R45). The object store has no byte
addresses (R71), so `ObjectStore.wf` is what a canonical form of a memory would be: each object is held as exactly its
elements, so equal stores are equal data. -/

namespace Sys2Proof.Machine

/-- R33, R37: a matrix within its bounds, with rows of one length. -/
abbrev Matrix.wf (p : Params) (m : Matrix) : Prop :=
  m.rows.length ≤ p.kMax ∧ m.cols ≤ p.nMax ∧ ∀ row ∈ m.rows, row.length = m.cols

/-- R33, R39: the first `w` entries strictly increase and are drawn from `{0,…,n-1}`, and the last is `n`. -/
abbrev Comb.wf (p : Params) (c : Comb) : Prop :=
  c.w ≤ c.n ∧ c.n ≤ p.nMax ∧ c.state.length = c.w + 1
    ∧ (indexNats (c.state.take c.w)).Pairwise (· < ·)
    ∧ (∀ x ∈ indexNats (c.state.take c.w), x < c.n)
    ∧ c.state.getD c.w 0#32 = BitVec.ofNat 32 c.n

/-- R33: every object within its bounds. -/
abbrev ObjectStore.wf (p : Params) (o : ObjectStore) : Prop :=
  (∀ i : VId, o.v[i].length ≤ p.nMax)
    ∧ (∀ i : SId, o.s[i].length ≤ p.nMax)
    ∧ (∀ i : PId, o.p[i].length ≤ p.nMax)
    ∧ (∀ i : MId, o.m[i].wf p)
    ∧ o.c.wf p
    ∧ o.b.length ≤ p.nMax

/-- The invariant of the machine. -/
abbrev State.wf (s : State) : Prop :=
  s.params.wf ∧ s.store.wf s.params ∧ (s.regs.busy = true → s.regs.err = .ok)

end Sys2Proof.Machine
end

