-- ==== Sys2Proof/Safety.lean ====
section
/-! DEFINITION. The terms the claims about this machine are stated in: what a run, a success, a failure and an
unchanged rest are, and the notions of linear algebra the spec's prose uses. -/

namespace Sys2Proof

open Sys2Proof.Machine

/-- A safe run: `k` steps from `s` never stop. -/
def RunsSafely (k : Nat) (s : State) : Prop := ∃ t, core.run k s = .next t

/-- Everything a command may not touch is as before: every object but the named ones, and every register but `BUSY`,
`ERR`, `RES` and `METRIC`, which the claims speak of one by one. -/
def KeepsAllBut (dsts : List ObjRef) (s t : State) : Prop :=
  (∀ o : ObjRef, o ∉ dsts → t.store.value o = s.store.value o)
    ∧ t.regs.aerr = s.regs.aerr ∧ t.regs.arg0 = s.regs.arg0 ∧ t.regs.arg1 = s.regs.arg1
    ∧ t.regs.accObj = s.regs.accObj ∧ t.regs.accPart = s.regs.accPart ∧ t.regs.accIdx = s.regs.accIdx
    ∧ t.regs.pend = s.regs.pend
    ∧ t.params = s.params ∧ t.host = s.host ∧ t.turns = s.turns ∧ t.draws = s.draws

/-- The command completes without error and leaves `t`: `ERR` is `OK` and the engine is idle (R32, R260). -/
def Succeeds (i : Instr) (s t : State) : Prop :=
  exec i s = .next t ∧ t.regs.err = .ok ∧ t.regs.busy = false

/-- The command completes with an error: `ERR` and `BUSY` are written and nothing else (R261). -/
def FailsWith (i : Instr) (s : State) (e : ErrCode) : Prop :=
  exec i s = .next { s with regs := { s.regs with err := e, busy := false } }

/-- The operand check of one opcode (R105): a word made of its fields (R100) decodes to its command when `rsv` is 0 and
the three fields are as the table asks; when they are not, the engine completes it with `ILLEGAL_OPERAND` and changes
nothing else (R107). -/
def OperandRule (op : Nat) (fits : Nat → Nat → Nat → Prop) (cmd : Nat → Nat → Nat → Instr) : Prop :=
  ∀ fd fa fb rsv : Nat, fd < 32 → fa < 32 → fb < 32 → rsv < 512 →
    let word : Word := BitVec.ofNat 32 (op * 2 ^ 24 + fd * 2 ^ 19 + fa * 2 ^ 14 + fb * 2 ^ 9 + rsv)
    (rsv = 0 ∧ fits fd fa fb → decode word = .ok (cmd fd fa fb)) ∧
    (¬ (rsv = 0 ∧ fits fd fa fb) → ∀ s : State, s.regs.pend = word →
      completionStep s = .next { s with regs := { s.regs with err := .illegalOperand, busy := false } })

/-- The ids of class V, S, P and M (R106). -/
def IsVId (x : Nat) : Prop := x ≤ 7
def IsSId (x : Nat) : Prop := 8 ≤ x ∧ x ≤ 11
def IsPId (x : Nat) : Prop := 12 ≤ x ∧ x ≤ 15
def IsMId (x : Nat) : Prop := 16 ≤ x ∧ x ≤ 17

/-- A sequence of commands, each run by `exec` on the state the one before it left. -/
def runCommands : List Instr → State → Option State
  | [], s => some s
  | i :: is, s =>
    match exec i s with
    | .next t => runCommands is t
    | .fault _ => none
    | .refused _ => none

/-- Full row rank: no XOR of a non-empty choice of rows is zero. -/
def RowsIndependent (m : Matrix) : Prop :=
  ∀ u : List Bool, u.length = m.rowCount → multiply u m = List.replicate m.cols false →
    u = List.replicate m.rowCount false

/-- A codeword of the code a matrix generates (R231, R232). -/
def IsCodeword (m : Matrix) (c : List Bool) : Prop := ∃ u : List Bool, u.length = m.rowCount ∧ multiply u m = c

/-- An index sequence is a permutation of `0..len-1` (R180). -/
def IsPermutation (p : List Nat) : Prop := (∀ x ∈ p, x < p.length) ∧ p.Nodup

/-- A strictly increasing choice of `w` of the numbers below `n` (R204). -/
def IsSubset (n w : Nat) (x : List Nat) : Prop := x.length = w ∧ x.Pairwise (· < ·) ∧ ∀ i ∈ x, i < n

/-- A binary64 encoding that is not NaN and whose sign bit is 0, as every reliability and metric is (R221, R226). -/
def NonNegative (x : F64) : Prop := isNaN x = false ∧ f64Sign x = false

end Sys2Proof
end

