-- ==== Sys2Proof/Certificates/Slice0/Obligations.lean ====
section
/-! DEFINITION. The statements for the provers: what the spec's numbered rules say the machine does. Each docstring says
which rule it formalises, or that it is the model's own. -/

open Sys2Proof Sys2Proof.Machine

/-! Encoding -/

/-- One word of each command, written out from the fields of R100 and the map of R104, decodes to that command. -/
def Obligations.WrittenWordsDecode : Prop :=
  decode 0x01100200#32 = .ok (.vadd 2 0 1) ∧ decode 0x02018E00#32 = .ok (.veq 6 7)
    ∧ decode 0x033CC000#32 = .ok (.vparse 7) ∧ decode 0x04292200#32 = .ok (.vmul 5 4 1)
    ∧ decode 0x108C5C00#32 = .ok (.gauss 1 1 2) ∧ decode 0x206B0000#32 = .ok (.pinv 1 0)
    ∧ decode 0x21731A00#32 = .ok (.papply (.p 2) 0 (.p 1)) ∧ decode 0x228C1A00#32 = .ok (.pcols 1 0 1)
    ∧ decode 0x30000000#32 = .ok .cinit ∧ decode 0x31000000#32 = .ok .cadv
    ∧ decode 0x40022000#32 = .ok (.decode 0 0 0)

/-- R100, R105: the decoder reads back every well-formed command from its word. -/
def Obligations.DecodeEncodeAgree : Prop :=
  ∀ i : Instr, i.wellFormed = true → decode (encode i) = .ok i

/-- R100, R107: each legal word stands for one command, whose word it is. -/
def Obligations.DecodedWordIsItsEncoding : Prop :=
  ∀ (w : Word) (i : Instr), decode w = .ok i → i.wellFormed = true ∧ encode i = w

/-- R105, R106, R107: a word is a legal command iff `rsv` is 0 and its opcode and fields stand in the table. The
fields are written as numbers here, without the decoder's own helpers. -/
def Obligations.LegalWordsAreTheTable : Prop :=
  ∀ w : Word,
    let op := w.toNat / 2 ^ 24
    let fd := w.toNat / 2 ^ 19 % 32
    let fa := w.toNat / 2 ^ 14 % 32
    let fb := w.toNat / 2 ^ 9 % 32
    (∃ i, decode w = .ok i) ↔
      w.toNat % 2 ^ 9 = 0 ∧
        ((op = 0x01 ∧ IsVId fd ∧ IsVId fa ∧ IsVId fb) ∨ (op = 0x02 ∧ fd = 0 ∧ IsVId fa ∧ IsVId fb)
          ∨ (op = 0x03 ∧ IsVId fd ∧ fa = 19 ∧ fb = 0) ∨ (op = 0x04 ∧ IsVId fd ∧ IsVId fa ∧ IsMId fb)
          ∨ (op = 0x10 ∧ IsMId fd ∧ IsMId fa ∧ IsPId fb) ∨ (op = 0x20 ∧ IsPId fd ∧ IsPId fa ∧ fb = 0)
          ∨ (op = 0x21 ∧ IsPId fa ∧ ((IsVId fd ∧ IsVId fb) ∨ (IsSId fd ∧ IsSId fb) ∨ (IsPId fd ∧ IsPId fb)))
          ∨ (op = 0x22 ∧ IsMId fd ∧ IsMId fa ∧ IsPId fb) ∨ (op = 0x30 ∧ fd = 0 ∧ fa = 0 ∧ fb = 0)
          ∨ (op = 0x31 ∧ fd = 0 ∧ fa = 0 ∧ fb = 0) ∨ (op = 0x40 ∧ IsVId fd ∧ IsSId fa ∧ IsMId fb))

/-- R103, R107: a word with a reserved opcode completes with `ILLEGAL_OPCODE`, any other illegal word with
`ILLEGAL_OPERAND`, and nothing but `ERR` and `BUSY` changes in the engine (the turn taken is the model's). -/
def Obligations.IllegalWordCompletesWithItsError : Prop :=
  let assigned : List Nat := [0x01, 0x02, 0x03, 0x04, 0x10, 0x20, 0x21, 0x22, 0x30, 0x31, 0x40]
  ∀ s : State, s.regs.busy = true → (nextTurn s).1 = .engine →
    (s.regs.pend.toNat / 2 ^ 24 ∉ assigned →
      step s = .next { s with
        regs := { s.regs with err := .illegalOpcode, busy := false }, turns := s.turns.tail }) ∧
    (s.regs.pend.toNat / 2 ^ 24 ∈ assigned → (∀ i, decode s.regs.pend ≠ .ok i) →
      step s = .next { s with
        regs := { s.regs with err := .illegalOperand, busy := false }, turns := s.turns.tail })

/-! The step -/

/-- R32, R86: in the engine's turn a busy engine completes its pending command, and that is all the step does but for
taking the turn. With no turn given (log 4) a busy engine comes first. -/
def Obligations.StepRunsPendingCommand : Prop :=
  ∀ (s : State) (i : Instr), s.regs.busy = true → decode s.regs.pend = .ok i →
    (∀ rest, s.turns = .engine :: rest → step s = exec i { s with turns := rest }) ∧
    (s.turns = [] → step s = exec i s)

/-- R30, R110: in the host's turn the host runs its line, and with no turn given it moves when the engine is idle
(log 4). A write line makes the write, a read line the read, and the host goes on to the next line; a read value is kept
under its name, if the line gives one. A branch on a value already read makes no access: it goes to the first line with
the label (the first, if several: log 12) when its condition holds, and on otherwise. -/
def Obligations.StepRunsOneHostLine : Prop :=
  ∀ (s : State) (l : HostLine), s.host.script[s.host.line]? = some l →
    (∀ rest, s.turns = .host :: rest → step s = .next (runHostLine { s with turns := rest } l.op)) ∧
    (s.turns = [] → s.regs.busy = false → step s = .next (runHostLine s l.op)) ∧
    (∀ addr width data, l.op = .wr addr width data →
      runHostLine s l.op = { hostWrite s addr width data with host := { s.host with line := s.host.line + 1 } }) ∧
    (∀ addr width, l.op = .rd addr width none →
      runHostLine s l.op = { (hostRead s addr width).2 with host := { s.host with line := s.host.line + 1 } }) ∧
    (∀ addr width name, l.op = .rd addr width (some name) →
      ∃ h : HostAgent, runHostLine s l.op = { (hostRead s addr width).2 with host := h }
        ∧ h.script = s.host.script ∧ h.line = s.host.line + 1
        ∧ h.value name = some (hostRead s addr width).1
        ∧ ∀ other, other ≠ name → h.value other = s.host.value other) ∧
    (∀ c target v, l.op = .ifGoto c target → s.host.value c.name = some v →
      let holds := v.toNat / 2 ^ c.lo % 2 ^ (c.hi + 1 - c.lo) = c.value.toNat ↔ c.equal = true
      (holds → ∀ (k : Nat) (m : HostLine), s.host.script[k]? = some m → m.label = some target →
        (∀ j n, j < k → s.host.script[j]? = some n → n.label ≠ some target) →
        runHostLine s l.op = { s with host := { s.host with line := k } }) ∧
      (¬ holds → runHostLine s l.op = { s with host := { s.host with line := s.host.line + 1 } }))

/-- R31, R274: an idle engine and a host at the end of its script have no step: their turn changes nothing. -/
def Obligations.StepWithNothingToDoChangesNothing : Prop :=
  ∀ s : State,
    (∀ rest, s.turns = .engine :: rest → s.regs.busy = false → step s = .next { s with turns := rest }) ∧
    (∀ rest, s.turns = .host :: rest → s.host.script.length ≤ s.host.line → step s = .next { s with turns := rest }) ∧
    (s.turns = [] → s.regs.busy = false → s.host.script.length ≤ s.host.line → step s = .next s)

/-- R290, R291: the platform's reset input and `CTRL.SRST`, at any time, both leave exactly the table of R290. -/
def Obligations.ResetLeavesTheTable : Prop :=
  let table := fun t : State =>
    (∀ i : VId, t.store.v[i] = []) ∧ (∀ i : SId, t.store.s[i] = []) ∧ (∀ i : PId, t.store.p[i] = [])
      ∧ (∀ i : MId, t.store.m[i].rowCount = 0 ∧ t.store.m[i].cols = 0)
      ∧ t.store.c.w = 0 ∧ t.store.c.n = 0 ∧ t.store.c.state = [0#32] ∧ t.store.b = []
      ∧ t.regs.busy = false ∧ t.regs.res = false ∧ t.regs.aerr = false ∧ t.regs.err = .ok
      ∧ t.regs.arg0 = 0#32 ∧ t.regs.arg1 = 0#32 ∧ t.regs.metric = 0#64
      ∧ t.regs.accObj = 0#5 ∧ t.regs.accPart = false ∧ t.regs.accIdx = 0#32 ∧ t.regs.pend = 0#32
      ∧ readReg t .id = (0x4F534445#32, t) ∧ readReg t .version = (1#32, t)
      ∧ readReg t .capN = (BitVec.ofNat 32 t.params.nMax, t) ∧ readReg t .capK = (BitVec.ofNat 32 t.params.kMax, t)
  ∀ s : State,
    (∀ rest, s.turns = .resetInput :: rest → ∃ t, step s = .next t ∧ table t ∧ t.params = s.params) ∧
    (∀ data : Word, data.getLsbD 0 = true →
      table (writeReg s .ctrl data) ∧ (writeReg s .ctrl data).params = s.params)

/-- R264: no state stops the engine, no access and no command word stops the machine. -/
def Obligations.StepNeverStops : Prop := ∀ s : State, ∃ t, step s = .next t

/-- R7, R33, R37, R39, R43, R45: from every state of the form the spec gives the machine, every step (of the host, of
the engine, of the reset input) leads to such a state, and leaves the hardwired parameters. -/
def Obligations.StepKeepsInvariant : Prop :=
  ∀ s t : State, s.wf → step s = .next t → t.wf ∧ t.params = s.params

/-- R59, R290: the machine after reset has the form the spec gives it. That the unknown parameters lie in the ranges
of R7 is how the model takes them (log 2). -/
def Obligations.ResetMeetsInvariant : Prop := State.reset.wf

/-- R32, R300: a pending command is completed, or dropped by a reset, once the turns given to others are used up (the
finite delay is the model's list of turns, log 4). -/
def Obligations.PendingCommandCompletes : Prop :=
  ∀ s : State, ∃ k t, k ≤ s.turns.length + 1 ∧ core.run k s = .next t ∧ t.regs.busy = false

/-! GF(2) vectors and matrices -/

/-- R132: `VADD` on two vectors of one length; on others, `LENGTH_MISMATCH`. -/
def Obligations.VaddResult : Prop :=
  OperandRule 0x01 (fun d a b => IsVId d ∧ IsVId a ∧ IsVId b)
    (fun d a b => .vadd (Fin.ofNat 8 d) (Fin.ofNat 8 a) (Fin.ofNat 8 b)) ∧
  ∀ (fd fa fb : VId) (s : State),
    (s.store.v[fa].length = s.store.v[fb].length →
      ∃ t, Succeeds (.vadd fd fa fb) s t ∧ t.store.v[fd].length = s.store.v[fa].length
        ∧ (∀ j, j < s.store.v[fa].length →
            t.store.v[fd].getD j false = xor (s.store.v[fa].getD j false) (s.store.v[fb].getD j false))
        ∧ t.regs.res = s.regs.res ∧ t.regs.metric = s.regs.metric ∧ KeepsAllBut [.v fd] s t) ∧
    (s.store.v[fa].length ≠ s.store.v[fb].length → FailsWith (.vadd fd fa fb) s .lengthMismatch)

/-- R133: `VEQ` on two vectors of one length writes `RES` and no object; on others, `LENGTH_MISMATCH`. -/
def Obligations.VeqResult : Prop :=
  OperandRule 0x02 (fun d a b => d = 0 ∧ IsVId a ∧ IsVId b)
    (fun _ a b => .veq (Fin.ofNat 8 a) (Fin.ofNat 8 b)) ∧
  ∀ (fa fb : VId) (s : State),
    (s.store.v[fa].length = s.store.v[fb].length →
      ∃ t, Succeeds (.veq fa fb) s t
        ∧ (t.regs.res = true ↔
            ∀ j, j < s.store.v[fa].length → s.store.v[fa].getD j false = s.store.v[fb].getD j false)
        ∧ t.regs.metric = s.regs.metric ∧ KeepsAllBut [] s t) ∧
    (s.store.v[fa].length ≠ s.store.v[fb].length → FailsWith (.veq fa fb) s .lengthMismatch)

/-- R134: `VPARSE` of a buffer of `'0'` and `'1'` characters; of any other, `INVALID_INPUT`. -/
def Obligations.VparseResult : Prop :=
  OperandRule 0x03 (fun d a b => IsVId d ∧ a = 19 ∧ b = 0)
    (fun d _ _ => .vparse (Fin.ofNat 8 d)) ∧
  ∀ (fd : VId) (s : State),
    ((∀ ch ∈ s.store.b, ch = 0x30#8 ∨ ch = 0x31#8) →
      ∃ t, Succeeds (.vparse fd) s t ∧ t.store.v[fd].length = s.store.b.length
        ∧ (∀ j, j < s.store.b.length →
            (t.store.v[fd].getD j false = true ↔ s.store.b.getD j 0#8 = 0x31#8))
        ∧ t.regs.res = s.regs.res ∧ t.regs.metric = s.regs.metric ∧ KeepsAllBut [.v fd] s t) ∧
    ((∃ ch ∈ s.store.b, ch ≠ 0x30#8 ∧ ch ≠ 0x31#8) → FailsWith (.vparse fd) s .invalidInput)

/-- R135: bit `c` of the product is the parity of the rows chosen by `v` that have a 1 in column `c`; a product whose
lengths do not fit ends with `LENGTH_MISMATCH`. -/
def Obligations.VmulResult : Prop :=
  OperandRule 0x04 (fun d a b => IsVId d ∧ IsVId a ∧ IsMId b)
    (fun d a b => .vmul (Fin.ofNat 8 d) (Fin.ofNat 8 a) (Fin.ofNat 2 (b - 16))) ∧
  ∀ (fd fa : VId) (fb : MId) (s : State), s.wf →
    (1 ≤ s.store.m[fb].rowCount → s.store.v[fa].length = s.store.m[fb].rowCount →
      ∃ t, Succeeds (.vmul fd fa fb) s t ∧ t.store.v[fd].length = s.store.m[fb].cols
        ∧ (∀ c, c < s.store.m[fb].cols →
            t.store.v[fd].getD c false = decide
              (((List.range s.store.m[fb].rowCount).countP fun i =>
                s.store.v[fa].getD i false && s.store.m[fb].entry i c) % 2 = 1))
        ∧ t.regs.res = s.regs.res ∧ t.regs.metric = s.regs.metric ∧ KeepsAllBut [.v fd] s t) ∧
    (s.store.m[fb].rowCount = 0 ∨ s.store.v[fa].length ≠ s.store.m[fb].rowCount →
      FailsWith (.vmul fd fa fb) s .lengthMismatch)

/-- The laws of addition on vectors of one length (40_gf2_vector_matrix.md section 3, R136, an inference the spec
marks as its own). -/
def Obligations.AddBitsLaws : Prop :=
  ∀ a b c : List Bool, a.length = b.length → b.length = c.length →
    addBits (addBits a b) c = addBits a (addBits b c) ∧ addBits a b = addBits b a
      ∧ addBits a a = List.replicate a.length false ∧ addBits (addBits a b) b = a

/-- Multiplication by a matrix is linear in the vector (40_gf2_vector_matrix.md section 3, R137, an inference the spec
marks as its own). -/
def Obligations.MultiplyIsLinear : Prop :=
  ∀ (u v : List Bool) (m : Matrix), 1 ≤ m.rowCount → u.length = m.rowCount → v.length = m.rowCount →
    (∀ row ∈ m.rows, row.length = m.cols) →
    multiply (addBits u v) m = addBits (multiply u m) (multiply v m)

/-! Elimination -/

/-- R161: `GAUSS` writes what the elimination of R160 gives, if it finds a pivot for each row; if not, it fails and
neither destination changes; an empty matrix is a `LENGTH_MISMATCH`. -/
def Obligations.GaussRunsTheElimination : Prop :=
  OperandRule 0x10 (fun d a b => IsMId d ∧ IsMId a ∧ IsPId b)
    (fun d a b => .gauss (Fin.ofNat 2 (d - 16)) (Fin.ofNat 2 (a - 16)) (Fin.ofNat 4 (b - 12))) ∧
  ∀ (fd fa : MId) (fb : PId) (s : State),
    (1 ≤ s.store.m[fa].rowCount → (gauss s.store.m[fa]).2.length = s.store.m[fa].rowCount →
      ∃ t, Succeeds (.gauss fd fa fb) s t ∧ t.store.m[fd] = (gauss s.store.m[fa]).1
        ∧ t.store.p[fb] = (gauss s.store.m[fa]).2.map (BitVec.ofNat 32)
        ∧ t.regs.res = s.regs.res ∧ t.regs.metric = s.regs.metric ∧ KeepsAllBut [.m fd, .p fb] s t) ∧
    (1 ≤ s.store.m[fa].rowCount → (gauss s.store.m[fa]).2.length < s.store.m[fa].rowCount →
      FailsWith (.gauss fd fa fb) s .rankDeficiency) ∧
    (s.store.m[fa].rowCount = 0 → FailsWith (.gauss fd fa fb) s .lengthMismatch)

/-- 41_gaussian_elimination.md sections 2 and 3 (R161, R162; R163 and R164 are inferences the spec marks as its own): on
a matrix of full row rank `GAUSS` succeeds; its pivots are strictly increasing columns, one for each row; each pivot
column is 1 in its own row only; each row is 0 in every column before its pivot, so the pivots are the leftmost ones and
the result is the reduced row-echelon form; and the reduced matrix generates the same code. -/
def Obligations.GaussReducesFullRowRank : Prop :=
  ∀ (fd fa : MId) (fb : PId) (s : State), s.wf → 1 ≤ s.store.m[fa].rowCount → RowsIndependent s.store.m[fa] →
    ∃ t, Succeeds (.gauss fd fa fb) s t
      ∧ t.store.m[fd].rowCount = s.store.m[fa].rowCount ∧ t.store.m[fd].cols = s.store.m[fa].cols
      ∧ (∀ row ∈ t.store.m[fd].rows, row.length = s.store.m[fa].cols)
      ∧ t.store.p[fb].length = s.store.m[fa].rowCount
      ∧ (indexNats t.store.p[fb]).Pairwise (· < ·)
      ∧ (∀ j ∈ indexNats t.store.p[fb], j < s.store.m[fa].cols)
      ∧ (∀ p i, p < s.store.m[fa].rowCount → i < s.store.m[fa].rowCount →
          t.store.m[fd].entry i ((indexNats t.store.p[fb]).getD p 0) = decide (i = p))
      ∧ (∀ p j, p < s.store.m[fa].rowCount → j < (indexNats t.store.p[fb]).getD p 0 → t.store.m[fd].entry p j = false)
      ∧ (∀ c, IsCodeword t.store.m[fd] c ↔ IsCodeword s.store.m[fa] c)

/-- R161, R165: on a matrix whose rows are dependent `GAUSS` ends with `RANK_DEFICIENCY` and writes nothing. -/
def Obligations.GaussRefusesDependentRows : Prop :=
  ∀ (fd fa : MId) (fb : PId) (s : State), s.wf → 1 ≤ s.store.m[fa].rowCount → ¬ RowsIndependent s.store.m[fa] →
    FailsWith (.gauss fd fa fb) s .rankDeficiency

/-- 41_gaussian_elimination.md section 3 (R163, an inference the spec marks as its own): with the reduced matrix of a
full-rank elimination, a product carries the vector at the pivot columns. -/
def Obligations.PivotColumnsCarryTheVector : Prop :=
  ∀ (m : Matrix) (u : List Bool), (∀ row ∈ m.rows, row.length = m.cols) →
    (gauss m).2.length = m.rowCount → u.length = m.rowCount →
    ∀ p, p < m.rowCount → (multiply u (gauss m).1).getD ((gauss m).2.getD p 0) false = u.getD p false

/-! Permutations -/

/-- R182: `PINV` of a permutation, `q[p[i]] = i` for all `i`; of any other sequence, `INVALID_PERMUTATION`. -/
def Obligations.PinvResult : Prop :=
  OperandRule 0x20 (fun d a b => IsPId d ∧ IsPId a ∧ b = 0)
    (fun d a _ => .pinv (Fin.ofNat 4 (d - 12)) (Fin.ofNat 4 (a - 12))) ∧
  ∀ (fd fa : PId) (s : State), s.wf →
    (IsPermutation (indexNats s.store.p[fa]) →
      ∃ t, Succeeds (.pinv fd fa) s t ∧ t.store.p[fd].length = s.store.p[fa].length
        ∧ (∀ i, i < s.store.p[fa].length →
            t.store.p[fd][((indexNats s.store.p[fa]).getD i 0)]? = some (BitVec.ofNat 32 i))
        ∧ t.regs.res = s.regs.res ∧ t.regs.metric = s.regs.metric ∧ KeepsAllBut [.p fd] s t) ∧
    (¬ IsPermutation (indexNats s.store.p[fa]) → FailsWith (.pinv fd fa) s .invalidPermutation)

/-- R183: `PAPPLY` in each of its three forms, by a permutation of the sequence's length: `result[perm[i]] = seq[i]`,
every element moved unchanged. The length is checked first, then the bijection; two operands of different classes are
an illegal operand. -/
def Obligations.PapplyResult : Prop :=
  let operand := fun x : Nat =>
    if x ≤ 7 then SeqRef.v (Fin.ofNat 8 x) else if x ≤ 11 then .s (Fin.ofNat 4 (x - 8)) else .p (Fin.ofNat 4 (x - 12))
  OperandRule 0x21
    (fun d a b => IsPId a ∧ ((IsVId d ∧ IsVId b) ∨ (IsSId d ∧ IsSId b) ∨ (IsPId d ∧ IsPId b)))
    (fun d a b => .papply (operand d) (Fin.ofNat 4 (a - 12)) (operand b)) ∧
  ∀ (fa : PId) (s : State),
    (∀ d q : VId,
      (s.store.p[fa].length = s.store.v[q].length → IsPermutation (indexNats s.store.p[fa]) →
        ∃ t, Succeeds (.papply (.v d) fa (.v q)) s t ∧ t.store.v[d].length = s.store.v[q].length
          ∧ (∀ i, i < s.store.v[q].length →
              t.store.v[d][((indexNats s.store.p[fa]).getD i 0)]? = s.store.v[q][i]?)
          ∧ t.regs.res = s.regs.res ∧ t.regs.metric = s.regs.metric ∧ KeepsAllBut [.v d] s t) ∧
      (s.store.p[fa].length ≠ s.store.v[q].length → FailsWith (.papply (.v d) fa (.v q)) s .lengthMismatch) ∧
      (s.store.p[fa].length = s.store.v[q].length → ¬ IsPermutation (indexNats s.store.p[fa]) →
        FailsWith (.papply (.v d) fa (.v q)) s .invalidPermutation)) ∧
    (∀ d q : SId,
      (s.store.p[fa].length = s.store.s[q].length → IsPermutation (indexNats s.store.p[fa]) →
        ∃ t, Succeeds (.papply (.s d) fa (.s q)) s t ∧ t.store.s[d].length = s.store.s[q].length
          ∧ (∀ i, i < s.store.s[q].length →
              t.store.s[d][((indexNats s.store.p[fa]).getD i 0)]? = s.store.s[q][i]?)
          ∧ t.regs.res = s.regs.res ∧ t.regs.metric = s.regs.metric ∧ KeepsAllBut [.s d] s t) ∧
      (s.store.p[fa].length ≠ s.store.s[q].length → FailsWith (.papply (.s d) fa (.s q)) s .lengthMismatch) ∧
      (s.store.p[fa].length = s.store.s[q].length → ¬ IsPermutation (indexNats s.store.p[fa]) →
        FailsWith (.papply (.s d) fa (.s q)) s .invalidPermutation)) ∧
    (∀ d q : PId,
      (s.store.p[fa].length = s.store.p[q].length → IsPermutation (indexNats s.store.p[fa]) →
        ∃ t, Succeeds (.papply (.p d) fa (.p q)) s t ∧ t.store.p[d].length = s.store.p[q].length
          ∧ (∀ i, i < s.store.p[q].length →
              t.store.p[d][((indexNats s.store.p[fa]).getD i 0)]? = s.store.p[q][i]?)
          ∧ t.regs.res = s.regs.res ∧ t.regs.metric = s.regs.metric ∧ KeepsAllBut [.p d] s t) ∧
      (s.store.p[fa].length ≠ s.store.p[q].length → FailsWith (.papply (.p d) fa (.p q)) s .lengthMismatch) ∧
      (s.store.p[fa].length = s.store.p[q].length → ¬ IsPermutation (indexNats s.store.p[fa]) →
        FailsWith (.papply (.p d) fa (.p q)) s .invalidPermutation)) ∧
    (∀ fd fb : SeqRef, fd.objClass ≠ fb.objClass → FailsWith (.papply fd fa fb) s .illegalOperand)

/-- R184: `PCOLS` permutes every row of a matrix, and copies an empty matrix without looking at the permutation; the
length is checked first, then the bijection. -/
def Obligations.PcolsResult : Prop :=
  OperandRule 0x22 (fun d a b => IsMId d ∧ IsMId a ∧ IsPId b)
    (fun d a b => .pcols (Fin.ofNat 2 (d - 16)) (Fin.ofNat 2 (a - 16)) (Fin.ofNat 4 (b - 12))) ∧
  ∀ (fd fa : MId) (fb : PId) (s : State), s.wf →
    (1 ≤ s.store.m[fa].rowCount → s.store.p[fb].length = s.store.m[fa].cols →
      IsPermutation (indexNats s.store.p[fb]) →
      ∃ t, Succeeds (.pcols fd fa fb) s t
        ∧ t.store.m[fd].rowCount = s.store.m[fa].rowCount ∧ t.store.m[fd].cols = s.store.m[fa].cols
        ∧ (∀ row ∈ t.store.m[fd].rows, row.length = s.store.m[fa].cols)
        ∧ (∀ r i, r < s.store.m[fa].rowCount → i < s.store.m[fa].cols →
            t.store.m[fd].entry r ((indexNats s.store.p[fb]).getD i 0) = s.store.m[fa].entry r i)
        ∧ t.regs.res = s.regs.res ∧ t.regs.metric = s.regs.metric ∧ KeepsAllBut [.m fd] s t) ∧
    (s.store.m[fa].rowCount = 0 →
      ∃ t, Succeeds (.pcols fd fa fb) s t ∧ t.store.m[fd] = s.store.m[fa]
        ∧ t.regs.res = s.regs.res ∧ t.regs.metric = s.regs.metric ∧ KeepsAllBut [.m fd] s t) ∧
    (1 ≤ s.store.m[fa].rowCount → s.store.p[fb].length ≠ s.store.m[fa].cols →
      FailsWith (.pcols fd fa fb) s .lengthMismatch) ∧
    (1 ≤ s.store.m[fa].rowCount → s.store.p[fb].length = s.store.m[fa].cols →
      ¬ IsPermutation (indexNats s.store.p[fb]) → FailsWith (.pcols fd fa fb) s .invalidPermutation)

/-- Applying a permutation and its inverse, in either order, is the identity; the inverse is a permutation, and its
inverse is the permutation again (42_permutation.md section 3, R185, an inference the spec marks as its own). -/
def Obligations.PermutationRoundTrip : Prop :=
  ∀ (α : Type) (p : List Nat) (x : List α), IsPermutation p → x.length = p.length →
    applyPerm (invert p) (applyPerm p x) = x ∧ applyPerm p (applyPerm (invert p) x) = x
      ∧ invert (invert p) = p ∧ bij (invert p) = true

/-! The enumerator -/

/-- R200: `CINIT` with `w ≤ n ≤ N_MAX` writes the first combination and its sentinel; otherwise `ARG_RANGE`. -/
def Obligations.CinitResult : Prop :=
  OperandRule 0x30 (fun d a b => d = 0 ∧ a = 0 ∧ b = 0)
    (fun _ _ _ => .cinit) ∧
  ∀ s : State,
    (s.regs.arg1.toNat ≤ s.params.nMax → s.regs.arg0.toNat ≤ s.regs.arg1.toNat →
      ∃ t, Succeeds .cinit s t ∧ t.store.c.w = s.regs.arg0.toNat ∧ t.store.c.n = s.regs.arg1.toNat
        ∧ t.store.c.state.length = s.regs.arg0.toNat + 1
        ∧ (∀ i, i < s.regs.arg0.toNat → t.store.c.state.getD i 0#32 = BitVec.ofNat 32 i)
        ∧ t.store.c.state.getD s.regs.arg0.toNat 0#32 = s.regs.arg1
        ∧ t.regs.res = s.regs.res ∧ t.regs.metric = s.regs.metric ∧ KeepsAllBut [.c] s t) ∧
    (s.params.nMax < s.regs.arg1.toNat ∨ s.regs.arg1.toNat < s.regs.arg0.toNat → FailsWith .cinit s .argRange)

/-- R201: `CADV` bumps the rightmost place with a gap, sets the places to its right to consecutive values and answers
1; with no gap anywhere it answers 0 and leaves `C`. -/
def Obligations.CadvResult : Prop :=
  OperandRule 0x31 (fun d a b => d = 0 ∧ a = 0 ∧ b = 0)
    (fun _ _ _ => .cadv) ∧
  ∀ s : State, s.store.c.state.length = s.store.c.w + 1 →
    (∀ g, g < s.store.c.w → s.store.c.state.getD g 0#32 + 1#32 ≠ s.store.c.state.getD (g + 1) 0#32 →
      (∀ i, g < i → i < s.store.c.w → s.store.c.state.getD i 0#32 + 1#32 = s.store.c.state.getD (i + 1) 0#32) →
      ∃ t, Succeeds .cadv s t ∧ t.regs.res = true ∧ t.store.c.w = s.store.c.w ∧ t.store.c.n = s.store.c.n
        ∧ t.store.c.state.length = s.store.c.w + 1
        ∧ (∀ i, i < g → t.store.c.state.getD i 0#32 = s.store.c.state.getD i 0#32)
        ∧ (∀ i, g ≤ i → i < s.store.c.w →
            t.store.c.state.getD i 0#32 = s.store.c.state.getD g 0#32 + 1#32 + BitVec.ofNat 32 (i - g))
        ∧ t.store.c.state.getD s.store.c.w 0#32 = s.store.c.state.getD s.store.c.w 0#32
        ∧ t.regs.metric = s.regs.metric ∧ KeepsAllBut [.c] s t) ∧
    ((∀ i, i < s.store.c.w → s.store.c.state.getD i 0#32 + 1#32 = s.store.c.state.getD (i + 1) 0#32) →
      ∃ t, Succeeds .cadv s t ∧ t.regs.res = false ∧ t.regs.metric = s.regs.metric ∧ KeepsAllBut [] s t)

/-- R204 (its binomial count is an inference the spec marks as its own): after `CINIT` the combinations read after
each `CADV` are all size-`w` subsets, each once, in lexicographic order; the first `CADV` that answers 0 is the one
numbered by the binomial coefficient, and every later one answers 0 and leaves the last combination. -/
def Obligations.EnumerationVisitsEverySubsetInOrder : Prop :=
  ∀ s : State, s.params.nMax ≤ 65535 → s.regs.arg1.toNat ≤ s.params.nMax →
    s.regs.arg0.toNat ≤ s.regs.arg1.toNat →
    ∃ seq : List (List Nat),
      seq.length = Nat.choose s.regs.arg1.toNat s.regs.arg0.toNat
        ∧ seq.Pairwise (· < ·)
        ∧ (∀ x, x ∈ seq ↔ IsSubset s.regs.arg1.toNat s.regs.arg0.toNat x)
        ∧ (∀ j x, seq[j]? = some x →
            ∃ t, runCommands (.cinit :: List.replicate j .cadv) s = some t ∧ t.regs.err = .ok
              ∧ indexNats (t.store.c.state.take s.regs.arg0.toNat) = x ∧ (0 < j → t.regs.res = true))
        ∧ (∀ j, seq.length ≤ j →
            ∃ t, runCommands (.cinit :: List.replicate j .cadv) s = some t ∧ t.regs.err = .ok
              ∧ seq.getLast? = some (indexNats (t.store.c.state.take s.regs.arg0.toNat)) ∧ t.regs.res = false)

/-! The decoder -/

/-- R230: `DECODE`'s checks in their order, and, when they pass, its seven steps composed (R221–R228); it writes its
destination and `METRIC` and nothing else. -/
def Obligations.DecodeRunsTheSevenSteps : Prop :=
  OperandRule 0x40 (fun d a b => IsVId d ∧ IsSId a ∧ IsMId b)
    (fun d a b => .decode (Fin.ofNat 8 d) (Fin.ofNat 4 (a - 8)) (Fin.ofNat 2 (b - 16))) ∧
  ∀ (fd : VId) (fa : SId) (fb : MId) (s : State),
    (s.store.m[fb].rowCount = 0 → FailsWith (.decode fd fa fb) s .lengthMismatch) ∧
    (1 ≤ s.store.m[fb].rowCount → s.store.s[fa].length ≠ s.store.m[fb].cols →
      FailsWith (.decode fd fa fb) s .lengthMismatch) ∧
    (1 ≤ s.store.m[fb].rowCount → s.store.s[fa].length = s.store.m[fb].cols →
      (∃ x ∈ s.store.s[fa], isNaN x = true) → FailsWith (.decode fd fa fb) s .badReal) ∧
    (1 ≤ s.store.m[fb].rowCount → s.store.s[fa].length = s.store.m[fb].cols →
      (∀ x ∈ s.store.s[fa], isNaN x = false) →
      let alpha := s.store.s[fa].map lt0
      let beta := s.store.s[fa].map fabs
      let ipi := reliabilityOrder beta
      let pi := invert ipi
      let reduced := gauss (permuteColumns s.store.m[fb] pi)
      let info := reduced.2.map fun c => (applyPerm pi alpha).getD c false
      let best := search info reduced.1 (applyPerm pi alpha) (applyPerm pi beta) s.regs.arg0.toNat
      (reduced.2.length < s.store.m[fb].rowCount → FailsWith (.decode fd fa fb) s .rankDeficiency) ∧
      (reduced.2.length = s.store.m[fb].rowCount →
        ∃ t, Succeeds (.decode fd fa fb) s t ∧ t.store.v[fd] = applyPerm ipi best.1 ∧ t.regs.metric = best.2
          ∧ t.regs.res = s.regs.res ∧ KeepsAllBut [.v fd] s t))

/-- 44_osd_decoder.md sections 2 and 3 (R231 is an inference the spec marks as its own): on a full-rank generator
matrix and samples of its length without a NaN, `DECODE` succeeds with a codeword of the code; its metric is no NaN
and no negative value. -/
def Obligations.DecodeAnswersACodeword : Prop :=
  ∀ (fd : VId) (fa : SId) (fb : MId) (s : State), s.wf → 1 ≤ s.store.m[fb].rowCount →
    s.store.s[fa].length = s.store.m[fb].cols → (∀ x ∈ s.store.s[fa], isNaN x = false) →
    RowsIndependent s.store.m[fb] →
    ∃ t, Succeeds (.decode fd fa fb) s t ∧ IsCodeword s.store.m[fb] t.store.v[fd]
      ∧ t.store.v[fd].length = s.store.m[fb].cols ∧ NonNegative t.regs.metric
      ∧ t.regs.res = s.regs.res ∧ KeepsAllBut [.v fd] s t

/-- R165, R230: on a generator matrix whose rows are dependent, with every earlier check passed, `DECODE` ends with
`RANK_DEFICIENCY`. -/
def Obligations.DecodeRefusesDependentRows : Prop :=
  ∀ (fd : VId) (fa : SId) (fb : MId) (s : State), s.wf → 1 ≤ s.store.m[fb].rowCount →
    s.store.s[fa].length = s.store.m[fb].cols → (∀ x ∈ s.store.s[fa], isNaN x = false) →
    ¬ RowsIndependent s.store.m[fb] → FailsWith (.decode fd fa fb) s .rankDeficiency

/-- 44_osd_decoder.md section 3 (R232, an inference the spec marks as its own): if the hard decisions are a codeword,
`DECODE` returns them with metric `+0.0`, for every `w_max`. -/
def Obligations.DecodeNoiselessIsIdempotent : Prop :=
  ∀ (fd : VId) (fa : SId) (fb : MId) (s : State), s.wf → 1 ≤ s.store.m[fb].rowCount →
    s.store.s[fa].length = s.store.m[fb].cols → (∀ x ∈ s.store.s[fa], isNaN x = false) →
    RowsIndependent s.store.m[fb] → IsCodeword s.store.m[fb] (s.store.s[fa].map lt0) →
    ∃ t, Succeeds (.decode fd fa fb) s t ∧ t.store.v[fd] = s.store.s[fa].map lt0 ∧ t.regs.metric = 0#64

/-- 44_osd_decoder.md section 3 (R233, an inference the spec marks as its own): with a larger `w_max` the candidates
scored before are scored first, the metric is never greater, and the output changes only for a strictly smaller
metric. -/
def Obligations.DecodeIsMonotoneInTheWeight : Prop :=
  ∀ (fd : VId) (fa : SId) (fb : MId) (s t1 t2 : State) (w1 w2 : Word), w1.toNat ≤ w2.toNat →
    Succeeds (.decode fd fa fb) { s with regs := { s.regs with arg0 := w1 } } t1 →
    Succeeds (.decode fd fa fb) { s with regs := { s.regs with arg0 := w2 } } t2 →
    List.IsPrefix (searchSubsets s.store.m[fb].rowCount w1.toNat) (searchSubsets s.store.m[fb].rowCount w2.toNat)
      ∧ flt t1.regs.metric t2.regs.metric = false
      ∧ (t2.store.v[fd] ≠ t1.store.v[fd] → flt t2.regs.metric t1.regs.metric = true)

/-- R226, R230: `METRIC` is the sum, over the positions in order of reliability, of the reliabilities where the answer
disagrees with the hard decision, each addition rounded. It is said here in original positions. -/
def Obligations.DecodeMetricSumsDisagreements : Prop :=
  ∀ (fd : VId) (fa : SId) (fb : MId) (s t : State), s.wf → Succeeds (.decode fd fa fb) s t →
    t.regs.metric = (reliabilityOrder (s.store.s[fa].map fabs)).foldl
      (fun m i => if t.store.v[fd].getD i false ≠ lt0 (s.store.s[fa].getD i 0#64)
        then fadd m (fabs (s.store.s[fa].getD i 0#64)) else m) 0#64

/-- R230: with `w_max ≥ k` the search is exhaustive: no codeword has a lower metric than the answer. -/
def Obligations.DecodeExhaustiveIsMaximumLikelihood : Prop :=
  ∀ (fd : VId) (fa : SId) (fb : MId) (s t : State), s.wf → s.store.m[fb].rowCount ≤ s.regs.arg0.toNat →
    Succeeds (.decode fd fa fb) s t →
    ∀ c, IsCodeword s.store.m[fb] c →
      flt ((reliabilityOrder (s.store.s[fa].map fabs)).foldl
        (fun m i => if c.getD i false ≠ lt0 (s.store.s[fa].getD i 0#64)
          then fadd m (fabs (s.store.s[fa].getD i 0#64)) else m) 0#64) t.regs.metric = false

/-- R222: the reliability order holds every index once, strictly more reliable first, and of two equally reliable the
lower index first; its inverse gives each position its rank. -/
def Obligations.ReliabilityOrderIsSorted : Prop :=
  ∀ x : List F64, (∀ a ∈ x, isNaN a = false) →
    (reliabilityOrder (reliabilities x)).length = x.length
      ∧ IsPermutation (reliabilityOrder (reliabilities x))
      ∧ (reliabilityOrder (reliabilities x)).Pairwise (fun i j =>
          flt (fabs (x.getD j 0#64)) (fabs (x.getD i 0#64)) = true
            ∨ (feq (fabs (x.getD i 0#64)) (fabs (x.getD j 0#64)) = true ∧ i < j))
      ∧ ∀ r, r < x.length →
          (invert (reliabilityOrder (reliabilities x)))[((reliabilityOrder (reliabilities x)).getD r 0)]? = some r

/-- How many candidates one `DECODE` scores (44_osd_decoder.md section 3, R234, an inference the spec marks as its
own). -/
def Obligations.SearchWorkCount : Prop :=
  ∀ k wMax : Nat, k ≤ 65535 →
    (searchSubsets k wMax).length = ((List.range (min wMax k + 1)).map (Nat.choose k)).sum

/-- R227: the search answers the earliest of the candidates of least metric. -/
def Obligations.SearchKeepsEarliestMinimum : Prop :=
  ∀ (info : List Bool) (g : Matrix) (alpha : List Bool) (beta : List F64) (wMax : Nat),
    (∀ b ∈ beta, NonNegative b) →
    ∃ (i : Nat) (p : List Nat), (searchSubsets g.rowCount wMax)[i]? = some p
      ∧ search info g alpha beta wMax = scoreCandidate info g alpha beta p
      ∧ ∀ (j : Nat) (q : List Nat), (searchSubsets g.rowCount wMax)[j]? = some q →
          flt (scoreCandidate info g alpha beta q).2 (search info g alpha beta wMax).2 = false
            ∧ (j < i → flt (search info g alpha beta wMax).2 (scoreCandidate info g alpha beta q).2 = true)

/-- R226: a metric of reliabilities is never a NaN and never negative, so never `-0.0`. -/
def Obligations.MetricIsNonNegative : Prop :=
  ∀ (cand alpha : List Bool) (beta : List F64), (∀ b ∈ beta, NonNegative b) → NonNegative (metric cand alpha beta)

/-- 44_osd_decoder.md section 3 (R235, which the spec marks as general knowledge): on encodings with sign bit 0 that
are not NaN, the order of IEEE 754 is the order of the encodings. -/
def Obligations.NonNegativeOrderByEncoding : Prop :=
  ∀ x y : F64, NonNegative x → NonNegative y →
    (flt x y = true ↔ x.toNat < y.toNat) ∧ (feq x y = true ↔ x = y)

/-- R13, whose IEEE 754 arithmetic is general knowledge (PRESUMED, log 10): the sum of two finite encodings is rounded
to nearest, ties to even: no finite encoding is closer to the exact sum, one as close has the same value or the answer's
last bit is 0, and it overflows to an infinity exactly when the exact sum is at least half a unit beyond the largest
finite value. An exact sum of 0 is negative only for two negative zeros. An infinity stays as it is under every addend
but a NaN and the opposite infinity, which give a NaN (which NaN is free: log 6). Exact values count units of
2^-1074. -/
def Obligations.FaddRoundsToNearestEven : Prop :=
  ∀ x y : F64,
    (isNaN x = false → isInf x = false → isNaN y = false → isInf y = false →
      isNaN (fadd x y) = false
        ∧ (isInf (fadd x y) = true ↔ (2 ^ 54 - 1) * 2 ^ 2044 ≤ (f64Exact x + f64Exact y).natAbs)
        ∧ (f64Exact x + f64Exact y ≠ 0 → f64Sign (fadd x y) = decide (f64Exact x + f64Exact y < 0))
        ∧ (f64Exact x + f64Exact y = 0 → f64Sign (fadd x y) = (f64Sign x && f64Sign y))
        ∧ (isInf (fadd x y) = false → ∀ r : F64, isNaN r = false → isInf r = false →
            (f64Exact (fadd x y) - (f64Exact x + f64Exact y)).natAbs ≤ (f64Exact r - (f64Exact x + f64Exact y)).natAbs
              ∧ ((f64Exact r - (f64Exact x + f64Exact y)).natAbs
                    = (f64Exact (fadd x y) - (f64Exact x + f64Exact y)).natAbs →
                  f64Exact r = f64Exact (fadd x y) ∨ (fadd x y).getLsbD 0 = false))) ∧
    (isInf x = true → isNaN y = false → (isInf y = true → f64Sign y = f64Sign x) → fadd x y = x) ∧
    (isInf y = true → isNaN x = false → (isInf x = true → f64Sign x = f64Sign y) → fadd x y = y) ∧
    (isNaN x = true ∨ isNaN y = true ∨ (isInf x = true ∧ isInf y = true ∧ f64Sign x ≠ f64Sign y) →
      isNaN (fadd x y) = true)

/-! All commands -/

/-- R261: a command that ends with an error changes nothing but `ERR` and `BUSY`. -/
def Obligations.FailedCommandChangesNothing : Prop :=
  ∀ (i : Instr) (s t : State), exec i s = .next t → t.regs.err ≠ .ok →
    t = { s with regs := { s.regs with err := t.regs.err, busy := false } }

/-- R49, R56, R263: at its completion a command leaves the engine idle and `AERR` as it was; only `VEQ` and `CADV`
change `RES`, only `DECODE` changes `METRIC`. -/
def Obligations.CommandsWriteOnlyTheirFlags : Prop :=
  ∀ (i : Instr) (s t : State), exec i s = .next t →
    t.regs.busy = false ∧ t.regs.aerr = s.regs.aerr
      ∧ (t.regs.res ≠ s.regs.res → (∃ a b, i = .veq a b) ∨ i = .cadv)
      ∧ (t.regs.metric ≠ s.regs.metric → ∃ d a b, i = .decode d a b)

/-- R38, R39, R57: a command changes no object but the destinations it names (`CINIT` and `CADV`: `C`), and nothing of
the registers, the parameters, the host or the interleaving that it does not write. -/
def Obligations.CommandsChangeOnlyTheirDestinations : Prop :=
  let dests : Instr → List ObjRef := fun i =>
    match i with
    | .vadd d _ _ => [.v d]
    | .veq _ _ => []
    | .vparse d => [.v d]
    | .vmul d _ _ => [.v d]
    | .gauss d _ q => [.m d, .p q]
    | .pinv d _ => [.p d]
    | .papply d _ _ => [d.toObj]
    | .pcols d _ _ => [.m d]
    | .cinit => [.c]
    | .cadv => [.c]
    | .decode d _ _ => [.v d]
  ∀ (i : Instr) (s t : State), exec i s = .next t → KeepsAllBut (dests i) s t

/-! The host's side -/

/-- R45, R260: the fields of `STATUS` and the codes of `ERR`; every other bit reads 0. -/
def Obligations.StatusWordLayout : Prop :=
  ∀ r : Regs,
    r.status.getLsbD 0 = r.busy ∧ r.status.getLsbD 1 = r.res ∧ r.status.getLsbD 2 = r.aerr
      ∧ (∀ i, 3 ≤ i → i ≤ 7 → r.status.getLsbD i = false)
      ∧ (∀ i, 12 ≤ i → r.status.getLsbD i = false)
      ∧ r.status.toNat / 2 ^ 8 = r.err.code.toNat
      ∧ [ErrCode.ok, .illegalOpcode, .illegalOperand, .argRange, .lengthMismatch, .invalidInput, .invalidPermutation,
          .badReal, .rankDeficiency][r.err.code.toNat]? = some r.err

/-- R42, R43, R45, R46, R49, R53: the read-only registers and the reserved offsets ignore a write and set `AERR`; the
identity and capacity registers read their hardwired values; the reserved offsets read 0 and set `AERR`. `STATUS` reads
its fields in every state and, when idle, `METRIC_LO` and `METRIC_HI` read the halves of `METRIC`, with no effect. -/
def Obligations.ReadOnlyRegisters : Prop :=
  ∀ (s : State) (data : Word),
    (∀ r ∈ [Reg.id, .version, .capN, .capK, .status, .metricLo, .metricHi, .reserved38, .reserved3C],
      writeReg s r data = { s with regs := { s.regs with aerr := true } }) ∧
    readReg s .id = (0x4F534445#32, s) ∧ readReg s .version = (1#32, s)
      ∧ readReg s .capN = (BitVec.ofNat 32 s.params.nMax, s) ∧ readReg s .capK = (BitVec.ofNat 32 s.params.kMax, s)
      ∧ (∀ r ∈ [Reg.reserved38, .reserved3C],
          readReg s r = (0#32, { s with regs := { s.regs with aerr := true } }))
      ∧ readReg s .status = (s.regs.status, s)
      ∧ (s.regs.busy = false →
          readReg s .metricLo = (s.regs.metric.extractLsb' 0 32, s)
            ∧ readReg s .metricHi = (s.regs.metric.extractLsb' 32 32, s))

/-- R47: a `CMD` write issues its word when the engine is idle and is dropped, with `AERR`, when it is busy; `CMD`
reads 0. -/
def Obligations.CmdWriteIssues : Prop :=
  ∀ (s : State) (v : Word),
    (s.regs.busy = false →
      writeReg s .cmd v = { s with regs := { s.regs with pend := v, busy := true, err := .ok } }
        ∧ (readReg (writeReg s .cmd v) .status).1.getLsbD 0 = true) ∧
    (s.regs.busy = true → writeReg s .cmd v = { s with regs := { s.regs with aerr := true } }) ∧
    readReg s .cmd = (0#32, s)

/-- R44: the two actions of `CTRL`, taken whether or not the engine is busy; its other bits are ignored; it reads 0. -/
def Obligations.CtrlWriteActs : Prop :=
  ∀ (s : State) (data : Word),
    (data.getLsbD 0 = true →
      writeReg s .ctrl data = { s with store := State.reset.store, regs := State.reset.regs }) ∧
    (data.getLsbD 0 = false → data.getLsbD 1 = true →
      writeReg s .ctrl data = { s with regs := { s.regs with aerr := false } }) ∧
    (data.getLsbD 0 = false → data.getLsbD 1 = false → writeReg s .ctrl data = s) ∧
    readReg s .ctrl = (0#32, s)

/-- R46, R49, R51, R52, R295: while a command is pending, the six writable registers drop a write and set `AERR`; an
`ACC_DATA` read answers a free value, sets `AERR` and leaves `ACC_IDX`; a `METRIC` read answers a free value; the other
registers read as they do when idle, and `CTRL` takes its writes. -/
def Obligations.BusyWindow : Prop :=
  ∀ (s : State) (data : Word), s.regs.busy = true →
    (∀ r ∈ [Reg.cmd, .arg0, .arg1, .accSel, .accIdx, .accData],
      writeReg s r data = { s with regs := { s.regs with aerr := true } }) ∧
    readReg s .accData =
        (Config.draw s.draws, { s with regs := { s.regs with aerr := true }, draws := s.draws + 1 })
      ∧ readReg s .metricLo = (Config.draw s.draws, { s with draws := s.draws + 1 })
      ∧ readReg s .metricHi = (Config.draw s.draws, { s with draws := s.draws + 1 })
      ∧ readReg s .status = (s.regs.status, s) ∧ readReg s .arg0 = (s.regs.arg0, s)
      ∧ readReg s .arg1 = (s.regs.arg1, s) ∧ readReg s .accIdx = (s.regs.accIdx, s)
      ∧ readReg s .accSel = (s.regs.accSel, s)
      ∧ readReg s .id = (0x4F534445#32, s) ∧ readReg s .version = (1#32, s)
      ∧ readReg s .capN = (BitVec.ofNat 32 s.params.nMax, s) ∧ readReg s .capK = (BitVec.ofNat 32 s.params.kMax, s)
      ∧ writeReg s .ctrl 1#32 = { s with store := State.reset.store, regs := State.reset.regs }
      ∧ writeReg s .ctrl 2#32 = { s with regs := { s.regs with aerr := false } }

/-- R86, R298: no step of the host changes a pending command, its arguments, the objects or the results, unless it
resets the engine. -/
def Obligations.HostCannotDisturbPendingCommand : Prop :=
  ∀ s : State, s.regs.busy = true →
    ((hostStep s).store = State.reset.store ∧ (hostStep s).regs = State.reset.regs) ∨
    ((hostStep s).store = s.store ∧ (hostStep s).regs.busy = true ∧ (hostStep s).regs.pend = s.regs.pend
      ∧ (hostStep s).regs.arg0 = s.regs.arg0 ∧ (hostStep s).regs.arg1 = s.regs.arg1
      ∧ (hostStep s).regs.res = s.regs.res ∧ (hostStep s).regs.err = s.regs.err
      ∧ (hostStep s).regs.metric = s.regs.metric ∧ (hostStep s).regs.accObj = s.regs.accObj
      ∧ (hostStep s).regs.accPart = s.regs.accPart ∧ (hostStep s).regs.accIdx = s.regs.accIdx)

/-- R48, R50, R51: idle writes of `ARG0`, `ARG1`, `ACC_SEL` and `ACC_IDX` read back, `ACC_SEL` without its reserved
bits, and change nothing else. -/
def Obligations.IdleRegisterWritesReadBack : Prop :=
  ∀ (s : State) (data : Word), s.regs.busy = false →
    readReg (writeReg s .arg0 data) .arg0 = (data, { s with regs := { s.regs with arg0 := data } })
      ∧ readReg (writeReg s .arg1 data) .arg1 = (data, { s with regs := { s.regs with arg1 := data } })
      ∧ readReg (writeReg s .accIdx data) .accIdx = (data, { s with regs := { s.regs with accIdx := data } })
      ∧ (readReg (writeReg s .accSel data) .accSel).1 = data &&& 0x11F#32
      ∧ ∃ o p, writeReg s .accSel data = { s with regs := { s.regs with accObj := o, accPart := p } }

/-- R41, R70, R72: an aligned 32-bit access at a register's offset reaches that register; any other access that touches
the block reads 0 or is dropped, and sets `AERR`; an access outside the block leaves the engine as it is (what it reads
is the platform's, log 7). That an access which lies across an edge of the block counts as one that touches it, and so
sets `AERR`, is the model's choice (DESIGN CHOICE, log 7). -/
def Obligations.AccessesReachTheirTarget : Prop :=
  ∀ (s : State) (addr : Nat) (w : Width) (data : BitVec 64), s.params.base % 64 = 0 →
    (∀ r : Reg, hostRead s (s.params.base + r.offset) .w32 = readReg s r
        ∧ hostWrite s (s.params.base + r.offset) .w32 data = writeReg s r (data.setWidth 32)) ∧
    (s.params.base < addr + w.bytes → addr < s.params.base + 64 → (w ≠ .w32 ∨ addr % 4 ≠ 0) →
      hostRead s addr w = (0#32, { s with regs := { s.regs with aerr := true } })
        ∧ hostWrite s addr w data = { s with regs := { s.regs with aerr := true } }) ∧
    (addr + w.bytes ≤ s.params.base ∨ s.params.base + 64 ≤ addr →
      hostWrite s addr w data = s
        ∧ (hostRead s addr w).2 = { s with draws := s.draws + 1 })

/-- R51, R76, R83: an idle `ACC_DATA` access moves `ACC_IDX` on by one, modulo 2^32, accepted or refused; a refused one
reads 0 or changes nothing, and sets `AERR`. -/
def Obligations.AccDataTransfers : Prop :=
  ∀ (s : State) (data : Word), s.regs.busy = false →
    (∀ v, portRead s.params s.store s.regs.accObj s.regs.accPart s.regs.accIdx.toNat = some v →
      readReg s .accData = (v, { s with regs := { s.regs with accIdx := s.regs.accIdx + 1#32 } })) ∧
    (portRead s.params s.store s.regs.accObj s.regs.accPart s.regs.accIdx.toNat = none →
      readReg s .accData =
        (0#32, { s with regs := { s.regs with accIdx := s.regs.accIdx + 1#32, aerr := true } })) ∧
    (∀ o, portWrite s.params s.store s.regs.accObj s.regs.accPart s.regs.accIdx.toNat data = some o →
      writeReg s .accData data = { s with store := o, regs := { s.regs with accIdx := s.regs.accIdx + 1#32 } }) ∧
    (portWrite s.params s.store s.regs.accObj s.regs.accPart s.regs.accIdx.toNat data = none →
      writeReg s .accData data =
        { s with regs := { s.regs with accIdx := s.regs.accIdx + 1#32, aerr := true } })

/-- R77, R78, R79: a data word the port accepts reads back: the bits of elements that exist for V and M, the whole word
for S and P, the bytes that exist for B. -/
def Obligations.PortDataReadsBack : Prop :=
  ∀ (p : Params) (o : ObjectStore) (x : Nat) (data : Word), p.wf → o.wf p →
    (∀ i : VId, 32 * x < o.v[i].length → ∃ o' w,
      portWrite p o (ObjRef.v i).id false x data = some o' ∧ portRead p o' (ObjRef.v i).id false x = some w
        ∧ ∀ j, j < 32 → w.getLsbD j = (data.getLsbD j && decide (32 * x + j < o.v[i].length))) ∧
    (∀ i : MId, x / p.wordsPerRow < o.m[i].rowCount → 32 * (x % p.wordsPerRow) < o.m[i].cols → ∃ o' w,
      portWrite p o (ObjRef.m i).id false x data = some o' ∧ portRead p o' (ObjRef.m i).id false x = some w
        ∧ ∀ j, j < 32 → w.getLsbD j = (data.getLsbD j && decide (32 * (x % p.wordsPerRow) + j < o.m[i].cols))) ∧
    (∀ i : SId, x / 2 < o.s[i].length → ∃ o',
      portWrite p o (ObjRef.s i).id false x data = some o' ∧ portRead p o' (ObjRef.s i).id false x = some data) ∧
    (∀ i : PId, x < o.p[i].length → ∃ o',
      portWrite p o (ObjRef.p i).id false x data = some o' ∧ portRead p o' (ObjRef.p i).id false x = some data) ∧
    (4 * x < o.b.length → ∃ o' w,
      portWrite p o ObjRef.b.id false x data = some o' ∧ portRead p o' ObjRef.b.id false x = some w
        ∧ ∀ j, j < 32 → w.getLsbD j = (data.getLsbD j && decide (4 * x + j / 8 < o.b.length)))

/-- R71, R76–R81: a write the port accepts changes no other object, and a data write no other word of its object. -/
def Obligations.PortWriteFrame : Prop :=
  ∀ (p : Params) (o o' : ObjectStore) (id : ObjId) (part : Bool) (x : Nat) (data : Word),
    portWrite p o id part x data = some o' →
    (∀ r : ObjRef, r.id ≠ id → o'.value r = o.value r) ∧
    (part = false → ∀ y, y ≠ x → portRead p o' id false y = portRead p o id false y) ∧
    (part = false → ∀ y, portRead p o' id true y = portRead p o id true y)

/-- R81: the attribute words of every class. Word 0 reads the length of a V, S, P or B object, words 0 and 1 the rows and
columns of an M object and `w` and `n` of `C`; every other word is refused, read and write. A write within its limit
makes the object exactly that long, keeps the elements before the new end and adds zeros; beyond its limit it is
refused, as is every write to `C`. -/
def Obligations.AttributeWriteResizes : Prop :=
  ∀ (p : Params) (o : ObjectStore) (data : Word), o.wf p →
    ((∀ i : VId, portRead p o (ObjRef.v i).id true 0 = some (BitVec.ofNat 32 o.v[i].length))
      ∧ (∀ i : SId, portRead p o (ObjRef.s i).id true 0 = some (BitVec.ofNat 32 o.s[i].length))
      ∧ (∀ i : PId, portRead p o (ObjRef.p i).id true 0 = some (BitVec.ofNat 32 o.p[i].length))
      ∧ portRead p o ObjRef.b.id true 0 = some (BitVec.ofNat 32 o.b.length)
      ∧ (∀ i : MId, portRead p o (ObjRef.m i).id true 0 = some (BitVec.ofNat 32 o.m[i].rowCount)
          ∧ portRead p o (ObjRef.m i).id true 1 = some (BitVec.ofNat 32 o.m[i].cols))
      ∧ portRead p o ObjRef.c.id true 0 = some (BitVec.ofNat 32 o.c.w)
      ∧ portRead p o ObjRef.c.id true 1 = some (BitVec.ofNat 32 o.c.n)) ∧
    (∀ (r : ObjRef) (x : Nat),
      (∀ i, r ≠ .m i) → r ≠ .c → 1 ≤ x → portRead p o r.id true x = none ∧ portWrite p o r.id true x data = none) ∧
    (∀ (r : ObjRef) (x : Nat), 2 ≤ x → portRead p o r.id true x = none ∧ portWrite p o r.id true x data = none) ∧
    (∀ x, portWrite p o ObjRef.c.id true x data = none) ∧
    (∀ i : VId, (data.toNat ≤ p.nMax → ∃ o', portWrite p o (ObjRef.v i).id true 0 data = some o'
        ∧ o'.v[i].length = data.toNat
        ∧ ∀ j, j < data.toNat → o'.v[i].getD j false = o.v[i].getD j false) ∧
      (p.nMax < data.toNat → portWrite p o (ObjRef.v i).id true 0 data = none)) ∧
    (∀ i : SId, (data.toNat ≤ p.nMax → ∃ o', portWrite p o (ObjRef.s i).id true 0 data = some o'
        ∧ o'.s[i].length = data.toNat
        ∧ ∀ j, j < data.toNat → o'.s[i].getD j 0#64 = o.s[i].getD j 0#64) ∧
      (p.nMax < data.toNat → portWrite p o (ObjRef.s i).id true 0 data = none)) ∧
    (∀ i : PId, (data.toNat ≤ p.nMax → ∃ o', portWrite p o (ObjRef.p i).id true 0 data = some o'
        ∧ o'.p[i].length = data.toNat
        ∧ ∀ j, j < data.toNat → o'.p[i].getD j 0#32 = o.p[i].getD j 0#32) ∧
      (p.nMax < data.toNat → portWrite p o (ObjRef.p i).id true 0 data = none)) ∧
    ((data.toNat ≤ p.nMax → ∃ o', portWrite p o ObjRef.b.id true 0 data = some o'
        ∧ o'.b.length = data.toNat ∧ ∀ j, j < data.toNat → o'.b.getD j 0#8 = o.b.getD j 0#8) ∧
      (p.nMax < data.toNat → portWrite p o ObjRef.b.id true 0 data = none)) ∧
    (∀ i : MId, (data.toNat ≤ p.kMax → ∃ o', portWrite p o (ObjRef.m i).id true 0 data = some o'
        ∧ o'.m[i].rowCount = data.toNat ∧ o'.m[i].cols = o.m[i].cols ∧ (∀ row ∈ o'.m[i].rows, row.length = o.m[i].cols)
        ∧ ∀ r c, r < data.toNat → o'.m[i].entry r c = o.m[i].entry r c) ∧
      (p.kMax < data.toNat → portWrite p o (ObjRef.m i).id true 0 data = none)) ∧
    (∀ i : MId, (data.toNat ≤ p.nMax → ∃ o', portWrite p o (ObjRef.m i).id true 1 data = some o'
        ∧ o'.m[i].rowCount = o.m[i].rowCount ∧ o'.m[i].cols = data.toNat ∧ (∀ row ∈ o'.m[i].rows, row.length = data.toNat)
        ∧ ∀ r c, c < data.toNat → o'.m[i].entry r c = o.m[i].entry r c) ∧
      (p.nMax < data.toNat → portWrite p o (ObjRef.m i).id true 1 data = none))

/-- R80, R81, R82: `C` reads its words up to the sentinel and its two attributes, and takes no write; a reserved object
id refuses every access. -/
def Obligations.CombinationIsReadOnlyAndReservedIdsRefuse : Prop :=
  ∀ (p : Params) (o : ObjectStore) (x : Nat) (data : Word),
    (o.c.wf p →
      (x ≤ o.c.w → portRead p o ObjRef.c.id false x = some (o.c.state.getD x 0#32)) ∧
      (o.c.w < x → portRead p o ObjRef.c.id false x = none) ∧
      portRead p o ObjRef.c.id false o.c.w = some (BitVec.ofNat 32 o.c.n)) ∧
    (portRead p o ObjRef.c.id true 0 = some (BitVec.ofNat 32 o.c.w)
      ∧ portRead p o ObjRef.c.id true 1 = some (BitVec.ofNat 32 o.c.n)) ∧
    (∀ part, portWrite p o ObjRef.c.id part x data = none) ∧
    (∀ (id : ObjId) (part : Bool), 20 ≤ id.toNat →
      portRead p o id part x = none ∧ portWrite p o id part x data = none)

/-- R77, R78, R79: which element each bit, half or byte of a data word is, for a read and for a write, and that a word
with no element of its object is refused. A write leaves every other element and the object's length or dimensions. -/
def Obligations.PortDataLayout : Prop :=
  ∀ (p : Params) (o : ObjectStore) (x : Nat) (data : Word), o.wf p →
    let refused := fun r : ObjRef => portRead p o r.id false x = none ∧ portWrite p o r.id false x data = none
    (∀ i : VId,
      (32 * x < o.v[i].length → ∃ w o', portRead p o (ObjRef.v i).id false x = some w
        ∧ portWrite p o (ObjRef.v i).id false x data = some o'
        ∧ (∀ j, j < 32 → w.getLsbD j = o.v[i].getD (32 * x + j) false)
        ∧ o'.v[i].length = o.v[i].length
        ∧ (∀ j, j < 32 → 32 * x + j < o.v[i].length → o'.v[i].getD (32 * x + j) false = data.getLsbD j)
        ∧ ∀ e, e < 32 * x ∨ 32 * x + 32 ≤ e → o'.v[i].getD e false = o.v[i].getD e false) ∧
      (o.v[i].length ≤ 32 * x → refused (.v i))) ∧
    (∀ i : MId,
      let r := x / ((p.nMax + 31) / 32)
      let c := x % ((p.nMax + 31) / 32)
      (r < o.m[i].rowCount → 32 * c < o.m[i].cols → ∃ w o', portRead p o (ObjRef.m i).id false x = some w
        ∧ portWrite p o (ObjRef.m i).id false x data = some o'
        ∧ (∀ j, j < 32 → w.getLsbD j = (decide (32 * c + j < o.m[i].cols) && o.m[i].entry r (32 * c + j)))
        ∧ o'.m[i].rowCount = o.m[i].rowCount ∧ o'.m[i].cols = o.m[i].cols
        ∧ (∀ row ∈ o'.m[i].rows, row.length = o.m[i].cols)
        ∧ (∀ j, j < 32 → 32 * c + j < o.m[i].cols → o'.m[i].entry r (32 * c + j) = data.getLsbD j)
        ∧ ∀ q e, q ≠ r ∨ e < 32 * c ∨ 32 * c + 32 ≤ e → o'.m[i].entry q e = o.m[i].entry q e) ∧
      (o.m[i].rowCount ≤ r ∨ o.m[i].cols ≤ 32 * c → refused (.m i))) ∧
    (∀ i : SId,
      (∀ e, o.s[i][x / 2]? = some e → ∃ o' e',
        portRead p o (ObjRef.s i).id false x = some (if x % 2 = 0 then e.extractLsb' 0 32 else e.extractLsb' 32 32)
        ∧ portWrite p o (ObjRef.s i).id false x data = some o'
        ∧ o'.s[i].length = o.s[i].length ∧ o'.s[i][x / 2]? = some e'
        ∧ e'.extractLsb' 0 32 = (if x % 2 = 0 then data else e.extractLsb' 0 32)
        ∧ e'.extractLsb' 32 32 = (if x % 2 = 0 then e.extractLsb' 32 32 else data)
        ∧ ∀ k, k ≠ x / 2 → o'.s[i][k]? = o.s[i][k]?) ∧
      (o.s[i].length ≤ x / 2 → refused (.s i))) ∧
    (∀ i : PId,
      (∀ e, o.p[i][x]? = some e → ∃ o', portRead p o (ObjRef.p i).id false x = some e
        ∧ portWrite p o (ObjRef.p i).id false x data = some o'
        ∧ o'.p[i].length = o.p[i].length ∧ o'.p[i][x]? = some data ∧ ∀ k, k ≠ x → o'.p[i][k]? = o.p[i][k]?) ∧
      (o.p[i].length ≤ x → refused (.p i))) ∧
    (4 * x < o.b.length → ∃ w o', portRead p o ObjRef.b.id false x = some w
      ∧ portWrite p o ObjRef.b.id false x data = some o'
      ∧ (∀ k, k < 4 → w.extractLsb' (8 * k) 8 = o.b.getD (4 * x + k) 0#8)
      ∧ o'.b.length = o.b.length
      ∧ (∀ k, k < 4 → 4 * x + k < o.b.length → o'.b.getD (4 * x + k) 0#8 = data.extractLsb' (8 * k) 8)
      ∧ ∀ e, e < 4 * x ∨ 4 * x + 4 ≤ e → o'.b.getD e 0#8 = o.b.getD e 0#8) ∧
    (o.b.length ≤ 4 * x → refused .b)
end

