-- ==== Sys2Proof/Laws/State.lean ====
section
/-! SUPPORT. What each update of the state leaves in each field, true by `rfl` and tagged for `simp`, so that no later
proof unfolds a record update. -/

namespace Sys2Proof.Machine

/-! `setV` -/

@[simp] theorem setV_params (s : State) (d : VId) (x : List Bool) : (s.setV d x).params = s.params := rfl
@[simp] theorem setV_regs (s : State) (d : VId) (x : List Bool) : (s.setV d x).regs = s.regs := rfl
@[simp] theorem setV_host (s : State) (d : VId) (x : List Bool) : (s.setV d x).host = s.host := rfl
@[simp] theorem setV_turns (s : State) (d : VId) (x : List Bool) : (s.setV d x).turns = s.turns := rfl
@[simp] theorem setV_draws (s : State) (d : VId) (x : List Bool) : (s.setV d x).draws = s.draws := rfl
@[simp] theorem setV_store_v (s : State) (d : VId) (x : List Bool) : (s.setV d x).store.v = s.store.v.set d x := rfl
@[simp] theorem setV_store_s (s : State) (d : VId) (x : List Bool) : (s.setV d x).store.s = s.store.s := rfl
@[simp] theorem setV_store_p (s : State) (d : VId) (x : List Bool) : (s.setV d x).store.p = s.store.p := rfl
@[simp] theorem setV_store_m (s : State) (d : VId) (x : List Bool) : (s.setV d x).store.m = s.store.m := rfl
@[simp] theorem setV_store_c (s : State) (d : VId) (x : List Bool) : (s.setV d x).store.c = s.store.c := rfl
@[simp] theorem setV_store_b (s : State) (d : VId) (x : List Bool) : (s.setV d x).store.b = s.store.b := rfl

/-! `setS` -/

@[simp] theorem setS_params (s : State) (d : SId) (x : List F64) : (s.setS d x).params = s.params := rfl
@[simp] theorem setS_regs (s : State) (d : SId) (x : List F64) : (s.setS d x).regs = s.regs := rfl
@[simp] theorem setS_host (s : State) (d : SId) (x : List F64) : (s.setS d x).host = s.host := rfl
@[simp] theorem setS_turns (s : State) (d : SId) (x : List F64) : (s.setS d x).turns = s.turns := rfl
@[simp] theorem setS_draws (s : State) (d : SId) (x : List F64) : (s.setS d x).draws = s.draws := rfl
@[simp] theorem setS_store_v (s : State) (d : SId) (x : List F64) : (s.setS d x).store.v = s.store.v := rfl
@[simp] theorem setS_store_s (s : State) (d : SId) (x : List F64) : (s.setS d x).store.s = s.store.s.set d x := rfl
@[simp] theorem setS_store_p (s : State) (d : SId) (x : List F64) : (s.setS d x).store.p = s.store.p := rfl
@[simp] theorem setS_store_m (s : State) (d : SId) (x : List F64) : (s.setS d x).store.m = s.store.m := rfl
@[simp] theorem setS_store_c (s : State) (d : SId) (x : List F64) : (s.setS d x).store.c = s.store.c := rfl
@[simp] theorem setS_store_b (s : State) (d : SId) (x : List F64) : (s.setS d x).store.b = s.store.b := rfl

/-! `setP` -/

@[simp] theorem setP_params (s : State) (d : PId) (x : List Word) : (s.setP d x).params = s.params := rfl
@[simp] theorem setP_regs (s : State) (d : PId) (x : List Word) : (s.setP d x).regs = s.regs := rfl
@[simp] theorem setP_host (s : State) (d : PId) (x : List Word) : (s.setP d x).host = s.host := rfl
@[simp] theorem setP_turns (s : State) (d : PId) (x : List Word) : (s.setP d x).turns = s.turns := rfl
@[simp] theorem setP_draws (s : State) (d : PId) (x : List Word) : (s.setP d x).draws = s.draws := rfl
@[simp] theorem setP_store_v (s : State) (d : PId) (x : List Word) : (s.setP d x).store.v = s.store.v := rfl
@[simp] theorem setP_store_s (s : State) (d : PId) (x : List Word) : (s.setP d x).store.s = s.store.s := rfl
@[simp] theorem setP_store_p (s : State) (d : PId) (x : List Word) : (s.setP d x).store.p = s.store.p.set d x := rfl
@[simp] theorem setP_store_m (s : State) (d : PId) (x : List Word) : (s.setP d x).store.m = s.store.m := rfl
@[simp] theorem setP_store_c (s : State) (d : PId) (x : List Word) : (s.setP d x).store.c = s.store.c := rfl
@[simp] theorem setP_store_b (s : State) (d : PId) (x : List Word) : (s.setP d x).store.b = s.store.b := rfl

/-! `setM` -/

@[simp] theorem setM_params (s : State) (d : MId) (x : Matrix) : (s.setM d x).params = s.params := rfl
@[simp] theorem setM_regs (s : State) (d : MId) (x : Matrix) : (s.setM d x).regs = s.regs := rfl
@[simp] theorem setM_host (s : State) (d : MId) (x : Matrix) : (s.setM d x).host = s.host := rfl
@[simp] theorem setM_turns (s : State) (d : MId) (x : Matrix) : (s.setM d x).turns = s.turns := rfl
@[simp] theorem setM_draws (s : State) (d : MId) (x : Matrix) : (s.setM d x).draws = s.draws := rfl
@[simp] theorem setM_store_v (s : State) (d : MId) (x : Matrix) : (s.setM d x).store.v = s.store.v := rfl
@[simp] theorem setM_store_s (s : State) (d : MId) (x : Matrix) : (s.setM d x).store.s = s.store.s := rfl
@[simp] theorem setM_store_p (s : State) (d : MId) (x : Matrix) : (s.setM d x).store.p = s.store.p := rfl
@[simp] theorem setM_store_m (s : State) (d : MId) (x : Matrix) : (s.setM d x).store.m = s.store.m.set d x := rfl
@[simp] theorem setM_store_c (s : State) (d : MId) (x : Matrix) : (s.setM d x).store.c = s.store.c := rfl
@[simp] theorem setM_store_b (s : State) (d : MId) (x : Matrix) : (s.setM d x).store.b = s.store.b := rfl

/-! `setC` -/

@[simp] theorem setC_params (s : State) (x : Comb) : (s.setC x).params = s.params := rfl
@[simp] theorem setC_regs (s : State) (x : Comb) : (s.setC x).regs = s.regs := rfl
@[simp] theorem setC_host (s : State) (x : Comb) : (s.setC x).host = s.host := rfl
@[simp] theorem setC_turns (s : State) (x : Comb) : (s.setC x).turns = s.turns := rfl
@[simp] theorem setC_draws (s : State) (x : Comb) : (s.setC x).draws = s.draws := rfl
@[simp] theorem setC_store_v (s : State) (x : Comb) : (s.setC x).store.v = s.store.v := rfl
@[simp] theorem setC_store_s (s : State) (x : Comb) : (s.setC x).store.s = s.store.s := rfl
@[simp] theorem setC_store_p (s : State) (x : Comb) : (s.setC x).store.p = s.store.p := rfl
@[simp] theorem setC_store_m (s : State) (x : Comb) : (s.setC x).store.m = s.store.m := rfl
@[simp] theorem setC_store_c (s : State) (x : Comb) : (s.setC x).store.c = x := rfl
@[simp] theorem setC_store_b (s : State) (x : Comb) : (s.setC x).store.b = s.store.b := rfl

/-! `setB` -/

@[simp] theorem setB_params (s : State) (x : List Byte) : (s.setB x).params = s.params := rfl
@[simp] theorem setB_regs (s : State) (x : List Byte) : (s.setB x).regs = s.regs := rfl
@[simp] theorem setB_host (s : State) (x : List Byte) : (s.setB x).host = s.host := rfl
@[simp] theorem setB_turns (s : State) (x : List Byte) : (s.setB x).turns = s.turns := rfl
@[simp] theorem setB_draws (s : State) (x : List Byte) : (s.setB x).draws = s.draws := rfl
@[simp] theorem setB_store_v (s : State) (x : List Byte) : (s.setB x).store.v = s.store.v := rfl
@[simp] theorem setB_store_s (s : State) (x : List Byte) : (s.setB x).store.s = s.store.s := rfl
@[simp] theorem setB_store_p (s : State) (x : List Byte) : (s.setB x).store.p = s.store.p := rfl
@[simp] theorem setB_store_m (s : State) (x : List Byte) : (s.setB x).store.m = s.store.m := rfl
@[simp] theorem setB_store_c (s : State) (x : List Byte) : (s.setB x).store.c = s.store.c := rfl
@[simp] theorem setB_store_b (s : State) (x : List Byte) : (s.setB x).store.b = x := rfl

/-! `setRes` -/

@[simp] theorem setRes_params (s : State) (b : Bool) : (s.setRes b).params = s.params := rfl
@[simp] theorem setRes_store (s : State) (b : Bool) : (s.setRes b).store = s.store := rfl
@[simp] theorem setRes_host (s : State) (b : Bool) : (s.setRes b).host = s.host := rfl
@[simp] theorem setRes_turns (s : State) (b : Bool) : (s.setRes b).turns = s.turns := rfl
@[simp] theorem setRes_draws (s : State) (b : Bool) : (s.setRes b).draws = s.draws := rfl
@[simp] theorem setRes_busy (s : State) (b : Bool) : (s.setRes b).regs.busy = s.regs.busy := rfl
@[simp] theorem setRes_res (s : State) (b : Bool) : (s.setRes b).regs.res = b := rfl
@[simp] theorem setRes_aerr (s : State) (b : Bool) : (s.setRes b).regs.aerr = s.regs.aerr := rfl
@[simp] theorem setRes_err (s : State) (b : Bool) : (s.setRes b).regs.err = s.regs.err := rfl
@[simp] theorem setRes_arg0 (s : State) (b : Bool) : (s.setRes b).regs.arg0 = s.regs.arg0 := rfl
@[simp] theorem setRes_arg1 (s : State) (b : Bool) : (s.setRes b).regs.arg1 = s.regs.arg1 := rfl
@[simp] theorem setRes_metric (s : State) (b : Bool) : (s.setRes b).regs.metric = s.regs.metric := rfl
@[simp] theorem setRes_accObj (s : State) (b : Bool) : (s.setRes b).regs.accObj = s.regs.accObj := rfl
@[simp] theorem setRes_accPart (s : State) (b : Bool) : (s.setRes b).regs.accPart = s.regs.accPart := rfl
@[simp] theorem setRes_accIdx (s : State) (b : Bool) : (s.setRes b).regs.accIdx = s.regs.accIdx := rfl
@[simp] theorem setRes_pend (s : State) (b : Bool) : (s.setRes b).regs.pend = s.regs.pend := rfl

/-! `setMetric` -/

@[simp] theorem setMetric_params (s : State) (x : F64) : (s.setMetric x).params = s.params := rfl
@[simp] theorem setMetric_store (s : State) (x : F64) : (s.setMetric x).store = s.store := rfl
@[simp] theorem setMetric_host (s : State) (x : F64) : (s.setMetric x).host = s.host := rfl
@[simp] theorem setMetric_turns (s : State) (x : F64) : (s.setMetric x).turns = s.turns := rfl
@[simp] theorem setMetric_draws (s : State) (x : F64) : (s.setMetric x).draws = s.draws := rfl
@[simp] theorem setMetric_busy (s : State) (x : F64) : (s.setMetric x).regs.busy = s.regs.busy := rfl
@[simp] theorem setMetric_res (s : State) (x : F64) : (s.setMetric x).regs.res = s.regs.res := rfl
@[simp] theorem setMetric_aerr (s : State) (x : F64) : (s.setMetric x).regs.aerr = s.regs.aerr := rfl
@[simp] theorem setMetric_err (s : State) (x : F64) : (s.setMetric x).regs.err = s.regs.err := rfl
@[simp] theorem setMetric_arg0 (s : State) (x : F64) : (s.setMetric x).regs.arg0 = s.regs.arg0 := rfl
@[simp] theorem setMetric_arg1 (s : State) (x : F64) : (s.setMetric x).regs.arg1 = s.regs.arg1 := rfl
@[simp] theorem setMetric_metric (s : State) (x : F64) : (s.setMetric x).regs.metric = x := rfl
@[simp] theorem setMetric_accObj (s : State) (x : F64) : (s.setMetric x).regs.accObj = s.regs.accObj := rfl
@[simp] theorem setMetric_accPart (s : State) (x : F64) : (s.setMetric x).regs.accPart = s.regs.accPart := rfl
@[simp] theorem setMetric_accIdx (s : State) (x : F64) : (s.setMetric x).regs.accIdx = s.regs.accIdx := rfl
@[simp] theorem setMetric_pend (s : State) (x : F64) : (s.setMetric x).regs.pend = s.regs.pend := rfl

/-! `setAerr` -/

@[simp] theorem setAerr_params (s : State) : (s.setAerr).params = s.params := rfl
@[simp] theorem setAerr_store (s : State) : (s.setAerr).store = s.store := rfl
@[simp] theorem setAerr_host (s : State) : (s.setAerr).host = s.host := rfl
@[simp] theorem setAerr_turns (s : State) : (s.setAerr).turns = s.turns := rfl
@[simp] theorem setAerr_draws (s : State) : (s.setAerr).draws = s.draws := rfl
@[simp] theorem setAerr_busy (s : State) : (s.setAerr).regs.busy = s.regs.busy := rfl
@[simp] theorem setAerr_res (s : State) : (s.setAerr).regs.res = s.regs.res := rfl
@[simp] theorem setAerr_aerr (s : State) : (s.setAerr).regs.aerr = true := rfl
@[simp] theorem setAerr_err (s : State) : (s.setAerr).regs.err = s.regs.err := rfl
@[simp] theorem setAerr_arg0 (s : State) : (s.setAerr).regs.arg0 = s.regs.arg0 := rfl
@[simp] theorem setAerr_arg1 (s : State) : (s.setAerr).regs.arg1 = s.regs.arg1 := rfl
@[simp] theorem setAerr_metric (s : State) : (s.setAerr).regs.metric = s.regs.metric := rfl
@[simp] theorem setAerr_accObj (s : State) : (s.setAerr).regs.accObj = s.regs.accObj := rfl
@[simp] theorem setAerr_accPart (s : State) : (s.setAerr).regs.accPart = s.regs.accPart := rfl
@[simp] theorem setAerr_accIdx (s : State) : (s.setAerr).regs.accIdx = s.regs.accIdx := rfl
@[simp] theorem setAerr_pend (s : State) : (s.setAerr).regs.pend = s.regs.pend := rfl

/-! `finish` -/

@[simp] theorem finish_params (s : State) (e : ErrCode) : (s.finish e).params = s.params := rfl
@[simp] theorem finish_store (s : State) (e : ErrCode) : (s.finish e).store = s.store := rfl
@[simp] theorem finish_host (s : State) (e : ErrCode) : (s.finish e).host = s.host := rfl
@[simp] theorem finish_turns (s : State) (e : ErrCode) : (s.finish e).turns = s.turns := rfl
@[simp] theorem finish_draws (s : State) (e : ErrCode) : (s.finish e).draws = s.draws := rfl
@[simp] theorem finish_busy (s : State) (e : ErrCode) : (s.finish e).regs.busy = false := rfl
@[simp] theorem finish_res (s : State) (e : ErrCode) : (s.finish e).regs.res = s.regs.res := rfl
@[simp] theorem finish_aerr (s : State) (e : ErrCode) : (s.finish e).regs.aerr = s.regs.aerr := rfl
@[simp] theorem finish_err (s : State) (e : ErrCode) : (s.finish e).regs.err = e := rfl
@[simp] theorem finish_arg0 (s : State) (e : ErrCode) : (s.finish e).regs.arg0 = s.regs.arg0 := rfl
@[simp] theorem finish_arg1 (s : State) (e : ErrCode) : (s.finish e).regs.arg1 = s.regs.arg1 := rfl
@[simp] theorem finish_metric (s : State) (e : ErrCode) : (s.finish e).regs.metric = s.regs.metric := rfl
@[simp] theorem finish_accObj (s : State) (e : ErrCode) : (s.finish e).regs.accObj = s.regs.accObj := rfl
@[simp] theorem finish_accPart (s : State) (e : ErrCode) : (s.finish e).regs.accPart = s.regs.accPart := rfl
@[simp] theorem finish_accIdx (s : State) (e : ErrCode) : (s.finish e).regs.accIdx = s.regs.accIdx := rfl
@[simp] theorem finish_pend (s : State) (e : ErrCode) : (s.finish e).regs.pend = s.regs.pend := rfl

/-! `issue` -/

@[simp] theorem issue_params (s : State) (w : Word) : (issue s w).params = s.params := rfl
@[simp] theorem issue_store (s : State) (w : Word) : (issue s w).store = s.store := rfl
@[simp] theorem issue_host (s : State) (w : Word) : (issue s w).host = s.host := rfl
@[simp] theorem issue_turns (s : State) (w : Word) : (issue s w).turns = s.turns := rfl
@[simp] theorem issue_draws (s : State) (w : Word) : (issue s w).draws = s.draws := rfl
@[simp] theorem issue_busy (s : State) (w : Word) : (issue s w).regs.busy = true := rfl
@[simp] theorem issue_res (s : State) (w : Word) : (issue s w).regs.res = s.regs.res := rfl
@[simp] theorem issue_aerr (s : State) (w : Word) : (issue s w).regs.aerr = s.regs.aerr := rfl
@[simp] theorem issue_err (s : State) (w : Word) : (issue s w).regs.err = .ok := rfl
@[simp] theorem issue_arg0 (s : State) (w : Word) : (issue s w).regs.arg0 = s.regs.arg0 := rfl
@[simp] theorem issue_arg1 (s : State) (w : Word) : (issue s w).regs.arg1 = s.regs.arg1 := rfl
@[simp] theorem issue_metric (s : State) (w : Word) : (issue s w).regs.metric = s.regs.metric := rfl
@[simp] theorem issue_accObj (s : State) (w : Word) : (issue s w).regs.accObj = s.regs.accObj := rfl
@[simp] theorem issue_accPart (s : State) (w : Word) : (issue s w).regs.accPart = s.regs.accPart := rfl
@[simp] theorem issue_accIdx (s : State) (w : Word) : (issue s w).regs.accIdx = s.regs.accIdx := rfl
@[simp] theorem issue_pend (s : State) (w : Word) : (issue s w).regs.pend = w := rfl

/-! `engineReset` -/

@[simp] theorem engineReset_params (s : State) : s.engineReset.params = s.params := rfl
@[simp] theorem engineReset_host (s : State) : s.engineReset.host = s.host := rfl
@[simp] theorem engineReset_turns (s : State) : s.engineReset.turns = s.turns := rfl
@[simp] theorem engineReset_draws (s : State) : s.engineReset.draws = s.draws := rfl
@[simp] theorem engineReset_store (s : State) : s.engineReset.store = ObjectStore.reset := rfl
@[simp] theorem engineReset_regs (s : State) : s.engineReset.regs = Regs.reset := rfl

/-! `draw` -/

@[simp] theorem draw_value (s : State) : s.draw.1 = Config.draw s.draws := rfl
@[simp] theorem draw_params (s : State) : s.draw.2.params = s.params := rfl
@[simp] theorem draw_store (s : State) : s.draw.2.store = s.store := rfl
@[simp] theorem draw_regs (s : State) : s.draw.2.regs = s.regs := rfl
@[simp] theorem draw_host (s : State) : s.draw.2.host = s.host := rfl
@[simp] theorem draw_turns (s : State) : s.draw.2.turns = s.turns := rfl
@[simp] theorem draw_draws (s : State) : s.draw.2.draws = s.draws + 1 := rfl

end Sys2Proof.Machine
end

