-- ==== Sys2Proof/Laws/Ops.lean ====
section
/-! SUPPORT. What the shared operations of Machine/Ops.lean can do, said once: reading an object back after a write,
and the one answer of `complete` and of `raiseError`. -/

namespace Sys2Proof.Machine

theorem vector_getElem_set_fin {α : Type} {n : Nat} (x : Vector α n) (i j : Fin n) (a : α) :
    (x.set i a)[j] = if j = i then a else x[j] := by
  simp only [Fin.getElem_fin, Vector.getElem_set, Fin.ext_iff, eq_comm]

@[simp] theorem value_setV (s : State) (d : VId) (x : List Bool) (o : ObjRef) :
    (s.setV d x).store.value o = if o = .v d then .v x else s.store.value o := by
  cases o <;> simp only [ObjectStore.value, setV_store_v, setV_store_s, setV_store_p, setV_store_m, setV_store_c,
    setV_store_b, vector_getElem_set_fin, ObjRef.v.injEq, reduceCtorEq, if_false]
  split <;> rfl

@[simp] theorem value_setS (s : State) (d : SId) (x : List F64) (o : ObjRef) :
    (s.setS d x).store.value o = if o = .s d then .s x else s.store.value o := by
  cases o <;> simp only [ObjectStore.value, setS_store_v, setS_store_s, setS_store_p, setS_store_m, setS_store_c,
    setS_store_b, vector_getElem_set_fin, ObjRef.s.injEq, reduceCtorEq, if_false]
  split <;> rfl

@[simp] theorem value_setP (s : State) (d : PId) (x : List Word) (o : ObjRef) :
    (s.setP d x).store.value o = if o = .p d then .p x else s.store.value o := by
  cases o <;> simp only [ObjectStore.value, setP_store_v, setP_store_s, setP_store_p, setP_store_m, setP_store_c,
    setP_store_b, vector_getElem_set_fin, ObjRef.p.injEq, reduceCtorEq, if_false]
  split <;> rfl

@[simp] theorem value_setM (s : State) (d : MId) (x : Matrix) (o : ObjRef) :
    (s.setM d x).store.value o = if o = .m d then .m x else s.store.value o := by
  cases o <;> simp only [ObjectStore.value, setM_store_v, setM_store_s, setM_store_p, setM_store_m, setM_store_c,
    setM_store_b, vector_getElem_set_fin, ObjRef.m.injEq, reduceCtorEq, if_false]
  split <;> rfl

@[simp] theorem value_setC (s : State) (x : Comb) (o : ObjRef) :
    (s.setC x).store.value o = if o = .c then .c x else s.store.value o := by
  cases o <;> simp [ObjectStore.value]

@[simp] theorem value_setB (s : State) (x : List Byte) (o : ObjRef) :
    (s.setB x).store.value o = if o = .b then .b x else s.store.value o := by
  cases o <;> simp [ObjectStore.value]

/-- A completion answers one state: the one it is given, idle, with `ERR` = `OK`. -/
theorem complete_eq_next {s t : State} : complete s = .next t ↔ t = s.finish .ok := by
  simp [complete, eq_comm]

/-- An error answers one state: only `ERR` and `BUSY` are written. -/
theorem raiseError_eq_next {e : ErrCode} {s t : State} : raiseError e s = .next t ↔ t = s.finish e := by
  simp [raiseError, eq_comm]

@[simp] theorem complete_ne_fault (s : State) (f : Fault) : complete s ≠ .fault f := nofun
@[simp] theorem complete_ne_refused (s : State) (r : Refusal) : complete s ≠ .refused r := nofun
@[simp] theorem raiseError_ne_fault (e : ErrCode) (s : State) (f : Fault) : raiseError e s ≠ .fault f := nofun
@[simp] theorem raiseError_ne_refused (e : ErrCode) (s : State) (r : Refusal) : raiseError e s ≠ .refused r := nofun

end Sys2Proof.Machine
end

