-- ==== Sys2Proof/Laws/Sequences.lean ====
section
/-! SUPPORT. The shapes of what the pure operations give: lengths, dimensions, and where each element comes from. -/

namespace Sys2Proof.Machine

/-! Index sequences -/

@[simp] theorem indexNats_length (p : List Word) : (indexNats p).length = p.length := by simp [indexNats]
@[simp] theorem indexWords_length (p : List Nat) : (indexWords p).length = p.length := by simp [indexWords]

theorem indexNats_indexWords {p : List Nat} (h : ∀ x ∈ p, x < 2 ^ 32) : indexNats (indexWords p) = p := by
  induction p with
  | nil => rfl
  | cons x p ih =>
    have hx := h x (by simp)
    have ht := ih fun y hy => h y (by simp [hy])
    simp only [indexNats, indexWords, List.map_cons, BitVec.toNat_ofNat, Nat.mod_eq_of_lt hx] at ht ⊢
    rw [ht]

/-! GF(2) -/

@[simp] theorem addBits_length (a b : List Bool) : (addBits a b).length = min a.length b.length := by
  simp [addBits]

theorem addBits_getD {a b : List Bool} (h : a.length = b.length) (j : Nat) :
    (addBits a b).getD j false = xor (a.getD j false) (b.getD j false) := by
  simp only [addBits, List.getD_eq_getElem?_getD, List.getElem?_zipWith]
  by_cases hj : j < a.length
  · simp [hj, h ▸ hj]
  · simp [List.getElem?_eq_none (Nat.le_of_not_lt hj), List.getElem?_eq_none (h ▸ Nat.le_of_not_lt hj)]

theorem multiply_length {v : List Bool} {m : Matrix} (h : ∀ row ∈ m.rows, row.length = m.cols) :
    (multiply v m).length = m.cols := by
  have gen : ∀ (l : List (Bool × List Bool)) (r : List Bool), r.length = m.cols →
      (∀ x ∈ l, x.2.length = m.cols) →
      (l.foldl (fun r (bit, row) => if bit then addBits r row else r) r).length = m.cols := by
    intro l
    induction l with
    | nil => intro r hr _; simpa using hr
    | cons x l ih =>
      intro r hr hl
      refine ih _ ?_ fun y hy => hl y (by simp [hy])
      have hx := hl x (by simp)
      dsimp only
      split <;> simp [hr, hx]
  exact gen _ _ (by simp) fun x hx => h _ (List.of_mem_zip hx).2

/-! Elimination -/

@[simp] theorem addToPivot_length (rows : List (List Bool)) (p f : Nat) :
    (addToPivot rows p f).length = rows.length := by
  unfold addToPivot; split <;> simp

@[simp] theorem clearColumn_length (rows : List (List Bool)) (p j : Nat) :
    (clearColumn rows p j).length = rows.length := by
  simp [clearColumn]

/-- A pivot row is the first row of `p..<k` with a 1 in its column. -/
theorem pivotRow_eq_some {rows : List (List Bool)} {p j f : Nat} (h : pivotRow rows p j = some f) :
    p ≤ f ∧ f < rows.length ∧ (rows.getD f []).getD j false = true
      ∧ ∀ r, p ≤ r → r < f → (rows.getD r []).getD j false = false := by
  simp only [pivotRow, Option.map_eq_some_iff] at h
  obtain ⟨i, hi, rfl⟩ := h
  rw [List.findIdx?_eq_some_iff_getElem] at hi
  obtain ⟨hlt, hbit, hmin⟩ := hi
  simp only [List.length_drop] at hlt
  refine ⟨by omega, by omega, ?_, fun r hr hrf => ?_⟩
  · simpa [List.getElem_drop, List.getElem?_eq_getElem (show p + i < rows.length by omega)] using hbit
  · have := hmin (r - p) (by omega)
    simpa [List.getElem_drop, List.getElem?_eq_getElem (show r < rows.length by omega),
      show p + (r - p) = r by omega] using this

/-- With no pivot row, every row of `p..<k` has a 0 in the column. -/
theorem pivotRow_eq_none {rows : List (List Bool)} {p j : Nat} (h : pivotRow rows p j = none) :
    ∀ r, p ≤ r → r < rows.length → (rows.getD r []).getD j false = false := by
  intro r hr hl
  simp only [pivotRow, Option.map_eq_none_iff, List.findIdx?_eq_none_iff] at h
  have := h (rows[r]) (List.mem_drop_iff_getElem.2 ⟨r - p, by omega, by simp [show p + (r - p) = r by omega]⟩)
  simpa [List.getElem?_eq_getElem hl] using this

theorem addToPivot_rows {rows : List (List Bool)} {p f n : Nat} (hp : p < rows.length) (hf : f < rows.length)
    (h : ∀ row ∈ rows, row.length = n) : ∀ row ∈ addToPivot rows p f, row.length = n := by
  have hd : ∀ i, i < rows.length → (rows.getD i []).length = n := by
    intro i hi
    simpa [List.getElem?_eq_getElem hi] using h _ (List.getElem_mem hi)
  intro row hrow
  unfold addToPivot at hrow
  split at hrow
  · exact h row hrow
  · rcases List.mem_or_eq_of_mem_set hrow with hm | rfl
    · exact h row hm
    · rw [addBits_length, hd p hp, hd f hf, Nat.min_self]

theorem clearColumn_rows {rows : List (List Bool)} {p j n : Nat} (hp : p < rows.length)
    (h : ∀ row ∈ rows, row.length = n) : ∀ row ∈ clearColumn rows p j, row.length = n := by
  intro row hrow
  simp only [clearColumn, List.mem_mapIdx] at hrow
  obtain ⟨i, hi, rfl⟩ := hrow
  have h1 := h _ (List.getElem_mem hi)
  have h2 : (rows.getD p []).length = n := by
    simpa [List.getElem?_eq_getElem hp] using h _ (List.getElem_mem hp)
  split
  · rw [addBits_length, h1, h2, Nat.min_self]
  · exact h1

/-- What one column of the elimination does: nothing, or one more pivot and the rows cleared in its column. -/
theorem gaussColumn_cases (x : List (List Bool) × List Nat) (j : Nat) :
    gaussColumn x j = x ∨
      ∃ f, pivotRow x.1 x.2.length j = some f ∧
        gaussColumn x j = (clearColumn (addToPivot x.1 x.2.length f) x.2.length j, x.2 ++ [j]) := by
  simp only [gaussColumn]
  cases h : pivotRow x.1 x.2.length j with
  | none => exact .inl rfl
  | some f => exact .inr ⟨f, rfl, rfl⟩

/-- An invariant of one column holds of the whole elimination. -/
theorem gaussFold_induction {motive : List (List Bool) × List Nat → Prop} (n : Nat) (x : List (List Bool) × List Nat)
    (h0 : motive x) (hs : ∀ y j, j < n → motive y → motive (gaussColumn y j)) :
    motive ((List.range n).foldl gaussColumn x) := by
  induction n with
  | zero => simpa using h0
  | succ n ih =>
    rw [List.range_succ, List.foldl_append, List.foldl_cons, List.foldl_nil]
    exact hs _ n (Nat.lt_succ_self n) (ih fun y j hj => hs y j (Nat.lt_succ_of_lt hj))

/-- `gauss` keeps the dimensions, finds at most one pivot for each row, and every pivot is a column. -/
theorem gauss_shape {m : Matrix} (h : ∀ row ∈ m.rows, row.length = m.cols) :
    (gauss m).1.cols = m.cols ∧ (gauss m).1.rows.length = m.rows.length
      ∧ (∀ row ∈ (gauss m).1.rows, row.length = m.cols)
      ∧ (gauss m).2.length ≤ m.rows.length ∧ ∀ j ∈ (gauss m).2, j < m.cols := by
  refine ⟨rfl, ?_⟩
  exact gaussFold_induction (motive := fun x => x.1.length = m.rows.length ∧ (∀ row ∈ x.1, row.length = m.cols)
    ∧ x.2.length ≤ m.rows.length ∧ ∀ j ∈ x.2, j < m.cols) m.cols (m.rows, []) ⟨rfl, h, by simp, by simp⟩
    (by
      rintro y j hj ⟨h1, h2, h3, h4⟩
      rcases gaussColumn_cases y j with he | ⟨f, hf, he⟩
      · rw [he]; exact ⟨h1, h2, h3, h4⟩
      · obtain ⟨hpf, hfl, -⟩ := pivotRow_eq_some hf
        have hp : y.2.length < y.1.length := by omega
        rw [he]
        refine ⟨by simp [h1], ?_, by simp; omega, ?_⟩
        · exact clearColumn_rows (by simpa using hp) (addToPivot_rows hp hfl h2)
        · intro c hc
          rcases List.mem_append.1 hc with hc | hc
          · exact h4 c hc
          · simp at hc; omega)

/-! Permutations -/

theorem bij_iff {p : List Nat} : bij p = true ↔ (∀ x ∈ p, x < p.length) ∧ p.Nodup := by
  simp [bij]

@[simp] theorem applyPerm_length {α : Type} (p : List Nat) (x : List α) : (applyPerm p x).length = x.length := by
  have gen : ∀ (l : List (Nat × α)) (r : List α), (l.foldl (fun r (d, e) => r.set d e) r).length = r.length := by
    intro l
    induction l with
    | nil => intro r; rfl
    | cons y l ih => intro r; simp [ih]
  exact gen _ _

@[simp] theorem invert_length (p : List Nat) : (invert p).length = p.length := by simp [invert]

/-- Writing elements to places that are all different leaves each of them where it was written. -/
theorem foldl_set_getElem? {α : Type} (l : List (Nat × α)) (r : List α) (hn : (l.map Prod.fst).Nodup)
    (hl : ∀ y ∈ l, y.1 < r.length) :
    ∀ y ∈ l, (l.foldl (fun r (d, e) => r.set d e) r)[y.1]? = some y.2 := by
  have keep : ∀ (l : List (Nat × α)) (r : List α) (k : Nat), k ∉ l.map Prod.fst →
      (l.foldl (fun r (d, e) => r.set d e) r)[k]? = r[k]? := by
    intro l
    induction l with
    | nil => intro r k _; rfl
    | cons z l ih =>
      intro r k hk
      simp only [List.map_cons, List.mem_cons, not_or] at hk
      rw [List.foldl_cons, ih _ _ hk.2, List.getElem?_set_ne (Ne.symm hk.1)]
  induction l generalizing r with
  | nil => simp
  | cons z l ih =>
    intro y hy
    rw [List.map_cons, List.nodup_cons] at hn
    rcases List.mem_cons.1 hy with rfl | hy
    · rw [List.foldl_cons, keep _ _ _ hn.1, List.getElem?_set_self (hl y (by simp))]
    · exact ih _ hn.2 (fun w hw => by simpa using hl w (by simp [hw])) y hy

/-- `result[perm[i]] = seq[i]` (R181). -/
theorem applyPerm_getElem? {α : Type} {p : List Nat} {x : List α} (hb : bij p = true) (hl : p.length = x.length)
    (i : Nat) (hi : i < p.length) : (applyPerm p x)[p[i]]? = x[i]? := by
  obtain ⟨hlt, hn⟩ := bij_iff.1 hb
  have hz : (p.zip x).map Prod.fst = p := List.map_fst_zip (Nat.le_of_eq hl)
  have hmem : (p[i], x[i]'(hl ▸ hi)) ∈ p.zip x := by
    refine List.mem_iff_getElem.2 ⟨i, by simp; omega, by simp⟩
  have := foldl_set_getElem? (p.zip x) x (by rw [hz]; exact hn)
    (fun y hy => by have := hlt _ (List.of_mem_zip hy).1; omega) _ hmem
  simp only [applyPerm]
  rw [this, List.getElem?_eq_getElem]

/-! The enumerator -/

@[simp] theorem bumpFrom_length (st : List Word) (w t : Nat) : (bumpFrom st w t).length = st.length := by
  simp [bumpFrom]

/-- The place `rightmostGap` answers: below its bound, with a gap, and none to its right. -/
theorem rightmostGap_eq_some {st : List Word} {w t : Nat} (h : rightmostGap st w = some t) :
    t < w ∧ st.getD t 0#32 + 1#32 ≠ st.getD (t + 1) 0#32
      ∧ ∀ i, t < i → i < w → st.getD i 0#32 + 1#32 = st.getD (i + 1) 0#32 := by
  induction w with
  | zero => simp [rightmostGap] at h
  | succ w ih =>
    rw [rightmostGap] at h
    split at h
    · rename_i hg
      cases h
      exact ⟨Nat.lt_succ_self _, hg, fun i h1 h2 => by omega⟩
    · rename_i hg
      obtain ⟨h1, h2, h3⟩ := ih h
      refine ⟨by omega, h2, fun i hi hw => ?_⟩
      rcases Nat.lt_succ_iff_lt_or_eq.1 hw with hw | rfl
      · exact h3 i hi hw
      · exact not_not.1 hg

theorem rightmostGap_eq_none {st : List Word} {w : Nat} (h : rightmostGap st w = none) :
    ∀ i, i < w → st.getD i 0#32 + 1#32 = st.getD (i + 1) 0#32 := by
  induction w with
  | zero => intro i hi; omega
  | succ w ih =>
    rw [rightmostGap] at h
    split at h
    · simp at h
    · rename_i hg
      intro i hi
      rcases Nat.lt_succ_iff_lt_or_eq.1 hi with hi | rfl
      · exact ih h i hi
      · exact not_not.1 hg

/-- `advance` bumps the rightmost place with a gap, or there is none. -/
theorem advance_cases (w : Nat) (st : List Word) :
    (advance w st = none ∧ rightmostGap st w = none) ∨
      ∃ t, rightmostGap st w = some t ∧ advance w st = some (bumpFrom st w t) := by
  unfold advance
  cases h : rightmostGap st w with
  | none => exact .inl ⟨rfl, rfl⟩
  | some t => exact .inr ⟨t, rfl, rfl⟩

/-! The access port -/

@[simp] theorem resize_length {α : Type} (x : List α) (n : Nat) (z : α) : (resize x n z).length = n := by
  simp [resize]; omega

@[simp] theorem unpackBits_length (x : List Bool) (w : Nat) (d : Word) : (unpackBits x w d).length = x.length := by
  simp [unpackBits]

@[simp] theorem unpackBytes_length (x : List Byte) (w : Nat) (d : Word) : (unpackBytes x w d).length = x.length := by
  simp [unpackBytes]

end Sys2Proof.Machine
end

