-- ==== Sys2Proof/Laws/Store.lean ====
section
/-! SUPPORT. The object store's form (R33, R37, R39) holds at reset, and every operation on the store keeps it: the
whole-object writes, and every write the access port accepts. -/

namespace Sys2Proof.Machine

theorem forall_getElem_set {α : Type} {n : Nat} {x : Vector α n} {i : Fin n} {a : α} {P : α → Prop}
    (h : ∀ j : Fin n, P x[j]) (ha : P a) : ∀ j : Fin n, P (x.set i a)[j] := by
  intro j
  rw [vector_getElem_set_fin]
  split
  · exact ha
  · exact h j

theorem store_reset_wf (p : Params) : ObjectStore.reset.wf p := by
  refine ⟨?_, ?_, ?_, ?_, ?_, ?_⟩ <;> simp [ObjectStore.reset, Matrix.wf, Comb.wf, indexNats]

/-! Whole objects -/

theorem setV_wf {p : Params} {s : State} {d : VId} {x : List Bool} (h : s.store.wf p) (hx : x.length ≤ p.nMax) :
    (s.setV d x).store.wf p :=
  ⟨forall_getElem_set (P := fun y : List Bool => y.length ≤ p.nMax) h.1 hx, h.2⟩

theorem setS_wf {p : Params} {s : State} {d : SId} {x : List F64} (h : s.store.wf p) (hx : x.length ≤ p.nMax) :
    (s.setS d x).store.wf p :=
  ⟨h.1, forall_getElem_set (P := fun y : List F64 => y.length ≤ p.nMax) h.2.1 hx, h.2.2⟩

theorem setP_wf {p : Params} {s : State} {d : PId} {x : List Word} (h : s.store.wf p) (hx : x.length ≤ p.nMax) :
    (s.setP d x).store.wf p :=
  ⟨h.1, h.2.1, forall_getElem_set (P := fun y : List Word => y.length ≤ p.nMax) h.2.2.1 hx, h.2.2.2⟩

theorem setM_wf {p : Params} {s : State} {d : MId} {x : Matrix} (h : s.store.wf p) (hx : x.wf p) :
    (s.setM d x).store.wf p :=
  ⟨h.1, h.2.1, h.2.2.1, forall_getElem_set (P := fun y : Matrix => y.wf p) h.2.2.2.1 hx, h.2.2.2.2⟩

theorem setC_wf {p : Params} {s : State} {x : Comb} (h : s.store.wf p) (hx : x.wf p) : (s.setC x).store.wf p :=
  ⟨h.1, h.2.1, h.2.2.1, h.2.2.2.1, hx, h.2.2.2.2.2⟩

theorem setB_wf {p : Params} {s : State} {x : List Byte} (h : s.store.wf p) (hx : x.length ≤ p.nMax) :
    (s.setB x).store.wf p :=
  ⟨h.1, h.2.1, h.2.2.1, h.2.2.2.1, h.2.2.2.2.1, hx⟩

/-! The access port -/

theorem resizeRows_wf {p : Params} {m : Matrix} {n : Nat} (h : m.wf p) (hn : n ≤ p.kMax) : (m.resizeRows n).wf p := by
  refine ⟨by simpa [Matrix.resizeRows] using hn, h.2.1, ?_⟩
  intro row hrow
  simp only [Matrix.resizeRows, resize, List.mem_append] at hrow
  rcases hrow with hrow | hrow
  · exact h.2.2 row (List.mem_of_mem_take hrow)
  · rw [List.eq_of_mem_replicate hrow, List.length_replicate, Matrix.resizeRows]

theorem resizeCols_wf {p : Params} {m : Matrix} {n : Nat} (h : m.wf p) (hn : n ≤ p.nMax) : (m.resizeCols n).wf p := by
  refine ⟨by simpa [Matrix.resizeCols] using h.1, hn, ?_⟩
  intro row hrow
  simp only [Matrix.resizeCols, List.mem_map] at hrow
  obtain ⟨r, -, rfl⟩ := hrow
  simp [Matrix.resizeCols]

theorem setRow_wf {p : Params} {m : Matrix} {r : Nat} {row : List Bool} (h : m.wf p) (hr : row.length = m.cols) :
    Matrix.wf p { m with rows := m.rows.set r row } := by
  refine ⟨by simpa using h.1, h.2.1, ?_⟩
  intro x hx
  rcases List.mem_or_eq_of_mem_set hx with hx | rfl
  · exact h.2.2 x hx
  · exact hr

/-- A write of element data that the port accepts keeps the store's form. -/
theorem writeData_wf {p : Params} {o o' : ObjectStore} {r : ObjRef} {x : Nat} {data : Word} (h : o.wf p)
    (hw : writeData p o r x data = some o') : o'.wf p := by
  obtain ⟨hv, hs, hp, hm, hc, hb⟩ := h
  cases r with
  | v i =>
    simp only [writeData, Option.ite_none_right_eq_some, Option.some.injEq] at hw
    obtain ⟨-, rfl⟩ := hw
    exact ⟨forall_getElem_set (P := fun y : List Bool => y.length ≤ p.nMax) hv (by simpa using hv i),
      hs, hp, hm, hc, hb⟩
  | s i =>
    simp only [writeData, Option.dite_none_right_eq_some, Option.some.injEq] at hw
    obtain ⟨-, rfl⟩ := hw
    exact ⟨hv, forall_getElem_set (P := fun y : List F64 => y.length ≤ p.nMax) hs (by simpa using hs i),
      hp, hm, hc, hb⟩
  | p i =>
    simp only [writeData, Option.ite_none_right_eq_some, Option.some.injEq] at hw
    obtain ⟨-, rfl⟩ := hw
    exact ⟨hv, hs, forall_getElem_set (P := fun y : List Word => y.length ≤ p.nMax) hp (by simpa using hp i),
      hm, hc, hb⟩
  | m i =>
    simp only [writeData, Option.ite_none_right_eq_some, Option.some.injEq] at hw
    obtain ⟨⟨hr, -⟩, rfl⟩ := hw
    refine ⟨hv, hs, hp, forall_getElem_set (P := fun y : Matrix => y.wf p) hm (setRow_wf (hm i) ?_), hc, hb⟩
    rw [unpackBits_length]
    have : o.m[i].row (x / p.wordsPerRow) ∈ o.m[i].rows := by
      have hr' : x / p.wordsPerRow < o.m[i].rows.length := hr
      simp only [Matrix.row, List.getD_eq_getElem?_getD, List.getElem?_eq_getElem hr', Option.getD_some]
      exact List.getElem_mem hr'
    exact (hm i).2.2 _ this
  | c => simp [writeData] at hw
  | b =>
    simp only [writeData, Option.ite_none_right_eq_some, Option.some.injEq] at hw
    obtain ⟨-, rfl⟩ := hw
    exact ⟨hv, hs, hp, hm, hc, by simpa using hb⟩

/-- A write of an attribute word that the port accepts keeps the store's form. -/
theorem writeAttr_wf {p : Params} {o o' : ObjectStore} {r : ObjRef} {x : Nat} {data : Word} (h : o.wf p)
    (hw : writeAttr p o r x data = some o') : o'.wf p := by
  obtain ⟨hv, hs, hp, hm, hc, hb⟩ := h
  simp only [writeAttr] at hw
  split at hw
  · rename_i i
    simp only [Option.ite_none_right_eq_some, Option.some.injEq] at hw
    obtain ⟨hn, rfl⟩ := hw
    exact ⟨forall_getElem_set (P := fun y : List Bool => y.length ≤ p.nMax) hv (by simpa using hn), hs, hp, hm, hc, hb⟩
  · simp only [Option.ite_none_right_eq_some, Option.some.injEq] at hw
    obtain ⟨hn, rfl⟩ := hw
    exact ⟨hv, forall_getElem_set (P := fun y : List F64 => y.length ≤ p.nMax) hs (by simpa using hn), hp, hm, hc, hb⟩
  · simp only [Option.ite_none_right_eq_some, Option.some.injEq] at hw
    obtain ⟨hn, rfl⟩ := hw
    exact ⟨hv, hs, forall_getElem_set (P := fun y : List Word => y.length ≤ p.nMax) hp (by simpa using hn), hm, hc, hb⟩
  · simp only [Option.ite_none_right_eq_some, Option.some.injEq] at hw
    obtain ⟨hn, rfl⟩ := hw
    exact ⟨hv, hs, hp, hm, hc, by simpa using hn⟩
  · rename_i i
    simp only [Option.ite_none_right_eq_some, Option.some.injEq] at hw
    obtain ⟨hn, rfl⟩ := hw
    exact ⟨hv, hs, hp, forall_getElem_set (P := fun y : Matrix => y.wf p) hm (resizeRows_wf (hm i) hn), hc, hb⟩
  · rename_i i
    simp only [Option.ite_none_right_eq_some, Option.some.injEq] at hw
    obtain ⟨hn, rfl⟩ := hw
    exact ⟨hv, hs, hp, forall_getElem_set (P := fun y : Matrix => y.wf p) hm (resizeCols_wf (hm i) hn), hc, hb⟩
  · simp at hw

/-- Every write the access port accepts keeps the store's form. -/
theorem portWrite_wf {p : Params} {o o' : ObjectStore} {id : ObjId} {part : Bool} {x : Nat} {data : Word}
    (h : o.wf p) (hw : portWrite p o id part x data = some o') : o'.wf p := by
  unfold portWrite at hw
  split at hw
  · simp at hw
  · split at hw
    · exact writeAttr_wf h hw
    · exact writeData_wf h hw

end Sys2Proof.Machine
end

