-- ==== Sys2Proof/Laws/Access.lean ====
section
/-! SUPPORT. What a host access can do, said once: the two outcomes of an access-port transfer, and, for every read and
write of a register, what it may change. -/

namespace Sys2Proof.Machine

/-- An idle `ACC_DATA` read answers a word of the store, or 0 with `AERR`; `ACC_IDX` advances either way. -/
theorem readAccData_cases (s : State) :
    (∃ v, portRead s.params s.store s.regs.accObj s.regs.accPart s.regs.accIdx.toNat = some v ∧
        readAccData s = (v, { s with regs := { s.regs with accIdx := s.regs.accIdx + 1#32 } })) ∨
      (portRead s.params s.store s.regs.accObj s.regs.accPart s.regs.accIdx.toNat = none ∧
        readAccData s = (0#32, { s with regs := { s.regs with accIdx := s.regs.accIdx + 1#32, aerr := true } })) := by
  unfold readAccData
  cases h : portRead s.params s.store s.regs.accObj s.regs.accPart s.regs.accIdx.toNat with
  | none => exact .inr ⟨rfl, rfl⟩
  | some v => exact .inl ⟨v, rfl, rfl⟩

/-- An idle `ACC_DATA` write stores its word, or sets `AERR`; `ACC_IDX` advances either way. -/
theorem writeAccData_cases (s : State) (d : Word) :
    (∃ o, portWrite s.params s.store s.regs.accObj s.regs.accPart s.regs.accIdx.toNat d = some o ∧
        writeAccData s d = { s with store := o, regs := { s.regs with accIdx := s.regs.accIdx + 1#32 } }) ∨
      (portWrite s.params s.store s.regs.accObj s.regs.accPart s.regs.accIdx.toNat d = none ∧
        writeAccData s d = { s with regs := { s.regs with accIdx := s.regs.accIdx + 1#32, aerr := true } }) := by
  unfold writeAccData
  cases h : portWrite s.params s.store s.regs.accObj s.regs.accPart s.regs.accIdx.toNat d with
  | none => exact .inr ⟨rfl, rfl⟩
  | some o => exact .inl ⟨o, rfl, rfl⟩

/-- A register read changes at most `AERR`, `ACC_IDX` and the count of free values. -/
theorem readReg_state (s : State) (r : Reg) :
    ∃ a i n, (readReg s r).2 = { s with regs := { s.regs with aerr := a, accIdx := i }, draws := n } := by
  cases r <;> simp only [readReg] <;> try exact ⟨s.regs.aerr, s.regs.accIdx, s.draws, rfl⟩
  · split
    · exact ⟨s.regs.aerr, s.regs.accIdx, s.draws + 1, rfl⟩
    · exact ⟨s.regs.aerr, s.regs.accIdx, s.draws, rfl⟩
  · split
    · exact ⟨s.regs.aerr, s.regs.accIdx, s.draws + 1, rfl⟩
    · exact ⟨s.regs.aerr, s.regs.accIdx, s.draws, rfl⟩
  · split
    · exact ⟨true, s.regs.accIdx, s.draws + 1, rfl⟩
    · rcases readAccData_cases s with ⟨v, -, h⟩ | ⟨-, h⟩
      · exact ⟨s.regs.aerr, s.regs.accIdx + 1#32, s.draws, by rw [h]⟩
      · exact ⟨true, s.regs.accIdx + 1#32, s.draws, by rw [h]⟩
  · exact ⟨true, s.regs.accIdx, s.draws, rfl⟩
  · exact ⟨true, s.regs.accIdx, s.draws, rfl⟩

/-- A host read changes at most `AERR`, `ACC_IDX` and the count of free values. -/
theorem hostRead_state (s : State) (addr : Nat) (w : Width) :
    ∃ a i n, (hostRead s addr w).2 = { s with regs := { s.regs with aerr := a, accIdx := i }, draws := n } := by
  unfold hostRead
  split
  · exact readReg_state s _
  · exact ⟨true, s.regs.accIdx, s.draws, rfl⟩
  · exact ⟨s.regs.aerr, s.regs.accIdx, s.draws + 1, rfl⟩

/-- What a `CTRL` write can do: the reset state of the engine, or at most `AERR` cleared. -/
theorem writeCtrl_cases (s : State) (d : Word) :
    (d.getLsbD 0 = true ∧ writeCtrl s d = s.engineReset) ∨
      (d.getLsbD 0 = false ∧
        writeCtrl s d = { s with regs := { s.regs with aerr := s.regs.aerr && !d.getLsbD 1 } }) := by
  unfold writeCtrl
  cases h0 : d.getLsbD 0 <;> cases h1 : d.getLsbD 1 <;> simp [State.engineReset]

/-- A write of a register other than `CTRL` changes nothing but `AERR`, or it is an idle write of one of the six
registers that take one. -/
theorem writeReg_cases (s : State) (r : Reg) (d : Word) (hr : r ≠ .ctrl) :
    writeReg s r d = s.setAerr ∨
      (s.regs.busy = false ∧
        (writeReg s r d = issue s d
          ∨ writeReg s r d = { s with regs := { s.regs with arg0 := d } }
          ∨ writeReg s r d = { s with regs := { s.regs with arg1 := d } }
          ∨ writeReg s r d = { s with regs := { s.regs with accObj := d.extractLsb' 0 5, accPart := d.getLsbD 8 } }
          ∨ writeReg s r d = { s with regs := { s.regs with accIdx := d } }
          ∨ writeReg s r d = writeAccData s d)) := by
  cases r <;> simp only [writeReg, true_or] <;> first | exact absurd rfl hr | (cases s.regs.busy <;> simp)

end Sys2Proof.Machine
end

