-- ==== Sys2Proof/Laws/AccessPort.lean ====
section
/-! SUPPORT. The access port's words, element by element: which element each bit, half or byte of a packed word is, and
what storing a word leaves at each place of a sequence. -/

namespace Sys2Proof.Machine

theorem testBit_foldBits (f : Nat → Bool) (n k j : Nat) :
    ((List.range' k n).foldr (fun i a => 2 * a + (f i).toNat) 0).testBit j = (decide (j < n) && f (k + j)) := by
  induction n generalizing k j with
  | zero => simp
  | succ n ih =>
    rw [List.range'_succ, List.foldr_cons]
    cases j with
    | zero => cases f k <;> simp [Nat.testBit_zero, Nat.add_mod]
    | succ j =>
      have hd : ∀ a, (2 * a + (f k).toNat) / 2 = a := by intro a; cases f k <;> (simp; try omega)
      rw [Nat.testBit_succ, hd, ih]
      simp [Nat.add_comm, Nat.add_left_comm]

/-- R77: bit `j` of the word is element `32x + j`, 0 beyond the end. -/
theorem packBits_getLsbD (x : List Bool) (word j : Nat) :
    (packBits x word).getLsbD j = (decide (j < 32) && x.getD (32 * word + j) false) := by
  have h := testBit_foldBits (fun i => x.getD (32 * word + i) false) 32 0 j
  rw [packBits, List.range_eq_range', BitVec.getLsbD_ofNat, h]
  simp only [Nat.zero_add]
  cases decide (j < 32) <;> simp

/-- R77: element `32x + j` takes bit `j` of the word, every other element stays. -/
theorem unpackBits_getD (x : List Bool) (word : Nat) (data : Word) (e : Nat) :
    (unpackBits x word data).getD e false =
      if e < x.length ∧ e / 32 = word then data.getLsbD (e % 32) else x.getD e false := by
  rw [unpackBits, List.getD_eq_getElem?_getD, List.getElem?_mapIdx, List.getD_eq_getElem?_getD]
  by_cases h : e < x.length
  · by_cases g : e / 32 = word <;> simp [h, g]
  · simp [h]

/-- A field of an appended word that lies wholly in its low part, or wholly in its high part. -/
theorem extract_append_low {m n : Nat} (a : BitVec m) (b : BitVec n) (lo len : Nat) (h : lo + len ≤ n) :
    (a ++ b).extractLsb' lo len = b.extractLsb' lo len := by
  apply BitVec.eq_of_getLsbD_eq
  intro i hi
  simp [BitVec.getLsbD_append, hi, show lo + i < n by omega]

theorem extract_append_high {m n : Nat} (a : BitVec m) (b : BitVec n) (lo len : Nat) (h : n ≤ lo) :
    (a ++ b).extractLsb' lo len = a.extractLsb' (lo - n) len := by
  apply BitVec.eq_of_getLsbD_eq
  intro i hi
  simp [BitVec.getLsbD_append, hi, show ¬ lo + i < n by omega, show lo + i - n = lo - n + i by omega]

theorem extract_all {n : Nat} (a : BitVec n) : a.extractLsb' 0 n = a := by
  apply BitVec.eq_of_getLsbD_eq
  intro i hi
  simp [hi]

/-- R79: byte `k` of the word is byte `4x + k` of the buffer, 0 beyond the end. -/
theorem packBytes_extract (x : List Byte) (word k : Nat) (hk : k < 4) :
    (packBytes x word).extractLsb' (8 * k) 8 = x.getD (4 * word + k) 0#8 := by
  have h : ∀ a b c d : Byte,
      (a ++ b ++ c ++ d).extractLsb' 0 8 = d ∧ (a ++ b ++ c ++ d).extractLsb' 8 8 = c
        ∧ (a ++ b ++ c ++ d).extractLsb' 16 8 = b ∧ (a ++ b ++ c ++ d).extractLsb' 24 8 = a := by
    intro a b c d
    refine ⟨?_, ?_, ?_, ?_⟩
    · rw [extract_append_low _ _ _ _ (by omega), extract_all]
    · rw [extract_append_high _ _ _ _ (by omega), extract_append_low _ _ _ _ (by omega), extract_all]
    · rw [extract_append_high _ _ _ _ (by omega), extract_append_high _ _ _ _ (by omega),
        extract_append_low _ _ _ _ (by omega), extract_all]
    · rw [extract_append_high _ _ _ _ (by omega), extract_append_high _ _ _ _ (by omega),
        extract_append_high _ _ _ _ (by omega), extract_all]
  obtain ⟨h0, h1, h2, h3⟩ := h (x.getD (4 * word + 3) 0#8) (x.getD (4 * word + 2) 0#8) (x.getD (4 * word + 1) 0#8)
    (x.getD (4 * word) 0#8)
  match k, hk with
  | 0, _ => exact h0
  | 1, _ => exact h1
  | 2, _ => exact h2
  | 3, _ => exact h3

/-- R79: byte `4x + k` of the buffer takes byte `k` of the word, every other byte stays. -/
theorem unpackBytes_getD (x : List Byte) (word : Nat) (data : Word) (e : Nat) :
    (unpackBytes x word data).getD e 0#8 =
      if e < x.length ∧ e / 4 = word then data.extractLsb' (8 * (e % 4)) 8 else x.getD e 0#8 := by
  rw [unpackBytes, List.getD_eq_getElem?_getD, List.getElem?_mapIdx, List.getD_eq_getElem?_getD]
  by_cases h : e < x.length
  · by_cases g : e / 4 = word <;> simp [h, g]
  · simp [h]

/-- R79: storing a half replaces it and keeps the other. -/
theorem setF64Half_halves (x : F64) (h : Nat) (data : Word) :
    (setF64Half x h data).extractLsb' 0 32 = (if h = 0 then data else x.extractLsb' 0 32)
      ∧ (setF64Half x h data).extractLsb' 32 32 = (if h = 0 then x.extractLsb' 32 32 else data) := by
  have hc : ∀ a b : Word, (a ++ b).extractLsb' 0 32 = b ∧ (a ++ b).extractLsb' 32 32 = a := fun a b =>
    ⟨by rw [extract_append_low _ _ _ _ (by omega), extract_all],
      by rw [extract_append_high _ _ _ _ (by omega), extract_all]⟩
  unfold setF64Half
  by_cases g : h = 0
  · simpa only [g, if_true] using hc _ _
  · simpa only [g, if_false] using hc _ _

end Sys2Proof.Machine
end

