-- ==== Sys2Proof/Laws/Encoding.lean ====
section
/-! SUPPORT. The small lemmas of the encoding: ids and objects, opcodes and codes, the fields of a packed word. -/

namespace Sys2Proof

@[simp] theorem ofId_id (r : ObjRef) : ObjRef.ofId r.id = some r := by
  cases r with
  | v i => revert i; decide
  | s i => revert i; decide
  | p i => revert i; decide
  | m i => revert i; decide
  | c => decide
  | b => decide

/-- An id that names an object is that object's id. -/
theorem id_of_ofId {id : ObjId} {r : ObjRef} (h : ObjRef.ofId id = some r) : r.id = id := by
  have all : ∀ x : ObjId, ∀ o ∈ ObjRef.ofId x, o.id = x := by decide
  exact all id r h

@[simp] theorem ofCode_code (op : Opcode) : Opcode.ofCode op.code = some op := by cases op <;> rfl

/-- A code that names an opcode is that opcode's code. -/
theorem code_of_ofCode {c : BitVec 8} {op : Opcode} (h : Opcode.ofCode c = some op) : op.code = c := by
  have all : ∀ x : BitVec 8, ∀ o ∈ Opcode.ofCode x, o.code = x := by decide
  exact all c op h

@[simp] theorem opField_packWord (op : Opcode) (fd fa fb : ObjId) : opField (packWord op fd fa fb) = op.code := by
  ext i hi; simp only [opField, packWord]; simp; grind

@[simp] theorem fdField_packWord (op : Opcode) (fd fa fb : ObjId) : fdField (packWord op fd fa fb) = fd := by
  ext i hi; simp only [fdField, packWord]; simp; grind

@[simp] theorem faField_packWord (op : Opcode) (fd fa fb : ObjId) : faField (packWord op fd fa fb) = fa := by
  ext i hi; simp only [faField, packWord]; simp; grind

@[simp] theorem fbField_packWord (op : Opcode) (fd fa fb : ObjId) : fbField (packWord op fd fa fb) = fb := by
  ext i hi; simp only [fbField, packWord]; simp; grind

@[simp] theorem rsvField_packWord (op : Opcode) (fd fa fb : ObjId) : rsvField (packWord op fd fa fb) = 0#9 := by
  ext i hi; simp only [rsvField, packWord]; simp; grind

/-- A word is its five fields. -/
theorem word_fields (w : Word) : opField w ++ fdField w ++ faField w ++ fbField w ++ rsvField w = w := by
  ext i hi; simp only [opField, fdField, faField, fbField, rsvField]; simp; grind

@[simp] theorem asV_id (i : VId) : ObjId.asV (ObjRef.v i).id = some i := by simp [ObjId.asV]
@[simp] theorem asS_id (i : SId) : ObjId.asS (ObjRef.s i).id = some i := by simp [ObjId.asS]
@[simp] theorem asP_id (i : PId) : ObjId.asP (ObjRef.p i).id = some i := by simp [ObjId.asP]
@[simp] theorem asM_id (i : MId) : ObjId.asM (ObjRef.m i).id = some i := by simp [ObjId.asM]
@[simp] theorem asX_id (x : SeqRef) : ObjId.asX x.toObj.id = some x := by cases x <;> simp [ObjId.asX, SeqRef.toObj]

end Sys2Proof
end

