-- ==== Sys2Proof/Laws/PerInstr.lean ====
section
/-! SUPPORT. Statements for all instructions, one lemma per constructor of `Instr`. -/

namespace Sys2Proof.Laws

/-- Every command encodes to a word of an assigned opcode whose reserved bits are 0 (R100, R104). -/
def EncodesInTheMap.Statement (i : Instr) : Prop :=
  (Opcode.ofCode (opField (encode i))).isSome = true ∧ rsvField (encode i) = 0#9

theorem EncodesInTheMap.vadd (fd fa fb : VId) : EncodesInTheMap.Statement (.vadd fd fa fb) := by
  simp [EncodesInTheMap.Statement, encode]
theorem EncodesInTheMap.veq (fa fb : VId) : EncodesInTheMap.Statement (.veq fa fb) := by
  simp [EncodesInTheMap.Statement, encode]
theorem EncodesInTheMap.vparse (fd : VId) : EncodesInTheMap.Statement (.vparse fd) := by
  simp [EncodesInTheMap.Statement, encode]
theorem EncodesInTheMap.vmul (fd fa : VId) (fb : MId) : EncodesInTheMap.Statement (.vmul fd fa fb) := by
  simp [EncodesInTheMap.Statement, encode]
theorem EncodesInTheMap.gauss (fd fa : MId) (fb : PId) : EncodesInTheMap.Statement (.gauss fd fa fb) := by
  simp [EncodesInTheMap.Statement, encode]
theorem EncodesInTheMap.pinv (fd fa : PId) : EncodesInTheMap.Statement (.pinv fd fa) := by
  simp [EncodesInTheMap.Statement, encode]
theorem EncodesInTheMap.papply (fd : SeqRef) (fa : PId) (fb : SeqRef) :
    EncodesInTheMap.Statement (.papply fd fa fb) := by
  simp [EncodesInTheMap.Statement, encode]
theorem EncodesInTheMap.pcols (fd fa : MId) (fb : PId) : EncodesInTheMap.Statement (.pcols fd fa fb) := by
  simp [EncodesInTheMap.Statement, encode]
theorem EncodesInTheMap.cinit : EncodesInTheMap.Statement .cinit := by
  simp [EncodesInTheMap.Statement, encode]
theorem EncodesInTheMap.cadv : EncodesInTheMap.Statement .cadv := by
  simp [EncodesInTheMap.Statement, encode]
theorem EncodesInTheMap.decode (fd : VId) (fa : SId) (fb : MId) : EncodesInTheMap.Statement (.decode fd fa fb) := by
  simp [EncodesInTheMap.Statement, encode]

end Sys2Proof.Laws
end

