-- ==== Sys2Proof/Laws/Turns.lean ====
section
/-! SUPPORT. What one step can do, said once, and the equations of the turns. -/

namespace Sys2Proof.Machine

@[simp] theorem nextTurn_params (s : State) : (nextTurn s).2.params = s.params := by unfold nextTurn; split <;> rfl
@[simp] theorem nextTurn_store (s : State) : (nextTurn s).2.store = s.store := by unfold nextTurn; split <;> rfl
@[simp] theorem nextTurn_regs (s : State) : (nextTurn s).2.regs = s.regs := by unfold nextTurn; split <;> rfl
@[simp] theorem nextTurn_host (s : State) : (nextTurn s).2.host = s.host := by unfold nextTurn; split <;> rfl
@[simp] theorem nextTurn_draws (s : State) : (nextTurn s).2.draws = s.draws := by unfold nextTurn; split <;> rfl
@[simp] theorem nextTurn_turns (s : State) : (nextTurn s).2.turns = s.turns.tail := by
  unfold nextTurn; split <;> simp_all

/-- The one inversion lemma of the step: a host line, a completed command, an illegal word's error, an idle turn, or
the reset input. -/
theorem step_cases {s t : State} (h : step s = .next t) :
    ((nextTurn s).1 = .host ∧ t = hostStep (nextTurn s).2) ∨
      ((nextTurn s).1 = .engine ∧ s.regs.busy = true ∧
        ((∃ i, decode s.regs.pend = .ok i ∧ exec i (nextTurn s).2 = .next t) ∨
          (∃ e, decode s.regs.pend = .error e ∧ t = (nextTurn s).2.finish (decodeErrCode e)))) ∨
      ((nextTurn s).1 = .engine ∧ s.regs.busy = false ∧ t = (nextTurn s).2) ∨
      ((nextTurn s).1 = .resetInput ∧ t = (nextTurn s).2.engineReset) := by
  unfold step at h
  cases hn : (nextTurn s).1 with
  | host => rw [hn] at h; simp only [takeTurn, Host.Outcome.next.injEq] at h; exact .inl ⟨rfl, h.symm⟩
  | resetInput =>
    rw [hn] at h; simp only [takeTurn, Host.Outcome.next.injEq] at h
    exact .inr (.inr (.inr ⟨rfl, h.symm⟩))
  | engine =>
    rw [hn] at h
    simp only [takeTurn, nextTurn_regs] at h
    cases hb : s.regs.busy with
    | false =>
      simp only [hb, Bool.false_eq_true, if_false, Host.Outcome.next.injEq] at h
      exact .inr (.inr (.inl ⟨rfl, rfl, h.symm⟩))
    | true =>
      simp only [hb, if_true, completionStep, nextTurn_regs] at h
      refine .inr (.inl ⟨rfl, rfl, ?_⟩)
      cases hd : decode s.regs.pend with
      | ok i => rw [hd] at h; exact .inl ⟨i, rfl, h⟩
      | error e => rw [hd] at h; exact .inr ⟨e, rfl, raiseError_eq_next.1 h⟩

/-- What a host line does: a read, a write, or a branch inside the host. -/
theorem hostStep_cases (s : State) :
    (s.host.script[s.host.line]? = none ∧ hostStep s = s) ∨
      ∃ l, s.host.script[s.host.line]? = some l ∧ hostStep s = runHostLine s l.op := by
  unfold hostStep
  cases h : s.host.script[s.host.line]? with
  | none => exact .inl ⟨rfl, rfl⟩
  | some l => exact .inr ⟨l, rfl, rfl⟩

end Sys2Proof.Machine
end

