-- ==== Sys2Proof/Tests/Slice0.lean ====
section
/-! SUPPORT. The model's own tests. Expected results are those of spec/95_test_vectors.md (the vector's name stands
beside the test) or are worked by hand from the rules. Then, for every statement with hypotheses, a witness: a concrete
state and operands that meet them, one for each clause. -/

namespace Sys2Proof.Tests

open Sys2Proof Sys2Proof.Machine

/-! One theorem after another: each holds its own thread while the kernel evaluates it. -/
set_option Elab.async false

/-! Helpers -/

/-- The reset state in the reference configuration REF of R7 (`BASE` 0x40, to see it added). -/
def ref : State := { State.reset with params := { nMax := 16, kMax := 8, base := 0x40 } }

/-- The `len` elements of a bit vector from its port word (R77). -/
def bits (word len : Nat) : List Bool := (List.range len).map fun j => word.testBit j

/-- A matrix from the port words of its rows. -/
def mat (cols : Nat) (words : List Nat) : Matrix := { cols := cols, rows := words.map fun w => bits w cols }

/-- The matrix `G7` of 95_test_vectors.md. -/
def g7 : Matrix := mat 7 [0x31, 0x52, 0x64, 0x78]

/-- What a command leaves, looked at by `f`; none if it stops. -/
def after {α : Type} (i : Instr) (s : State) (f : State → α) : Option α :=
  match exec i s with
  | .next t => some (f t)
  | .fault _ => none
  | .refused _ => none

/-- What a step leaves, looked at by `f`. -/
def stepped {α : Type} (s : State) (f : State → α) : Option α :=
  match step s with
  | .next t => some (f t)
  | .fault _ => none
  | .refused _ => none

/-- `s` with a command pending. -/
def pending (w : Word) (s : State) : State := issue s w

/-- `s` with `ARG0` and `ARG1` written. -/
def args (a0 a1 : Nat) (s : State) : State :=
  { s with regs := { s.regs with arg0 := BitVec.ofNat 32 a0, arg1 := BitVec.ofNat 32 a1 } }

/-! Well-formedness and decoding -/

theorem test_wellFormed_refuses_two_classes : (Instr.papply (.v 0) 0 (.s 0)).wellFormed = false := by decide

/-- T-PAPPLY-7, as a term: R183's class check. -/
theorem test_papply_of_two_classes :
    after (.papply (.v 0) 0 (.s 0)) ref (fun t => t.regs.err) = some .illegalOperand := by decide +kernel

-- op, fd, fa, fb, rsv written out bit by bit (R100, R104, R33)
theorem test_decode_vadd : decode 0b00000001_00010_00000_00001_000000000#32 = .ok (.vadd 2 0 1) := by rfl
theorem test_decode_veq : decode 0b00000010_00000_00110_00111_000000000#32 = .ok (.veq 6 7) := by rfl
theorem test_decode_vparse : decode 0b00000011_00111_10011_00000_000000000#32 = .ok (.vparse 7) := by rfl
theorem test_decode_vmul : decode 0b00000100_00101_00100_10001_000000000#32 = .ok (.vmul 5 4 1) := by rfl
theorem test_decode_gauss : decode 0b00010000_10001_10000_01110_000000000#32 = .ok (.gauss 1 0 2) := by rfl
theorem test_decode_pinv : decode 0b00100000_01101_01100_00000_000000000#32 = .ok (.pinv 1 0) := by rfl
theorem test_decode_papply_v : decode 0b00100001_00001_01100_00011_000000000#32 = .ok (.papply (.v 1) 0 (.v 3)) := by
  rfl
theorem test_decode_papply_s : decode 0b00100001_01001_01100_01011_000000000#32 = .ok (.papply (.s 1) 0 (.s 3)) := by
  rfl
theorem test_decode_papply_p : decode 0b00100001_01110_01100_01101_000000000#32 = .ok (.papply (.p 2) 0 (.p 1)) := by
  rfl
theorem test_decode_pcols : decode 0b00100010_10001_10000_01101_000000000#32 = .ok (.pcols 1 0 1) := by rfl
theorem test_decode_cinit : decode 0b00110000_00000_00000_00000_000000000#32 = .ok .cinit := by rfl
theorem test_decode_cadv : decode 0b00110001_00000_00000_00000_000000000#32 = .ok .cadv := by rfl
theorem test_decode_decode : decode 0b01000000_00011_01010_10001_000000000#32 = .ok (.decode 3 2 1) := by rfl

/-- T-ERR-1, T-ERR-2, T-ERR-3: reserved opcodes, before any operand check. -/
theorem test_decode_reserved_opcodes :
    ∀ w ∈ [0x00000000#32, 0x05000000#32, 0x11000000#32, 0x32000000#32, 0x41000000#32, 0xFF000000#32, 0xFF000001#32],
      decode w = .error .illegalOpcode := by
  simp only [List.forall_mem_cons, List.not_mem_nil, false_implies, implies_true, and_true]
  exact ⟨rfl, rfl, rfl, rfl, rfl, rfl, rfl⟩

/-- T-VADD-5, T-VADD-6, T-VEQ-5, T-VPARSE-6, T-GAUSS-13, T-PINV-7, T-PAPPLY-7, T-COMB-9, T-DEC-3 (its last). -/
theorem test_decode_illegal_operands :
    ∀ w ∈ [0x01001000#32, 0x01000001#32, 0x02080200#32, 0x03000000#32, 0x10941800#32, 0x206B1C00#32, 0x21031000#32,
        0x30080000#32, 0x40112000#32], decode w = .error .illegalOperand := by
  simp only [List.forall_mem_cons, List.not_mem_nil, false_implies, implies_true, and_true]
  exact ⟨rfl, rfl, rfl, rfl, rfl, rfl, rfl, rfl, rfl⟩

theorem test_table_word_first_after_reset :
    stepped (State.reset.withFetchWord 32 0x22840000) (fun t => t.regs.err) = some .illegalOperand := by decide

/-! GF(2) commands -/

/-- T-VADD-1. -/
theorem test_vadd_xors :
    after (.vadd 2 0 1) ((ref.setV 0 (bits 0x3 4)).setV 1 (bits 0x5 4)) (fun t => (t.store.v[2], t.regs.err))
      = some (bits 0x6 4, .ok) := by decide +kernel

/-- T-VADD-4. -/
theorem test_vadd_lengths :
    after (.vadd 2 0 1) ((ref.setV 0 (bits 0x3 3)).setV 1 (bits 0x3 4)) (fun t => (t.store.v[2], t.regs.err))
      = some ([], .lengthMismatch) := by decide +kernel

/-- T-VEQ-1, with `RES` 0 before. -/
theorem test_veq_equal :
    after (.veq 0 1) ((ref.setV 0 (bits 0x6 4)).setV 1 (bits 0x6 4)) (fun t => t.regs.status) = some 2#32 := by
  decide +kernel

/-- T-VEQ-4: `RES` stays 1. -/
theorem test_veq_lengths_keep_res :
    after (.veq 0 1) (((ref.setV 0 (bits 2 2)).setV 1 (bits 6 3)).setRes true) (fun t => t.regs.status)
      = some 0x402#32 := by decide +kernel

/-- T-VPARSE-1. -/
theorem test_vparse_reads_bits :
    after (.vparse 2) (ref.setB [0x31, 0x30, 0x31, 0x31]) (fun t => t.store.v[2]) = some (bits 0xD 4) := by
  decide +kernel

/-- T-VPARSE-3. -/
theorem test_vparse_refuses_a_letter :
    after (.vparse 2) (ref.setB [0x31, 0x30, 0x61, 0x31]) (fun t => t.regs.err) = some .invalidInput := by
  decide +kernel

/-- T-VMUL-2. -/
theorem test_vmul_encodes :
    after (.vmul 1 0 0) ((ref.setV 0 (bits 0xD 4)).setM 0 g7) (fun t => t.store.v[1]) = some (bits 0x2D 7) := by
  decide +kernel

/-- T-VMUL-5. -/
theorem test_vmul_of_an_empty_matrix :
    after (.vmul 1 0 0) (ref.setM 0 { cols := 3, rows := [] }) (fun t => t.regs.err) = some .lengthMismatch := by
  decide +kernel

/-! Elimination and permutations -/

/-- T-GAUSS-1: add, do not swap. -/
theorem test_gauss_adds_instead_of_swapping :
    after (.gauss 1 0 0) (ref.setM 0 (mat 3 [6, 5])) (fun t => (t.store.m[1], t.store.p[0]))
      = some (mat 3 [5, 6], [0#32, 1#32]) := by decide +kernel

/-- T-GAUSS-9. -/
theorem test_gauss_rank :
    after (.gauss 1 0 0) (ref.setM 0 (mat 4 [3, 12, 15])) (fun t => (t.store.m[1].rowCount, t.regs.err))
      = some (0, .rankDeficiency) := by decide +kernel

/-- T-PINV-2. -/
theorem test_pinv_inverts :
    after (.pinv 1 0) (ref.setP 0 [1, 2, 0, 3, 4, 6, 5]) (fun t => t.store.p[1]) = some [2, 0, 1, 3, 4, 6, 5] := by
  decide +kernel

/-- T-PINV-5. -/
theorem test_pinv_range :
    after (.pinv 1 0) (ref.setP 0 [1, 2]) (fun t => t.regs.err) = some .invalidPermutation := by decide +kernel

/-- T-PAPPLY-3: patterns move unchanged. -/
theorem test_papply_moves_patterns :
    after (.papply (.s 1) 0 (.s 0))
      ((ref.setP 0 [2, 0, 1]).setS 0 [0x8000000000000000, 0x7FF8000000000001, 0x3FF0000000000000])
      (fun t => t.store.s[1]) = some [0x7FF8000000000001, 0x3FF0000000000000, 0x8000000000000000] := by
  decide +kernel

/-- T-PAPPLY-6: length before bijection. -/
theorem test_papply_length_first :
    after (.papply (.v 1) 0 (.v 0)) ((ref.setP 0 [0, 0]).setV 0 (bits 1 3)) (fun t => t.regs.err)
      = some .lengthMismatch := by decide +kernel

/-- T-PCOLS-2. -/
theorem test_pcols_permutes_rows :
    after (.pcols 1 0 1) ((ref.setM 0 g7).setP 1 [2, 0, 1, 3, 4, 6, 5]) (fun t => t.store.m[1])
      = some (mat 7 [0x54, 0x31, 0x62, 0x78]) := by decide +kernel

/-- T-PCOLS-3. -/
theorem test_pcols_of_an_empty_matrix :
    after (.pcols 1 0 1) ((ref.setM 0 { cols := 5, rows := [] }).setP 1 [0, 0])
      (fun t => (t.store.m[1], t.regs.err)) = some ({ cols := 5, rows := [] }, .ok) := by decide +kernel

/-! The enumerator -/

/-- R200's example. -/
theorem test_cinit :
    after .cinit (args 2 4 ref) (fun t => t.store.c) = some { w := 2, n := 4, state := [0, 1, 4] } := by
  decide +kernel

/-- T-COMB-8. -/
theorem test_cinit_capacity : after .cinit (args 0 17 ref) (fun t => t.regs.err) = some .argRange := by decide +kernel

/-- T-COMB-10. -/
theorem test_cadv_carries :
    after .cadv (ref.setC { w := 2, n := 4, state := [0, 3, 4] }) (fun t => (t.store.c.state, t.regs.res))
      = some ([1, 2, 4], true) := by decide +kernel

/-- R201's example of exhaustion. -/
theorem test_cadv_exhausted :
    after .cadv ((ref.setC { w := 2, n := 4, state := [2, 3, 4] }).setRes true)
      (fun t => (t.store.c.state, t.regs.res)) = some ([2, 3, 4], false) := by decide +kernel

/-! The decoder -/

/-- The samples of T-DEC-2. -/
def samples2 : List F64 :=
  [0xBFE8000000000000, 0x3FF0000000000000, 0xBFEC000000000000, 0x3FE4000000000000, 0x3FE0000000000000,
   0xBFD0000000000000, 0x3FD8000000000000]

/-- T-DEC-2 with `w_max` 1. -/
theorem test_decode_corrects_one_error :
    after (.decode 0 0 0) (args 1 0 ((ref.setM 0 g7).setS 0 samples2)) (fun t => (t.store.v[0], t.regs.metric))
      = some (bits 0x2D 7, 0x3FE4000000000000) := by decide +kernel

/-- T-MET-3: the order of the sum decides. -/
theorem test_decode_sums_in_order :
    after (.decode 0 0 0)
      (args 1 0 ((ref.setM 0 (mat 4 [15])).setS 0
        [0x3FF0000000000000, 0xBFF0000000000000, 0xBCA0000000000000, 0xBCA0000000000000]))
      (fun t => (t.store.v[0], t.regs.metric)) = some (bits 0 4, 0x3FF0000000000000) := by decide +kernel

/-- T-DEC-7: 0.2 + 0.1 rounds up. -/
theorem test_fadd_rounds : fadd 0x3FC999999999999A 0x3FB999999999999A = 0x3FD3333333333334 := by decide +kernel

/-- R13: the largest finite value and half a unit in its last place (2^970) overflow. -/
theorem test_fadd_overflows : fadd 0x7FEFFFFFFFFFFFFF 0x7C90000000000000 = 0x7FF0000000000000 := by decide +kernel

/-- R13, R221: signs of zero. -/
theorem test_zero_signs :
    lt0 0x8000000000000000 = false ∧ fabs 0x8000000000000000 = 0#64 ∧ lt0 0xFFF0000000000000 = true
      ∧ feq 0x8000000000000000 0#64 = true ∧ fadd 0x3FF0000000000000 0xBFF0000000000000 = 0#64
      ∧ fadd 0x8000000000000000 0x8000000000000000 = 0x8000000000000000 := by decide +kernel

/-! Registers and the access port -/

/-- T-ACC-3 and T-ACC-4: a word of a 5-bit vector, then an index beyond it. -/
theorem test_port_masks_and_refuses :
    let s := writeReg (ref.setV 0 (bits 0 5)) .accData 0xFFFFFFFF#32
    let t := (readReg (writeReg s .accIdx 0#32) .accData)
    s.store.v[0] = bits 0x1F 5 ∧ t.1 = 0x1F#32 ∧ (readReg t.2 .accData).1 = 0#32
      ∧ (readReg t.2 .accData).2.regs.aerr = true ∧ (readReg t.2 .accData).2.regs.accIdx = 2#32 := by decide +kernel

/-- T-ACC-9: two words to a row. -/
theorem test_port_matrix_rows :
    portWrite { nMax := 40, kMax := 8, base := 0 } (ref.setM 0 (mat 35 [0, 0])).store 16#5 false 3 7#32
      = some (ref.setM 0 (mat 35 [0, 0x700000000])).store := by decide +kernel

/-- T-ACC-13: the low half is kept. -/
theorem test_port_half_of_a_sample :
    (portWrite ref.params (ref.setS 0 [0x3FB999999999999A]).store 8#5 false 1 0xBFB99999#32).map (fun o => o.s[0])
      = some [0xBFB999999999999A] := by decide +kernel

/-- T-ACC-14. -/
theorem test_port_bytes :
    portRead ref.params (ref.setB [0x31, 0x30, 0x61, 0x31]).store 19#5 false 0 = some 0x31613031#32 := by
  decide +kernel

/-- T-ACC-6: a regrown element is zero. -/
theorem test_port_resize_zero_fills :
    ((portWrite ref.params (ref.setV 0 (bits 0x1F 5)).store 0#5 true 0 3#32).bind
      (fun o => portWrite ref.params o 0#5 true 0 5#32)).map (fun o => o.v[0]) = some (bits 7 5) := by decide +kernel

/-- T-ACC-20. -/
theorem test_accSel_drops_reserved_bits :
    (readReg (writeReg ref .accSel 0xFFFFFFFF#32) .accSel).1 = 0x11F#32 := by decide +kernel

/-- T-ACC-19 and T-ACC-21, by host address. -/
theorem test_host_misuse :
    (hostWrite ref 0x54 .w32 0xFFFFFFFF#64).regs.status = 4#32 ∧ (hostRead ref 0x54 .w16).1 = 0#32
      ∧ (hostRead ref 0x54 .w16).2.regs.aerr = true ∧ (hostRead ref 0x40 .w32).1 = 0x4F534445#32 := by decide +kernel

/-- T-ERR-9: a second `CMD` write is dropped. -/
theorem test_cmd_while_busy :
    (writeReg (pending 0x01100200#32 ref) .cmd 0#32).regs.pend = 0x01100200#32
      ∧ (writeReg (pending 0x01100200#32 ref) .cmd 0#32).regs.aerr = true := by decide +kernel

/-- R111: the first lines of `LOADM` as program P1 writes them out, at `BASE` 0x40. -/
theorem test_loadM_expands :
    (scriptLoadM ref.params 0 7 g7.rows).map (·.op) =
      [.wr 0x6C .w32 0x110, .wr 0x70 .w32 0, .wr 0x74 .w32 4, .wr 0x74 .w32 7, .wr 0x6C .w32 0x010,
       .wr 0x70 .w32 0, .wr 0x74 .w32 0x31, .wr 0x70 .w32 1, .wr 0x74 .w32 0x52, .wr 0x70 .w32 2, .wr 0x74 .w32 0x64,
       .wr 0x70 .w32 3, .wr 0x74 .w32 0x78] := by decide +kernel

/-- Program P6: whose turn comes first decides what the racing write does. -/
theorem test_race_both_schedules :
    let s := { pending 0x40022000#32 ref with
      host := { script := [lineWr ref.params .arg0 5#32], line := 0, values := [] } }
    stepped { s with turns := [.host] } (fun t => (t.regs.arg0, t.regs.aerr)) = some (0#32, true)
      ∧ (stepped { s with turns := [.engine] } id).bind (fun t => stepped t fun u => (u.regs.arg0, u.regs.aerr))
        = some (5#32, false) := by decide +kernel

/-! Witnesses: for each statement with hypotheses, operands and a state that meet them, clause by clause -/

/-- Whether a command completes without error. -/
def completes (i : Instr) (s : State) : Bool :=
  after i s (fun t => decide (t.regs.err = .ok) && !t.regs.busy) == some true

theorem exists_succeeds {i : Instr} {s : State} (h : completes i s = true) : ∃ t, Succeeds i s t := by
  unfold completes after at h
  cases he : exec i s with
  | next t =>
    rw [he] at h
    have h' : t.regs.err = .ok ∧ t.regs.busy = false := by simpa using h
    exact ⟨t, he, h'.1, h'.2⟩
  | fault f => rw [he] at h; simp at h
  | refused r => rw [he] at h; simp at h

theorem all_false {α : Type} {f : α → Bool} {l : List α} (h : l.all (fun x => !f x) = true) : ∀ x ∈ l, f x = false := by
  simpa using h

theorem independent_110 : RowsIndependent (mat 3 [3]) := by
  intro u hu h
  match u, hu with
  | [true], _ => revert h; decide
  | [false], _ => rfl

theorem dependent_110_110 : ¬ RowsIndependent (mat 3 [3, 3]) := by
  intro h
  have := h [true, true] rfl (by decide)
  revert this
  decide

theorem witness_DecodeEncodeAgree : (Instr.papply (.s 3) 3 (.s 0)).wellFormed = true := by decide

theorem witness_DecodedWordIsItsEncoding : decode 0x01100200#32 = .ok (.vadd 2 0 1) := by rfl

theorem not_ok_of_error {w : Word} {e : DecodeError} (h : decode w = .error e) : ∀ i, decode w ≠ .ok i := by
  intro i hi; rw [h] at hi; cases hi

/-- For the first clause of `IllegalWordCompletesWithItsError`. -/
theorem witness_IllegalWord_reserved :
    (pending 0#32 ref).regs.busy = true ∧ (nextTurn (pending 0#32 ref)).1 = .engine
      ∧ (pending 0#32 ref).regs.pend.toNat / 2 ^ 24 ∉
        [0x01, 0x02, 0x03, 0x04, 0x10, 0x20, 0x21, 0x22, 0x30, 0x31, 0x40] :=
  ⟨rfl, rfl, by decide +kernel⟩

/-- For its second clause. -/
theorem witness_IllegalWord_operand :
    (pending 0x01000001#32 ref).regs.busy = true ∧ (nextTurn (pending 0x01000001#32 ref)).1 = .engine
      ∧ (∀ i, decode (pending 0x01000001#32 ref).regs.pend ≠ .ok i)
      ∧ (pending 0x01000001#32 ref).regs.pend.toNat / 2 ^ 24 ∈
        [0x01, 0x02, 0x03, 0x04, 0x10, 0x20, 0x21, 0x22, 0x30, 0x31, 0x40] :=
  ⟨rfl, rfl, not_ok_of_error (e := .illegalOperand) rfl, by decide +kernel⟩

theorem witness_StepRunsPendingCommand :
    (pending 0x31000000#32 ref).regs.busy = true ∧ decode (pending 0x31000000#32 ref).regs.pend = .ok .cadv
      ∧ (pending 0x31000000#32 ref).turns = []
      ∧ { pending 0x31000000#32 ref with turns := [.engine, .host] }.turns = .engine :: [.host] :=
  ⟨rfl, rfl, rfl, rfl⟩

/-- A host with one line to run. -/
def hosting (op : HostOp) : State := { ref with host := { script := [⟨none, op⟩], line := 0, values := [] } }

theorem witness_StepRunsOneHostLine :
    (hosting (.wr 0x5C .w32 5)).host.script[0]? = some ⟨none, .wr 0x5C .w32 5⟩
      ∧ (hosting (.rd 0x54 .w32 (some 0))).host.script[0]? = some ⟨none, .rd 0x54 .w32 (some 0)⟩
      ∧ (hosting (.rd 0x54 .w32 none)).host.script[0]? = some ⟨none, .rd 0x54 .w32 none⟩
      ∧ (hosting (.wr 0x5C .w32 5)).turns = [] ∧ (hosting (.wr 0x5C .w32 5)).regs.busy = false
      ∧ { hosting (.wr 0x5C .w32 5) with turns := [.host] }.turns = .host :: [] :=
  ⟨rfl, rfl, rfl, rfl, rfl, rfl⟩

/-- The branch clause of `StepRunsOneHostLine`: the second line of a `POLL`, with a value that goes back to the first
line and one that goes on. -/
theorem witness_StepRunsOneHostLine_branch :
    let poll : HostCond := { name := 0, hi := 0, lo := 0, equal := true, value := 1#32 }
    let s := fun v : Word => { ref with
      host := { script := scriptPoll ref.params 9 0, line := 1, values := [(0, v)] } }
    ((s 5#32).host.script[1]? = some ⟨none, .ifGoto poll 9⟩ ∧ (s 5#32).host.value 0 = some 5#32
        ∧ ((5#32).toNat / 2 ^ 0 % 2 ^ (0 + 1 - 0) = poll.value.toNat ↔ poll.equal = true)
        ∧ ((s 5#32).host.script[0]?.bind HostLine.label) = some 9)
      ∧ ((s 4#32).host.value 0 = some 4#32
        ∧ ¬ ((4#32).toNat / 2 ^ 0 % 2 ^ (0 + 1 - 0) = poll.value.toNat ↔ poll.equal = true)) :=
  ⟨⟨rfl, rfl, by decide +kernel, rfl⟩, rfl, by decide +kernel⟩

/-- For `StepWithNothingToDoChangesNothing`. -/
theorem witness_StepWithNothingToDo :
    ref.turns = [] ∧ ref.regs.busy = false ∧ ref.host.script.length ≤ ref.host.line
      ∧ { ref with turns := [.engine] }.turns = .engine :: [] ∧ { ref with turns := [.host] }.turns = .host :: [] :=
  ⟨rfl, rfl, by decide, rfl, rfl⟩

theorem witness_ResetLeavesTheTable :
    { pending 0#32 ref with turns := [.resetInput] }.turns = .resetInput :: [] ∧ (3#32).getLsbD 0 = true :=
  ⟨rfl, by decide⟩

theorem witness_StepKeepsInvariant : ref.wf ∧ ∃ t, step ref = .next t :=
  ⟨by decide +kernel, _, rfl⟩

theorem witness_VaddResult :
    let s := (ref.setV 0 (bits 3 4)).setV 1 (bits 7 3)
    s.store.v[(0 : VId)].length = s.store.v[(0 : VId)].length
      ∧ s.store.v[(0 : VId)].length ≠ s.store.v[(1 : VId)].length := by decide +kernel

theorem witness_OperandRule :
    (IsVId 7 ∧ IsVId 0 ∧ IsVId 7) ∧ ¬ (IsVId 8 ∧ IsVId 0 ∧ IsVId 0) ∧ (IsSId 8 ∧ IsSId 11) ∧ (IsPId 12 ∧ IsPId 15)
      ∧ (IsMId 16 ∧ IsMId 17) ∧ ¬ IsMId 18 := by
  simp [IsVId, IsSId, IsPId, IsMId]

theorem witness_VeqResult :
    let s := (ref.setV 0 (bits 3 4)).setV 1 (bits 7 3)
    s.store.v[(1 : VId)].length = s.store.v[(1 : VId)].length
      ∧ s.store.v[(1 : VId)].length ≠ s.store.v[(0 : VId)].length := by decide +kernel

theorem witness_VparseResult :
    (∀ ch ∈ (ref.setB [0x30, 0x31]).store.b, ch = 0x30#8 ∨ ch = 0x31#8)
      ∧ ∃ ch ∈ (ref.setB [0x30, 0x2F]).store.b, ch ≠ 0x30#8 ∧ ch ≠ 0x31#8 := by decide +kernel

theorem witness_VmulResult :
    let s := (ref.setM 0 g7).setV 0 (bits 0xD 4)
    s.wf ∧ 1 ≤ s.store.m[(0 : MId)].rowCount ∧ s.store.v[(0 : VId)].length = s.store.m[(0 : MId)].rowCount
      ∧ s.store.m[(1 : MId)].rowCount = 0 ∧ s.store.v[(1 : VId)].length ≠ s.store.m[(0 : MId)].rowCount := by
  decide +kernel

theorem witness_AddBitsLaws : (bits 3 4).length = (bits 5 4).length ∧ (bits 5 4).length = (bits 9 4).length := by
  decide

theorem witness_MultiplyIsLinear :
    1 ≤ g7.rowCount ∧ (bits 3 4).length = g7.rowCount ∧ (bits 5 4).length = g7.rowCount
      ∧ ∀ row ∈ g7.rows, row.length = g7.cols := by decide +kernel

theorem witness_GaussRunsTheElimination :
    let s := (ref.setM 0 (mat 3 [6, 5])).setM 1 (mat 3 [3, 3])
    1 ≤ s.store.m[(0 : MId)].rowCount ∧ (gauss s.store.m[(0 : MId)]).2.length = s.store.m[(0 : MId)].rowCount
      ∧ 1 ≤ s.store.m[(1 : MId)].rowCount ∧ (gauss s.store.m[(1 : MId)]).2.length < s.store.m[(1 : MId)].rowCount
      ∧ ref.store.m[(0 : MId)].rowCount = 0 := by decide +kernel

theorem witness_GaussReducesFullRowRank :
    let s := ref.setM 0 (mat 3 [3])
    s.wf ∧ 1 ≤ s.store.m[(0 : MId)].rowCount ∧ RowsIndependent s.store.m[(0 : MId)] :=
  ⟨by decide +kernel, by decide, independent_110⟩

theorem witness_GaussRefusesDependentRows :
    let s := ref.setM 0 (mat 3 [3, 3])
    s.wf ∧ 1 ≤ s.store.m[(0 : MId)].rowCount ∧ ¬ RowsIndependent s.store.m[(0 : MId)] :=
  ⟨by decide +kernel, by decide, dependent_110_110⟩

theorem witness_PivotColumnsCarryTheVector :
    (∀ row ∈ g7.rows, row.length = g7.cols) ∧ (gauss g7).2.length = g7.rowCount
      ∧ (bits 9 4).length = g7.rowCount ∧ 3 < g7.rowCount := by decide +kernel

theorem isPermutation_of_bij {p : List Nat} (h : bij p = true) : IsPermutation p := by
  simpa [bij, IsPermutation] using h

theorem not_isPermutation_of_bij {p : List Nat} (h : bij p = false) : ¬ IsPermutation p := by
  intro hp
  have : bij p = true := by simpa [bij, IsPermutation] using hp
  rw [h] at this
  cases this

theorem witness_PinvResult :
    let s := (ref.setP 0 [2, 0, 1]).setP 1 [0, 0]
    s.wf ∧ IsPermutation (indexNats s.store.p[(0 : PId)]) ∧ ¬ IsPermutation (indexNats s.store.p[(1 : PId)]) :=
  ⟨by decide +kernel, isPermutation_of_bij (by decide +kernel), not_isPermutation_of_bij (by decide +kernel)⟩

theorem witness_PapplyResult :
    let s := ((((ref.setP 0 [2, 0, 1]).setP 1 [0, 0, 1]).setP 2 [7, 8, 9]).setV 0 (bits 1 3)).setS 0 [0, 0, 1]
    IsPermutation (indexNats s.store.p[(0 : PId)]) ∧ ¬ IsPermutation (indexNats s.store.p[(1 : PId)])
      ∧ (∀ a ∈ [(0 : PId), 1], s.store.p[a].length = s.store.v[(0 : VId)].length
        ∧ s.store.p[a].length = s.store.s[(0 : SId)].length ∧ s.store.p[a].length = s.store.p[(2 : PId)].length)
      ∧ s.store.p[(0 : PId)].length ≠ s.store.v[(1 : VId)].length
      ∧ s.store.p[(0 : PId)].length ≠ s.store.s[(1 : SId)].length
      ∧ s.store.p[(0 : PId)].length ≠ s.store.p[(3 : PId)].length
      ∧ (SeqRef.v 0).objClass ≠ (SeqRef.p 0).objClass :=
  ⟨isPermutation_of_bij (by decide +kernel), not_isPermutation_of_bij (by decide +kernel), by decide +kernel,
    by decide +kernel, by decide +kernel, by decide +kernel, by decide⟩

theorem witness_PcolsResult :
    let s := ((((ref.setM 0 (mat 3 [1, 3])).setP 0 [2, 0, 1]).setP 1 [1, 1, 0]).setP 2 [1, 0])
    s.wf ∧ 1 ≤ s.store.m[(0 : MId)].rowCount ∧ s.store.p[(0 : PId)].length = s.store.m[(0 : MId)].cols
      ∧ IsPermutation (indexNats s.store.p[(0 : PId)])
      ∧ s.store.m[(1 : MId)].rowCount = 0
      ∧ s.store.p[(2 : PId)].length ≠ s.store.m[(0 : MId)].cols
      ∧ s.store.p[(1 : PId)].length = s.store.m[(0 : MId)].cols
      ∧ ¬ IsPermutation (indexNats s.store.p[(1 : PId)]) :=
  ⟨by decide +kernel, by decide +kernel, by decide +kernel, isPermutation_of_bij (by decide +kernel),
    by decide +kernel, by decide +kernel, by decide +kernel, not_isPermutation_of_bij (by decide +kernel)⟩

theorem witness_PermutationRoundTrip : IsPermutation [2, 0, 1] ∧ [7, 8, 9].length = [2, 0, 1].length :=
  ⟨isPermutation_of_bij (by decide), rfl⟩

theorem witness_CinitResult :
    ((args 16 16 ref).regs.arg1.toNat ≤ ref.params.nMax
        ∧ (args 16 16 ref).regs.arg0.toNat ≤ (args 16 16 ref).regs.arg1.toNat)
      ∧ ref.params.nMax < (args 0 17 ref).regs.arg1.toNat
      ∧ (args 5 4 ref).regs.arg1.toNat < (args 5 4 ref).regs.arg0.toNat := by decide +kernel

theorem witness_CadvResult_advances :
    let s := ref.setC { w := 2, n := 4, state := [0, 3, 4] }
    s.store.c.state.length = s.store.c.w + 1 ∧ 0 < s.store.c.w
      ∧ s.store.c.state.getD 0 0#32 + 1#32 ≠ s.store.c.state.getD 1 0#32
      ∧ ∀ i, 0 < i → i < s.store.c.w → s.store.c.state.getD i 0#32 + 1#32 = s.store.c.state.getD (i + 1) 0#32 := by
  refine ⟨rfl, by decide, by decide, fun i h1 h2 => ?_⟩
  have : i = 1 := by change i < 2 at h2; omega
  subst this
  decide

theorem witness_CadvResult_exhausted :
    let s := ref.setC { w := 1, n := 4, state := [3, 4] }
    s.store.c.state.length = s.store.c.w + 1
      ∧ ∀ i, i < s.store.c.w → s.store.c.state.getD i 0#32 + 1#32 = s.store.c.state.getD (i + 1) 0#32 := by
  refine ⟨rfl, fun i h => ?_⟩
  have : i = 0 := by change i < 1 at h; omega
  subst this
  decide

theorem witness_EnumerationVisitsEverySubsetInOrder :
    let s := args 2 4 ref
    s.params.nMax ≤ 65535 ∧ s.regs.arg1.toNat ≤ s.params.nMax ∧ s.regs.arg0.toNat ≤ s.regs.arg1.toNat := by
  decide +kernel

/-- A full-rank generator and samples for it. -/
def decoding : State := args 1 0 ((ref.setM 0 (mat 3 [3])).setS 0 [0xBFECCCCCCCCCCCCD, 0xBFE999999999999A, 0])

theorem witness_DecodeRunsTheSevenSteps_errors :
    let s := (ref.setM 0 (mat 3 [3])).setS 0 [0x7FF8000000000000, 0, 0]
    ref.store.m[(0 : MId)].rowCount = 0 ∧ 1 ≤ s.store.m[(0 : MId)].rowCount
      ∧ s.store.s[(1 : SId)].length ≠ s.store.m[(0 : MId)].cols
      ∧ s.store.s[(0 : SId)].length = s.store.m[(0 : MId)].cols
      ∧ ∃ x ∈ s.store.s[(0 : SId)], isNaN x = true :=
  ⟨by decide +kernel, by decide +kernel, by decide +kernel, by decide +kernel, 0x7FF8000000000000, .head _,
    by decide +kernel⟩

theorem witness_DecodeRunsTheSevenSteps_ranks :
    let pi := fun s : State => invert (reliabilityOrder (s.store.s[(0 : SId)].map fabs))
    let t := decoding.setM 0 (mat 3 [3, 3])
    (gauss (permuteColumns decoding.store.m[(0 : MId)] (pi decoding))).2.length = decoding.store.m[(0 : MId)].rowCount
      ∧ (gauss (permuteColumns t.store.m[(0 : MId)] (pi t))).2.length < t.store.m[(0 : MId)].rowCount := by
  decide +kernel

theorem witness_DecodeAnswersACodeword :
    decoding.wf ∧ 1 ≤ decoding.store.m[(0 : MId)].rowCount
      ∧ decoding.store.s[(0 : SId)].length = decoding.store.m[(0 : MId)].cols
      ∧ (∀ x ∈ decoding.store.s[(0 : SId)], isNaN x = false) ∧ RowsIndependent decoding.store.m[(0 : MId)] :=
  ⟨by decide +kernel, by decide +kernel, by decide +kernel, all_false (by decide +kernel), independent_110⟩

theorem witness_DecodeRefusesDependentRows :
    let s := decoding.setM 0 (mat 3 [3, 3])
    s.wf ∧ 1 ≤ s.store.m[(0 : MId)].rowCount ∧ s.store.s[(0 : SId)].length = s.store.m[(0 : MId)].cols
      ∧ (∀ x ∈ s.store.s[(0 : SId)], isNaN x = false) ∧ ¬ RowsIndependent s.store.m[(0 : MId)] :=
  ⟨by decide +kernel, by decide +kernel, by decide +kernel, all_false (by decide +kernel), dependent_110_110⟩

theorem witness_DecodeNoiselessIsIdempotent :
    decoding.wf ∧ 1 ≤ decoding.store.m[(0 : MId)].rowCount
      ∧ decoding.store.s[(0 : SId)].length = decoding.store.m[(0 : MId)].cols
      ∧ (∀ x ∈ decoding.store.s[(0 : SId)], isNaN x = false) ∧ RowsIndependent decoding.store.m[(0 : MId)]
      ∧ IsCodeword decoding.store.m[(0 : MId)] (decoding.store.s[(0 : SId)].map lt0) :=
  ⟨by decide +kernel, by decide +kernel, by decide +kernel, all_false (by decide +kernel), independent_110, [true],
    by decide +kernel, by decide +kernel⟩

theorem witness_DecodeIsMonotoneInTheWeight :
    (0#32).toNat ≤ (1#32).toNat
      ∧ (∃ t, Succeeds (.decode 0 0 0) { decoding with regs := { decoding.regs with arg0 := 0#32 } } t)
      ∧ ∃ t, Succeeds (.decode 0 0 0) { decoding with regs := { decoding.regs with arg0 := 1#32 } } t :=
  ⟨by decide, exists_succeeds (by decide +kernel), exists_succeeds (by decide +kernel)⟩

theorem witness_DecodeMetricSumsDisagreements : decoding.wf ∧ ∃ t, Succeeds (.decode 0 0 0) decoding t :=
  ⟨by decide +kernel, exists_succeeds (by decide +kernel)⟩

theorem witness_DecodeExhaustiveIsMaximumLikelihood :
    decoding.wf ∧ decoding.store.m[(0 : MId)].rowCount ≤ decoding.regs.arg0.toNat
      ∧ (∃ t, Succeeds (.decode 0 0 0) decoding t) ∧ IsCodeword decoding.store.m[(0 : MId)] (bits 0 3) :=
  ⟨by decide +kernel, by decide +kernel, exists_succeeds (by decide +kernel), [false], by decide +kernel,
    by decide +kernel⟩

theorem witness_ReliabilityOrderIsSorted : ∀ a ∈ samples2, isNaN a = false := all_false (by decide +kernel)

theorem witness_SearchWorkCount : (4 : Nat) ≤ 65535 := by decide

theorem nonNegative_of {x : F64} (h : (isNaN x, f64Sign x) = (false, false)) : NonNegative x := by
  simpa [NonNegative] using h

/-- For `SearchKeepsEarliestMinimum` and `MetricIsNonNegative`. -/
theorem witness_SearchAndMetric : ∀ b ∈ [(0x3FF0000000000000#64 : F64), 0x7FF0000000000000#64, 0#64], NonNegative b :=
  fun b hb =>
    ⟨all_false (f := isNaN) (by decide +kernel) b hb, all_false (f := f64Sign) (by decide +kernel) b hb⟩

theorem witness_NonNegativeOrderByEncoding : NonNegative 0x3FF0000000000000#64 ∧ NonNegative 0x7FF0000000000000#64 :=
  ⟨nonNegative_of (by decide +kernel), nonNegative_of (by decide +kernel)⟩

/-- A sum that overflows, one that does not, and one whose tie goes to the even neighbour. -/
theorem witness_FaddRoundsToNearestEven :
    (∀ x ∈ [(0x7FEFFFFFFFFFFFFF#64 : F64), 0x7C90000000000000#64, 0x3FF0000000000000#64, 0xBCA0000000000000#64],
      isNaN x = false ∧ isInf x = false)
      ∧ isInf (fadd 0x7FEFFFFFFFFFFFFF#64 0x7C90000000000000#64) = true
      ∧ isInf (fadd 0x3FF0000000000000#64 0xBCA0000000000000#64) = false :=
  ⟨fun x hx => ⟨all_false (f := isNaN) (by decide +kernel) x hx, all_false (f := isInf) (by decide +kernel) x hx⟩,
    by decide +kernel, by decide +kernel⟩

/-- The clauses on infinities, NaNs and exact sums of 0. -/
theorem witness_FaddRoundsToNearestEven_special :
    let inf := 0x7FF0000000000000#64
    let minf := 0xFFF0000000000000#64
    (isInf inf = true ∧ isNaN 0x3FF0000000000000#64 = false ∧ isInf 0x3FF0000000000000#64 = false)
      ∧ (isInf minf = true ∧ f64Sign inf ≠ f64Sign minf)
      ∧ isNaN 0x7FF8000000000000#64 = true
      ∧ f64Exact 0x3FF0000000000000#64 + f64Exact 0xBFF0000000000000#64 = 0 := by decide +kernel

theorem witness_FailedCommandChangesNothing :
    ∃ t, exec (.vmul 0 0 0) ref = .next t ∧ t.regs.err ≠ .ok := ⟨_, rfl, by decide⟩

/-- Also for `CommandsChangeOnlyTheirDestinations`, which has the same hypothesis. -/
theorem witness_CommandsWriteOnlyTheirFlags : ∃ t, exec (.veq 0 0) ref = .next t ∧ t.regs.res ≠ ref.regs.res :=
  ⟨_, rfl, by decide⟩

theorem witness_CommandsWriteMetric :
    after (.decode 0 0 0) (decoding.setMetric 1#64) (fun t => t.regs.metric) = some 0#64 := by decide +kernel

theorem witness_CmdWriteIssues : ref.regs.busy = false ∧ (pending 0#32 ref).regs.busy = true := ⟨rfl, rfl⟩

theorem witness_CtrlWriteActs :
    (1#32).getLsbD 0 = true ∧ ((2#32).getLsbD 0 = false ∧ (2#32).getLsbD 1 = true)
      ∧ ((4#32).getLsbD 0 = false ∧ (4#32).getLsbD 1 = false) := by decide

theorem witness_BusyWindow : (pending 0x40022000#32 ref).regs.busy = true := rfl

theorem witness_HostCannotDisturbPendingCommand :
    (issue (hosting (.wr 0x50 .w32 1)) 0#32).regs.busy = true ∧ (issue (hosting (.wr 0x5C .w32 1)) 0#32).regs.busy = true :=
  ⟨rfl, rfl⟩

/-- Also for the last clause of `ReadOnlyRegisters`. -/
theorem witness_IdleRegisterWritesReadBack : ref.regs.busy = false := rfl

/-- The first and the last address of the block, misaligned and of other widths, and the two beside it. -/
theorem witness_AccessesReachTheirTarget :
    ref.params.base % 64 = 0
      ∧ (ref.params.base < 0x41 + Width.w32.bytes ∧ 0x41 < ref.params.base + 64 ∧ 0x41 % 4 ≠ 0)
      ∧ (ref.params.base < 0x7C + Width.w64.bytes ∧ 0x7C < ref.params.base + 64 ∧ Width.w64 ≠ .w32)
      ∧ 0x3C + Width.w32.bytes ≤ ref.params.base ∧ ref.params.base + 64 ≤ 0x80 := by decide

theorem witness_AccDataTransfers :
    let s := ref.setV 0 (bits 3 5)
    let r := { s with regs := { s.regs with accIdx := 1#32 } }
    s.regs.busy = false
      ∧ portRead s.params s.store s.regs.accObj s.regs.accPart s.regs.accIdx.toNat = some 3#32
      ∧ portRead r.params r.store r.regs.accObj r.regs.accPart r.regs.accIdx.toNat = none
      ∧ (portWrite s.params s.store s.regs.accObj s.regs.accPart s.regs.accIdx.toNat 1#32).isSome = true
      ∧ portWrite r.params r.store r.regs.accObj r.regs.accPart r.regs.accIdx.toNat 1#32 = none := by decide +kernel

/-- The last word of each class that exists. -/
theorem witness_PortDataReadsBack :
    let p : Params := { nMax := 40, kMax := 8, base := 0 }
    let o := ((((ref.setV 7 (bits 0 33)).setM 1 (mat 40 [0, 1])).setS 3 [1, 2]).setP 3 [5, 6]).setB [1, 2, 3, 4, 5]
    p.wf ∧ o.store.wf p ∧ 32 * 1 < o.store.v[(7 : VId)].length
      ∧ 3 / p.wordsPerRow < o.store.m[(1 : MId)].rowCount ∧ 32 * (3 % p.wordsPerRow) < o.store.m[(1 : MId)].cols
      ∧ 3 / 2 < o.store.s[(3 : SId)].length ∧ 1 < o.store.p[(3 : PId)].length ∧ 4 * 1 < o.store.b.length := by
  decide +kernel

/-- The last word of each class that exists and the first that does not (V: 2, M: a row and a column too far, S, P, B). -/
theorem witness_PortDataLayout :
    let p : Params := { nMax := 40, kMax := 8, base := 0 }
    let o := (((((ref.setV 7 (bits 0 33)).setM 1 (mat 40 [0, 1])).setM 0 (mat 32 [0])).setS 3 [1, 2]).setP 3 [5, 6]).setB
      [1, 2, 3, 4, 5] |>.store
    o.wf p ∧ (32 * 1 < o.v[(7 : VId)].length ∧ o.v[(7 : VId)].length ≤ 32 * 2)
      ∧ (3 / ((p.nMax + 31) / 32) < o.m[(1 : MId)].rowCount ∧ 32 * (3 % ((p.nMax + 31) / 32)) < o.m[(1 : MId)].cols)
      ∧ o.m[(1 : MId)].rowCount ≤ 4 / ((p.nMax + 31) / 32) ∧ o.m[(0 : MId)].cols ≤ 32 * (1 % ((p.nMax + 31) / 32))
      ∧ (o.s[(3 : SId)][3 / 2]? = some 2#64 ∧ o.s[(3 : SId)].length ≤ 4 / 2)
      ∧ (o.p[(3 : PId)][1]? = some 6#32 ∧ o.p[(3 : PId)].length ≤ 2)
      ∧ 4 * 1 < o.b.length ∧ o.b.length ≤ 4 * 2 := by decide +kernel

theorem witness_PortWriteFrame :
    (portWrite ref.params (ref.setV 0 (bits 3 5)).store 0#5 false 0 1#32).isSome = true
      ∧ (portWrite ref.params (ref.setV 0 (bits 3 5)).store 0#5 true 0 1#32).isSome = true := by decide +kernel

/-- Each attribute at its limit and one beyond it; the attribute indices beyond the last need nothing of the state. -/
theorem witness_AttributeWriteResizes :
    ref.store.wf ref.params ∧ (16#32).toNat ≤ ref.params.nMax ∧ ref.params.nMax < (17#32).toNat
      ∧ (8#32).toNat ≤ ref.params.kMax ∧ ref.params.kMax < (9#32).toNat := by decide +kernel

theorem witness_CombinationIsReadOnlyAndReservedIdsRefuse :
    let o := (ref.setC { w := 2, n := 4, state := [1, 2, 4] }).store
    o.c.wf ref.params ∧ 2 ≤ o.c.w ∧ o.c.w < 3 ∧ 20 ≤ (20#5).toNat ∧ 20 ≤ (31#5).toNat := by decide +kernel

end Sys2Proof.Tests
end

/-! PROOFS. The host's registers (10_state.md R41–R53): what a read or a write of one register does, and the three
statements about the read-only registers, `CMD` and `CTRL`. -/

namespace Sys2Proof.Machine

/-! The registers and offsets that take no write -/

/-- The registers a host cannot write, with the two reserved offsets (R41). -/
def readOnlyRegs : List Reg :=
  [.id, .version, .capN, .capK, .status, .metricLo, .metricHi, .reserved38, .reserved3C]

/-- The two reserved offsets (R53). -/
def reservedRegs : List Reg := [.reserved38, .reserved3C]

theorem writeReg_of_mem_readOnlyRegs {r : Reg} (hr : r ∈ readOnlyRegs) (s : State) (data : Word) :
    writeReg s r data = s.setAerr := by
  simp only [readOnlyRegs, List.mem_cons, List.not_mem_nil, or_false] at hr
  obtain rfl | rfl | rfl | rfl | rfl | rfl | rfl | rfl | rfl := hr <;> rfl

theorem readReg_of_mem_reservedRegs {r : Reg} (hr : r ∈ reservedRegs) (s : State) :
    readReg s r = (0#32, s.setAerr) := by
  simp only [reservedRegs, List.mem_cons, List.not_mem_nil, or_false] at hr
  obtain rfl | rfl := hr <;> rfl

/-! Reads -/

@[simp] theorem readReg_id (s : State) : readReg s .id = (Config.idValue, s) := rfl
@[simp] theorem readReg_version (s : State) : readReg s .version = (Config.versionValue, s) := rfl
@[simp] theorem readReg_capN (s : State) : readReg s .capN = (BitVec.ofNat 32 s.params.nMax, s) := rfl
@[simp] theorem readReg_capK (s : State) : readReg s .capK = (BitVec.ofNat 32 s.params.kMax, s) := rfl
@[simp] theorem readReg_ctrl (s : State) : readReg s .ctrl = (0#32, s) := rfl
@[simp] theorem readReg_status (s : State) : readReg s .status = (s.regs.status, s) := rfl
@[simp] theorem readReg_cmd (s : State) : readReg s .cmd = (0#32, s) := rfl

theorem readReg_metricLo_of_idle {s : State} (h : s.regs.busy = false) :
    readReg s .metricLo = (s.regs.metricLo, s) := by
  simp [readReg, h]

theorem readReg_metricHi_of_idle {s : State} (h : s.regs.busy = false) :
    readReg s .metricHi = (s.regs.metricHi, s) := by
  simp [readReg, h]

/-- `BUSY` is bit 0 of `STATUS` (R45). -/
theorem status_getLsbD_zero (r : Regs) : r.status.getLsbD 0 = r.busy := by
  rw [Regs.status, BitVec.getLsbD_append]
  cases r.busy <;> rfl

/-! Writes of `CMD` and `CTRL` -/

theorem writeReg_cmd_of_idle {s : State} (h : s.regs.busy = false) (v : Word) :
    writeReg s .cmd v = issue s v := by
  simp [writeReg, h]

theorem writeReg_cmd_of_busy {s : State} (h : s.regs.busy = true) (v : Word) :
    writeReg s .cmd v = s.setAerr := by
  simp [writeReg, h]

@[simp] theorem writeReg_ctrl (s : State) (data : Word) : writeReg s .ctrl data = writeCtrl s data := rfl

/-- Bit 0 resets, whatever bit 1 is (R44). -/
theorem writeCtrl_of_bit0 {data : Word} (h0 : data.getLsbD 0 = true) (s : State) :
    writeCtrl s data = s.engineReset := by
  obtain ⟨-, hw⟩ | ⟨h0', -⟩ := writeCtrl_cases s data
  · exact hw
  · exact absurd (h0.symm.trans h0') (by decide)

/-- Without bit 0, only bit 1 acts, and only on `AERR` (R44). -/
theorem writeCtrl_of_not_bit0 {data : Word} (h0 : data.getLsbD 0 = false) (s : State) :
    writeCtrl s data = { s with regs := { s.regs with aerr := s.regs.aerr && !data.getLsbD 1 } } := by
  obtain ⟨h0', -⟩ | ⟨-, hw⟩ := writeCtrl_cases s data
  · exact absurd (h0.symm.trans h0') (by decide)
  · exact hw

/-! The statements -/

/-- Settles O48: the writes and the reserved reads over the two lists, the other reads register by register. -/
theorem readOnlyRegisters : Obligations.ReadOnlyRegisters := by
  intro s data
  refine ⟨fun r hr => writeReg_of_mem_readOnlyRegs hr s data, readReg_id s, readReg_version s, readReg_capN s,
    readReg_capK s, fun r hr => readReg_of_mem_reservedRegs hr s, readReg_status s, fun hidle => ?_⟩
  exact ⟨readReg_metricLo_of_idle hidle, readReg_metricHi_of_idle hidle⟩

/-- Settles O49: an idle `CMD` write is an issue, which raises the `BUSY` that `STATUS` shows; a busy one is dropped. -/
theorem cmdWriteIssues : Obligations.CmdWriteIssues := by
  intro s v
  refine ⟨fun hidle => ⟨writeReg_cmd_of_idle hidle v, ?_⟩, fun hbusy => writeReg_cmd_of_busy hbusy v, readReg_cmd s⟩
  rw [writeReg_cmd_of_idle hidle, readReg_status, status_getLsbD_zero, issue_busy]

/-- Settles O50: the case split is on bit 0, then on bit 1. -/
theorem ctrlWriteActs : Obligations.CtrlWriteActs := by
  intro s data
  refine ⟨fun h0 => ?reset, fun h0 h1 => ?clear, fun h0 h1 => ?ignored, readReg_ctrl s⟩
  case reset => exact writeCtrl_of_bit0 h0 s
  case clear => rw [writeReg_ctrl, writeCtrl_of_not_bit0 h0, h1, Bool.not_true, Bool.and_false]
  case ignored => rw [writeReg_ctrl, writeCtrl_of_not_bit0 h0, h1, Bool.not_false, Bool.and_true]

end Sys2Proof.Machine

/-! PROOFS. The access port (20_memory.md R76–R83): what the port answers for each class of object, part and direction,
the elements a write leaves, and the four statements about data words, length words, `C` and `ACC_DATA`. -/

namespace Sys2Proof.Machine

/-! Reading one object back after a write of the store -/

theorem vector_getElem_set_fin_self {α : Type} {n : Nat} (x : Vector α n) (i : Fin n) (a : α) :
    (x.set i a)[i] = a := by
  rw [vector_getElem_set_fin, if_pos rfl]

/-! The port reaches the object its id names -/

theorem portRead_data (p : Params) (o : ObjectStore) (r : ObjRef) (x : Nat) :
    portRead p o r.id false x = readData p (o.value r) x := by
  simp [portRead]

theorem portRead_attr (p : Params) (o : ObjectStore) (r : ObjRef) (x : Nat) :
    portRead p o r.id true x = readAttr (o.value r) x := by
  simp [portRead]

theorem portWrite_data (p : Params) (o : ObjectStore) (r : ObjRef) (x : Nat) (data : Word) :
    portWrite p o r.id false x data = writeData p o r x data := by
  simp [portWrite]

theorem portWrite_attr (p : Params) (o : ObjectStore) (r : ObjRef) (x : Nat) (data : Word) :
    portWrite p o r.id true x data = writeAttr p o r x data := by
  simp [portWrite]

/-- R33: the ids from 20 on name no object. -/
theorem ofId_of_reserved {id : ObjId} (h : 20 ≤ id.toNat) : ObjRef.ofId id = none := by
  simp only [ObjRef.ofId]
  iterate 6 rw [if_neg (by omega)]

theorem portRead_of_reserved {id : ObjId} (h : 20 ≤ id.toNat) (p : Params) (o : ObjectStore) (part : Bool) (x : Nat) :
    portRead p o id part x = none := by
  simp only [portRead, ofId_of_reserved h]

theorem portWrite_of_reserved {id : ObjId} (h : 20 ≤ id.toNat) (p : Params) (o : ObjectStore) (part : Bool) (x : Nat)
    (data : Word) : portWrite p o id part x data = none := by
  simp only [portWrite, ofId_of_reserved h]

/-! Data words, class by class -/

/-- R78: a matrix after data word `c` of its row `r` is stored. -/
def Matrix.storeWord (m : Matrix) (r c : Nat) (data : Word) : Matrix :=
  { m with rows := m.rows.set r (unpackBits (m.row r) c data) }

section
variable (p : Params) (o : ObjectStore) (x : Nat) (data : Word)

theorem portRead_v_data (i : VId) : portRead p o (ObjRef.v i).id false x =
    if 32 * x < o.v[i].length then some (packBits o.v[i] x) else none :=
  portRead_data p o (.v i) x

theorem portWrite_v_data (i : VId) : portWrite p o (ObjRef.v i).id false x data =
    if 32 * x < o.v[i].length then some { o with v := o.v.set i (unpackBits o.v[i] x data) } else none :=
  portWrite_data p o (.v i) x data

theorem portRead_m_data (i : MId) : portRead p o (ObjRef.m i).id false x =
    if x / p.wordsPerRow < o.m[i].rowCount ∧ 32 * (x % p.wordsPerRow) < o.m[i].cols then
      some (packBits (o.m[i].row (x / p.wordsPerRow)) (x % p.wordsPerRow))
    else none :=
  portRead_data p o (.m i) x

theorem portWrite_m_data (i : MId) : portWrite p o (ObjRef.m i).id false x data =
    if x / p.wordsPerRow < o.m[i].rowCount ∧ 32 * (x % p.wordsPerRow) < o.m[i].cols then
      some { o with m := o.m.set i (o.m[i].storeWord (x / p.wordsPerRow) (x % p.wordsPerRow) data) }
    else none :=
  portWrite_data p o (.m i) x data

theorem portRead_s_data (i : SId) : portRead p o (ObjRef.s i).id false x =
    o.s[i][x / 2]?.map fun e => f64Half e (x % 2) := by
  rw [portRead_data]
  by_cases h : x / 2 < o.s[i].length
  · rw [List.getElem?_eq_getElem h]; exact dif_pos h
  · rw [List.getElem?_eq_none (Nat.le_of_not_lt h)]; exact dif_neg h

theorem portWrite_s_data (i : SId) : portWrite p o (ObjRef.s i).id false x data =
    o.s[i][x / 2]?.map fun e => { o with s := o.s.set i (o.s[i].set (x / 2) (setF64Half e (x % 2) data)) } := by
  rw [portWrite_data]
  by_cases h : x / 2 < o.s[i].length
  · rw [List.getElem?_eq_getElem h]; exact dif_pos h
  · rw [List.getElem?_eq_none (Nat.le_of_not_lt h)]; exact dif_neg h

theorem portRead_p_data (i : PId) : portRead p o (ObjRef.p i).id false x = o.p[i][x]? :=
  portRead_data p o (.p i) x

theorem portWrite_p_data (i : PId) : portWrite p o (ObjRef.p i).id false x data =
    if x < o.p[i].length then some { o with p := o.p.set i (o.p[i].set x data) } else none :=
  portWrite_data p o (.p i) x data

theorem portRead_b_data : portRead p o ObjRef.b.id false x =
    if 4 * x < o.b.length then some (packBytes o.b x) else none :=
  portRead_data p o .b x

theorem portWrite_b_data : portWrite p o ObjRef.b.id false x data =
    if 4 * x < o.b.length then some { o with b := unpackBytes o.b x data } else none :=
  portWrite_data p o .b x data

theorem portRead_c_data : portRead p o ObjRef.c.id false x = if x ≤ o.c.w then o.c.state[x]? else none :=
  portRead_data p o .c x

/-- R80, R81: `C` takes no write of either part. -/
theorem portWrite_c (part : Bool) : portWrite p o ObjRef.c.id part x data = none := by
  cases part with
  | false => exact portWrite_data p o .c x data
  | true => rw [portWrite_attr]; simp [writeAttr]

/-! Length and dimension words (part 1), class by class -/

theorem portWrite_v_attr (i : VId) : portWrite p o (ObjRef.v i).id true 0 data =
    if data.toNat ≤ p.nMax then some { o with v := o.v.set i (resize o.v[i] data.toNat false) } else none :=
  portWrite_attr p o (.v i) 0 data

theorem portWrite_s_attr (i : SId) : portWrite p o (ObjRef.s i).id true 0 data =
    if data.toNat ≤ p.nMax then some { o with s := o.s.set i (resize o.s[i] data.toNat 0#64) } else none :=
  portWrite_attr p o (.s i) 0 data

theorem portWrite_p_attr (i : PId) : portWrite p o (ObjRef.p i).id true 0 data =
    if data.toNat ≤ p.nMax then some { o with p := o.p.set i (resize o.p[i] data.toNat 0#32) } else none :=
  portWrite_attr p o (.p i) 0 data

theorem portWrite_b_attr : portWrite p o ObjRef.b.id true 0 data =
    if data.toNat ≤ p.nMax then some { o with b := resize o.b data.toNat 0#8 } else none :=
  portWrite_attr p o .b 0 data

theorem portWrite_m_rows (i : MId) : portWrite p o (ObjRef.m i).id true 0 data =
    if data.toNat ≤ p.kMax then some { o with m := o.m.set i (o.m[i].resizeRows data.toNat) } else none :=
  portWrite_attr p o (.m i) 0 data

theorem portWrite_m_cols (i : MId) : portWrite p o (ObjRef.m i).id true 1 data =
    if data.toNat ≤ p.nMax then some { o with m := o.m.set i (o.m[i].resizeCols data.toNat) } else none :=
  portWrite_attr p o (.m i) 1 data

end

/-- R81: how many words part 1 of an object has: its length, or the two numbers of `M` and `C`. -/
def attrWords : ObjRef → Nat
  | .m _ => 2
  | .c => 2
  | .v _ => 1
  | .s _ => 1
  | .p _ => 1
  | .b => 1

theorem attrWords_le_two (r : ObjRef) : attrWords r ≤ 2 := by
  cases r <;> simp [attrWords]

theorem attrWords_eq_one {r : ObjRef} (hm : ∀ i, r ≠ .m i) (hc : r ≠ .c) : attrWords r = 1 := by
  cases r with
  | m i => exact absurd rfl (hm i)
  | c => exact absurd rfl hc
  | v i => rfl
  | s i => rfl
  | p i => rfl
  | b => rfl

theorem readAttr_of_attrWords_le {r : ObjRef} {x : Nat} (h : attrWords r ≤ x) (o : ObjectStore) :
    readAttr (o.value r) x = none := by
  obtain ⟨y, rfl⟩ := Nat.exists_eq_add_of_le' h
  cases r <;> rfl

theorem writeAttr_of_attrWords_le {r : ObjRef} {x : Nat} (h : attrWords r ≤ x) (p : Params) (o : ObjectStore)
    (data : Word) : writeAttr p o r x data = none := by
  obtain ⟨y, rfl⟩ := Nat.exists_eq_add_of_le' h
  cases r <;> rfl

/-- R81: a part-1 word an object does not have is refused, read and write. -/
theorem port_attr_refused {r : ObjRef} {x : Nat} (h : attrWords r ≤ x) (p : Params) (o : ObjectStore) (data : Word) :
    portRead p o r.id true x = none ∧ portWrite p o r.id true x data = none :=
  ⟨(portRead_attr p o r x).trans (readAttr_of_attrWords_le h o),
    (portWrite_attr p o r x data).trans (writeAttr_of_attrWords_le h p o data)⟩

/-- R81: a write with a limit is accepted up to it, leaving what the accepted write leaves, and refused beyond. -/
theorem accepted_within_limit {w : Option ObjectStore} {n limit : Nat} {a : ObjectStore} {P : ObjectStore → Prop}
    (hw : w = if n ≤ limit then some a else none) (ha : n ≤ limit → P a) :
    (n ≤ limit → ∃ o', w = some o' ∧ P o') ∧ (limit < n → w = none) :=
  ⟨fun h => ⟨a, hw.trans (if_pos h), ha h⟩, fun h => hw.trans (if_neg (Nat.not_le_of_lt h))⟩

/-! The elements a write leaves -/

/-- R77: the elements a data word covers take its bits. -/
theorem unpackBits_getD_inside {x : List Bool} {word j : Nat} (hj : j < 32) (he : 32 * word + j < x.length)
    (data : Word) : (unpackBits x word data).getD (32 * word + j) false = data.getLsbD j := by
  rw [unpackBits_getD, if_pos ⟨he, by omega⟩, show (32 * word + j) % 32 = j by omega]

theorem unpackBits_getD_outside {word e : Nat} (he : e < 32 * word ∨ 32 * word + 32 ≤ e) (x : List Bool)
    (data : Word) : (unpackBits x word data).getD e false = x.getD e false := by
  rw [unpackBits_getD, if_neg (by omega)]

/-- R79: the elements a data word of `B` covers take its bytes. -/
theorem unpackBytes_getD_inside {x : List Byte} {word k : Nat} (hk : k < 4) (he : 4 * word + k < x.length)
    (data : Word) : (unpackBytes x word data).getD (4 * word + k) 0#8 = data.extractLsb' (8 * k) 8 := by
  rw [unpackBytes_getD, if_pos ⟨he, by omega⟩, show (4 * word + k) % 4 = k by omega]

theorem unpackBytes_getD_outside {word e : Nat} (he : e < 4 * word ∨ 4 * word + 4 ≤ e) (x : List Byte)
    (data : Word) : (unpackBytes x word data).getD e 0#8 = x.getD e 0#8 := by
  rw [unpackBytes_getD, if_neg (by omega)]

/-- R81: a resized sequence keeps its elements before the new end, and has zeros beyond its old one. -/
theorem resize_getElem? {α : Type} {n j : Nat} (h : j < n) (x : List α) (zero : α) :
    (resize x n zero)[j]? = some (x.getD j zero) := by
  simp only [resize, List.getD_eq_getElem?_getD, List.getElem?_append, List.getElem?_replicate, List.length_take]
  by_cases hx : j < x.length
  · rw [if_pos (by omega), List.getElem?_take_of_lt h, List.getElem?_eq_getElem hx, Option.getD_some]
  · rw [if_neg (by omega), if_pos (by omega), List.getElem?_eq_none (Nat.le_of_not_lt hx), Option.getD_none]

theorem resize_getD {α : Type} {n j : Nat} (h : j < n) (x : List α) (zero : α) :
    (resize x n zero).getD j zero = x.getD j zero := by
  rw [List.getD_eq_getElem?_getD, resize_getElem? h, Option.getD_some]

/-! The rows and entries of a matrix -/

theorem row_of_lt {m : Matrix} {r : Nat} (hr : r < m.rowCount) : m.row r = m.rows[r]'hr :=
  List.getD_eq_getElem _ _ hr

theorem row_of_le {m : Matrix} {r : Nat} (hr : m.rowCount ≤ r) : m.row r = [] :=
  List.getD_eq_default _ _ hr

theorem row_length {p : Params} {m : Matrix} {r : Nat} (h : m.wf p) (hr : r < m.rowCount) :
    (m.row r).length = m.cols := by
  obtain ⟨-, -, hrows⟩ := h
  rw [row_of_lt hr]
  exact hrows _ (List.getElem_mem hr)

/-- R81: rows before the new end keep their entries, rows beyond the old one are zero. -/
theorem resizeRows_entry {n r : Nat} (h : r < n) (m : Matrix) (c : Nat) :
    (m.resizeRows n).entry r c = m.entry r c := by
  have hrow : (m.resizeRows n).row r = m.rows.getD r (List.replicate m.cols false) := by
    rw [Matrix.row, List.getD_eq_getElem?_getD, Matrix.resizeRows, resize_getElem? h, Option.getD_some]
  rw [Matrix.entry, Matrix.entry, hrow]
  by_cases hr : r < m.rowCount
  · rw [row_of_lt hr, List.getD_eq_getElem _ _ hr]
  · rw [row_of_le (Nat.le_of_not_lt hr), List.getD_eq_default _ _ (Nat.le_of_not_lt hr)]
    simp

/-- R81: the same of the columns. -/
theorem resizeCols_entry {n c : Nat} (h : c < n) (m : Matrix) (r : Nat) :
    (m.resizeCols n).entry r c = m.entry r c := by
  have hcount : (m.resizeCols n).rowCount = m.rowCount := List.length_map _
  by_cases hr : r < m.rowCount
  · have hrow : (m.resizeCols n).row r = resize (m.row r) n false := by
      rw [row_of_lt (hcount ▸ hr), row_of_lt hr]
      exact List.getElem_map _
    rw [Matrix.entry, Matrix.entry, hrow, resize_getD h]
  · have hle := Nat.le_of_not_lt hr
    rw [Matrix.entry, Matrix.entry, row_of_le (hcount ▸ hle), row_of_le hle]

section
variable (m : Matrix) (r c : Nat) (data : Word)

@[simp] theorem storeWord_rowCount : (m.storeWord r c data).rowCount = m.rowCount := List.length_set

@[simp] theorem storeWord_cols : (m.storeWord r c data).cols = m.cols := rfl

theorem storeWord_row_same (hr : r < m.rowCount) : (m.storeWord r c data).row r = unpackBits (m.row r) c data := by
  rw [row_of_lt (by simpa using hr)]
  exact List.getElem_set_self _

theorem storeWord_row_other {q : Nat} (hq : q ≠ r) : (m.storeWord r c data).row q = m.row q := by
  rw [Matrix.row, Matrix.storeWord, List.getD_eq_getElem?_getD, List.getElem?_set_ne hq.symm,
    ← List.getD_eq_getElem?_getD, Matrix.row]

end

theorem storeWord_wf {p : Params} {m : Matrix} {r : Nat} (h : m.wf p) (hr : r < m.rowCount) (c : Nat) (data : Word) :
    (m.storeWord r c data).wf p :=
  setRow_wf h ((unpackBits_length _ _ _).trans (row_length h hr))

/-- R78: the entries a data word covers take its bits. -/
theorem storeWord_entry_inside {p : Params} {m : Matrix} {r c j : Nat} (h : m.wf p) (hr : r < m.rowCount)
    (hj : j < 32) (hc : 32 * c + j < m.cols) (data : Word) :
    (m.storeWord r c data).entry r (32 * c + j) = data.getLsbD j := by
  rw [Matrix.entry, storeWord_row_same _ _ _ _ hr, unpackBits_getD_inside hj (by rwa [row_length h hr])]

theorem storeWord_entry_outside {m : Matrix} {r c q e : Nat} (hr : r < m.rowCount)
    (h : q ≠ r ∨ e < 32 * c ∨ 32 * c + 32 ≤ e) (data : Word) :
    (m.storeWord r c data).entry q e = m.entry q e := by
  by_cases hq : q = r
  · subst hq
    rw [Matrix.entry, storeWord_row_same _ _ _ _ hr,
      unpackBits_getD_outside (h.resolve_left (not_not_intro rfl)), Matrix.entry]
  · rw [Matrix.entry, storeWord_row_other _ _ _ _ hq, Matrix.entry]

/-- Beyond the last column the reading of an entry gives 0. -/
theorem entry_of_cols_le {p : Params} {m : Matrix} {r c : Nat} (h : m.wf p) (hr : r < m.rowCount) (hc : m.cols ≤ c) :
    m.entry r c = false :=
  List.getD_eq_default _ _ (by rwa [row_length h hr])

/-- R78: bit `j` of a data word is an entry of its row, 0 beyond the last column. -/
theorem packBits_row_getLsbD {p : Params} {m : Matrix} {r j : Nat} (h : m.wf p) (hr : r < m.rowCount) (hj : j < 32)
    (c : Nat) : (packBits (m.row r) c).getLsbD j = (decide (32 * c + j < m.cols) && m.entry r (32 * c + j)) := by
  rw [packBits_getLsbD, decide_eq_true hj, Bool.true_and]
  by_cases hc : 32 * c + j < m.cols
  · rw [decide_eq_true hc, Bool.true_and, Matrix.entry]
  · rw [decide_eq_false hc, Bool.false_and]
    exact entry_of_cols_le h hr (Nat.le_of_not_lt hc)

/-! The statements -/

/-- Settles O55: the two outcomes of an idle read and of an idle write, each decided by the port's answer. -/
theorem accDataTransfers : Obligations.AccDataTransfers := by
  intro s data hidle
  have hread : readReg s .accData = readAccData s := by simp [readReg, hidle]
  have hwrite : writeReg s .accData data = writeAccData s data := by simp [writeReg, hidle]
  rw [hread, hwrite]
  refine ⟨fun v hv => ?_, fun hn => ?_, fun o ho => ?_, fun hn => ?_⟩
  · obtain ⟨v', hv', h⟩ | ⟨hn, -⟩ := readAccData_cases s
    · rw [h, Option.some.inj (hv'.symm.trans hv)]
    · exact absurd (hn.symm.trans hv) nofun
  · obtain ⟨v', hv', -⟩ | ⟨-, h⟩ := readAccData_cases s
    · exact absurd (hn.symm.trans hv') nofun
    · exact h
  · obtain ⟨o', ho', h⟩ | ⟨hn, -⟩ := writeAccData_cases s data
    · rw [h, Option.some.inj (ho'.symm.trans ho)]
    · exact absurd (hn.symm.trans ho) nofun
  · obtain ⟨o', ho', -⟩ | ⟨-, h⟩ := writeAccData_cases s data
    · exact absurd (hn.symm.trans ho') nofun
    · exact h

/-- Settles O59: the data words of `C` are the `w + 1` entries its invariant gives it, the last of them `n`. -/
theorem combinationIsReadOnlyAndReservedIdsRefuse : Obligations.CombinationIsReadOnlyAndReservedIdsRefuse := by
  intro p o x data
  refine ⟨fun hc => ?data, ⟨portRead_attr p o .c 0, portRead_attr p o .c 1⟩, portWrite_c p o x data,
    fun id part hid => ⟨portRead_of_reserved hid p o part x, portWrite_of_reserved hid p o part x data⟩⟩
  obtain ⟨-, -, hlen, -, -, hlast⟩ := hc
  have hword : ∀ y, y ≤ o.c.w → portRead p o ObjRef.c.id false y = some (o.c.state.getD y 0#32) := by
    intro y hy
    have hlt : y < o.c.state.length := by omega
    rw [portRead_c_data, if_pos hy, List.getElem?_eq_getElem hlt, List.getD_eq_getElem _ _ hlt]
  refine ⟨hword x, fun hx => ?_, ?_⟩
  · rw [portRead_c_data, if_neg (Nat.not_le_of_lt hx)]
  · rw [hword _ le_rfl, hlast]

/-- Settles O58: the refused words from the count of part-1 words, each resize from its write's equation. -/
theorem attributeWriteResizes : Obligations.AttributeWriteResizes := by
  intro p o data ⟨_, _, _, hm, _, _⟩
  refine ⟨?reads, ?oneWord, ?twoWords, fun x => portWrite_c p o x data true, ?v, ?s, ?p, ?b, ?rows, ?cols⟩
  case reads =>
    exact ⟨fun i => portRead_attr p o (.v i) 0, fun i => portRead_attr p o (.s i) 0,
      fun i => portRead_attr p o (.p i) 0, portRead_attr p o .b 0,
      fun i => ⟨portRead_attr p o (.m i) 0, portRead_attr p o (.m i) 1⟩,
      portRead_attr p o .c 0, portRead_attr p o .c 1⟩
  case oneWord =>
    intro r x hrm hrc hx
    exact port_attr_refused (by rwa [attrWords_eq_one hrm hrc]) p o data
  case twoWords => exact fun r x hx => port_attr_refused ((attrWords_le_two r).trans hx) p o data
  case v =>
    refine fun i => accepted_within_limit (portWrite_v_attr ..) fun _ => ?_
    rw [vector_getElem_set_fin_self]
    exact ⟨resize_length .., fun j hj => resize_getD hj ..⟩
  case s =>
    refine fun i => accepted_within_limit (portWrite_s_attr ..) fun _ => ?_
    rw [vector_getElem_set_fin_self]
    exact ⟨resize_length .., fun j hj => resize_getD hj ..⟩
  case p =>
    refine fun i => accepted_within_limit (portWrite_p_attr ..) fun _ => ?_
    rw [vector_getElem_set_fin_self]
    exact ⟨resize_length .., fun j hj => resize_getD hj ..⟩
  case b =>
    exact accepted_within_limit (portWrite_b_attr ..) fun _ => ⟨resize_length .., fun j hj => resize_getD hj ..⟩
  case rows =>
    refine fun i => accepted_within_limit (portWrite_m_rows ..) fun h => ?_
    obtain ⟨-, -, hrows⟩ := resizeRows_wf (hm i) h
    rw [vector_getElem_set_fin_self]
    exact ⟨resize_length .., rfl, hrows, fun r c hr => resizeRows_entry hr ..⟩
  case cols =>
    refine fun i => accepted_within_limit (portWrite_m_cols ..) fun h => ?_
    obtain ⟨-, -, hrows⟩ := resizeCols_wf (hm i) h
    rw [vector_getElem_set_fin_self]
    exact ⟨List.length_map _, rfl, hrows, fun r c hc => resizeCols_entry hc ..⟩

/-- Settles O60: for each class the read's and the write's equation, then the elements of the word stored. -/
theorem portDataLayout : Obligations.PortDataLayout := by
  intro p o x data ⟨_, _, _, hm, _, _⟩
  refine ⟨fun i => ⟨fun h => ?v, fun h => ?vRefused⟩, fun i => ⟨fun hr hc => ?m, fun h => ?mRefused⟩,
    fun i => ⟨fun e he => ?s, fun h => ?sRefused⟩, fun i => ⟨fun e he => ?p, fun h => ?pRefused⟩,
    fun h => ?b, fun h => ?bRefused⟩
  case v =>
    refine ⟨_, _, (portRead_v_data ..).trans (if_pos h), (portWrite_v_data ..).trans (if_pos h), ?_⟩
    rw [vector_getElem_set_fin_self]
    exact ⟨fun j hj => by rw [packBits_getLsbD, decide_eq_true hj, Bool.true_and], unpackBits_length ..,
      fun j hj he => unpackBits_getD_inside hj he data, fun e he => unpackBits_getD_outside he ..⟩
  case vRefused =>
    have hn := Nat.not_lt_of_le h
    exact ⟨(portRead_v_data ..).trans (if_neg hn), (portWrite_v_data ..).trans (if_neg hn)⟩
  case m =>
    refine ⟨_, _, (portRead_m_data ..).trans (if_pos ⟨hr, hc⟩), (portWrite_m_data ..).trans (if_pos ⟨hr, hc⟩), ?_⟩
    obtain ⟨-, -, hrows⟩ := storeWord_wf (hm i) hr (x % p.wordsPerRow) data
    rw [vector_getElem_set_fin_self]
    exact ⟨fun j hj => packBits_row_getLsbD (hm i) hr hj _, storeWord_rowCount .., rfl, hrows,
      fun j hj hlt => storeWord_entry_inside (hm i) hr hj hlt data,
      fun q e he => storeWord_entry_outside hr he data⟩
  case mRefused =>
    have hn := not_and_or.mpr (h.imp Nat.not_lt_of_le Nat.not_lt_of_le)
    exact ⟨(portRead_m_data ..).trans (if_neg hn), (portWrite_m_data ..).trans (if_neg hn)⟩
  case s =>
    obtain ⟨hlt, -⟩ := List.getElem?_eq_some_iff.mp he
    obtain ⟨hlow, hhigh⟩ := setF64Half_halves e (x % 2) data
    refine ⟨_, setF64Half e (x % 2) data, (portRead_s_data ..).trans (congrArg (Option.map _) he),
      (portWrite_s_data ..).trans (congrArg (Option.map _) he), ?_⟩
    rw [vector_getElem_set_fin_self]
    exact ⟨List.length_set, List.getElem?_set_self hlt, hlow, hhigh, fun k hk => List.getElem?_set_ne hk.symm⟩
  case sRefused =>
    have hn := List.getElem?_eq_none h
    exact ⟨(portRead_s_data ..).trans (congrArg (Option.map _) hn),
      (portWrite_s_data ..).trans (congrArg (Option.map _) hn)⟩
  case p =>
    obtain ⟨hlt, -⟩ := List.getElem?_eq_some_iff.mp he
    refine ⟨_, (portRead_p_data ..).trans he, (portWrite_p_data ..).trans (if_pos hlt), ?_⟩
    rw [vector_getElem_set_fin_self]
    exact ⟨List.length_set, List.getElem?_set_self hlt, fun k hk => List.getElem?_set_ne hk.symm⟩
  case pRefused =>
    exact ⟨(portRead_p_data ..).trans (List.getElem?_eq_none h),
      (portWrite_p_data ..).trans (if_neg (Nat.not_lt_of_le h))⟩
  case b =>
    exact ⟨_, _, (portRead_b_data ..).trans (if_pos h), (portWrite_b_data ..).trans (if_pos h),
      fun k hk => packBytes_extract _ _ _ hk, unpackBytes_length ..,
      fun k hk he => unpackBytes_getD_inside hk he data, fun e he => unpackBytes_getD_outside he ..⟩
  case bRefused =>
    have hn := Nat.not_lt_of_le h
    exact ⟨(portRead_b_data ..).trans (if_neg hn), (portWrite_b_data ..).trans (if_neg hn)⟩

end Sys2Proof.Machine

/-! PROOFS. The decoder (30_encoding.md R100–R107): which words are legal commands, field by field as numbers, and what
an illegal word completes with. -/

namespace Sys2Proof

/-! The fields of a word as numbers (R100) -/

theorem opField_toNat (w : Word) : (opField w).toNat = w.toNat / 2 ^ 24 := by
  simp only [opField, BitVec.extractLsb'_toNat, Nat.shiftRight_eq_div_pow]
  omega

theorem fdField_toNat (w : Word) : (fdField w).toNat = w.toNat / 2 ^ 19 % 32 := by
  simp [fdField, Nat.shiftRight_eq_div_pow]

theorem faField_toNat (w : Word) : (faField w).toNat = w.toNat / 2 ^ 14 % 32 := by
  simp [faField, Nat.shiftRight_eq_div_pow]

theorem fbField_toNat (w : Word) : (fbField w).toNat = w.toNat / 2 ^ 9 % 32 := by
  simp [fbField, Nat.shiftRight_eq_div_pow]

theorem rsvField_eq_zero_iff (w : Word) : rsvField w = 0#9 ↔ w.toNat % 2 ^ 9 = 0 := by
  simp [rsvField, BitVec.toNat_eq]

/-! The classes of the ids (R106) -/

theorem asV_isSome_iff (id : ObjId) : (ObjId.asV id).isSome = true ↔ IsVId id.toNat := by
  unfold IsVId; revert id; decide

theorem asS_isSome_iff (id : ObjId) : (ObjId.asS id).isSome = true ↔ IsSId id.toNat := by
  unfold IsSId; revert id; decide

theorem asP_isSome_iff (id : ObjId) : (ObjId.asP id).isSome = true ↔ IsPId id.toNat := by
  unfold IsPId; revert id; decide

theorem asM_isSome_iff (id : ObjId) : (ObjId.asM id).isSome = true ↔ IsMId id.toNat := by
  unfold IsMId; revert id; decide

/-- The ids an X operand of one class can have (R105): `M`, `C` and `B` are no such classes. -/
def IsSeqId : ObjClass → Nat → Prop
  | .V, x => IsVId x
  | .S, x => IsSId x
  | .P, x => IsPId x
  | .M, _ => False
  | .C, _ => False
  | .B, _ => False

theorem asX_objClass_iff (id : ObjId) (c : ObjClass) :
    (ObjId.asX id).map SeqRef.objClass = some c ↔ IsSeqId c id.toNat := by
  cases c <;> simp only [IsSeqId, IsVId, IsSId, IsPId] <;> revert id <;> decide

/-- R105: two X operands are of the same class. -/
theorem asX_same_class_iff (x y : ObjId) :
    (∃ c, (ObjId.asX x).map SeqRef.objClass = some c ∧ (ObjId.asX y).map SeqRef.objClass = some c) ↔
      (IsVId x.toNat ∧ IsVId y.toNat) ∨ (IsSId x.toNat ∧ IsSId y.toNat) ∨ (IsPId x.toNat ∧ IsPId y.toNat) := by
  simp only [asX_objClass_iff]
  constructor
  · rintro ⟨c, hx, hy⟩
    cases c with
    | V => exact .inl ⟨hx, hy⟩
    | S => exact .inr (.inl ⟨hx, hy⟩)
    | P => exact .inr (.inr ⟨hx, hy⟩)
    | M => exact hx.elim
    | C => exact hx.elim
    | B => exact hx.elim
  · rintro (⟨hx, hy⟩ | ⟨hx, hy⟩ | ⟨hx, hy⟩)
    · exact ⟨.V, hx, hy⟩
    · exact ⟨.S, hx, hy⟩
    · exact ⟨.P, hx, hy⟩

/-! The operand table (R105) -/

/-- One row of R105's operand table: what it asks of the three object fields as numbers. -/
def OperandsFit : Opcode → Nat → Nat → Nat → Prop
  | .vadd, fd, fa, fb => IsVId fd ∧ IsVId fa ∧ IsVId fb
  | .veq, fd, fa, fb => fd = 0 ∧ IsVId fa ∧ IsVId fb
  | .vparse, fd, fa, fb => IsVId fd ∧ fa = 19 ∧ fb = 0
  | .vmul, fd, fa, fb => IsVId fd ∧ IsVId fa ∧ IsMId fb
  | .gauss, fd, fa, fb => IsMId fd ∧ IsMId fa ∧ IsPId fb
  | .pinv, fd, fa, fb => IsPId fd ∧ IsPId fa ∧ fb = 0
  | .papply, fd, fa, fb => IsPId fa ∧ ((IsVId fd ∧ IsVId fb) ∨ (IsSId fd ∧ IsSId fb) ∨ (IsPId fd ∧ IsPId fb))
  | .pcols, fd, fa, fb => IsMId fd ∧ IsMId fa ∧ IsPId fb
  | .cinit, fd, fa, fb => fd = 0 ∧ fa = 0 ∧ fb = 0
  | .cadv, fd, fa, fb => fd = 0 ∧ fa = 0 ∧ fb = 0
  | .decode, fd, fa, fb => IsVId fd ∧ IsSId fa ∧ IsMId fb

theorem objId_eq_zero_iff (id : ObjId) : id = 0#5 ↔ id.toNat = 0 := BitVec.toNat_eq

theorem objId_eq_b_iff (id : ObjId) : id = ObjRef.b.id ↔ id.toNat = 19 := BitVec.toNat_eq

/-- The decoder's operand check is the table's row. -/
theorem decodeOperands_isSome_iff (op : Opcode) (fd fa fb : ObjId) :
    (decodeOperands op fd fa fb).isSome = true ↔ OperandsFit op fd.toNat fa.toNat fb.toNat := by
  cases op with
  | vadd =>
    simp only [OperandsFit, ← asV_isSome_iff, decodeOperands]
    split <;> grind [Option.isSome_iff_exists]
  | veq =>
    simp only [OperandsFit, ← asV_isSome_iff, ← objId_eq_zero_iff, decodeOperands]
    split <;> grind [Option.isSome_iff_exists]
  | vparse =>
    simp only [OperandsFit, ← asV_isSome_iff, ← objId_eq_zero_iff, ← objId_eq_b_iff, decodeOperands]
    split <;> grind [Option.isSome_iff_exists]
  | vmul =>
    simp only [OperandsFit, ← asV_isSome_iff, ← asM_isSome_iff, decodeOperands]
    split <;> grind [Option.isSome_iff_exists]
  | gauss =>
    simp only [OperandsFit, ← asM_isSome_iff, ← asP_isSome_iff, decodeOperands]
    split <;> grind [Option.isSome_iff_exists]
  | pinv =>
    simp only [OperandsFit, ← asP_isSome_iff, ← objId_eq_zero_iff, decodeOperands]
    split <;> grind [Option.isSome_iff_exists]
  | papply =>
    rw [OperandsFit, ← asX_same_class_iff, ← asP_isSome_iff]
    simp only [decodeOperands]
    split
    next d a b hd ha hb => simpa [hd, ha, hb] using eq_comm
    next hnone =>
      simp only [Option.isSome_iff_exists, Option.map_eq_some_iff]
      refine ⟨nofun, fun ⟨⟨a, ha⟩, c, ⟨d, hd, _⟩, b, hb, _⟩ => ?_⟩
      exact (hnone d a b hd ha hb).elim
  | pcols =>
    simp only [OperandsFit, ← asM_isSome_iff, ← asP_isSome_iff, decodeOperands]
    split <;> grind [Option.isSome_iff_exists]
  | cinit => simp [OperandsFit, ← objId_eq_zero_iff, decodeOperands]
  | cadv => simp [OperandsFit, ← objId_eq_zero_iff, decodeOperands]
  | decode =>
    simp only [OperandsFit, ← asV_isSome_iff, ← asS_isSome_iff, ← asM_isSome_iff, decodeOperands]
    split <;> grind [Option.isSome_iff_exists]

/-! The opcode map (R103, R104) -/

theorem ofCode_eq_some_iff (c : BitVec 8) (op : Opcode) : Opcode.ofCode c = some op ↔ c.toNat = op.code.toNat := by
  constructor
  · intro h
    rw [code_of_ofCode h]
  · intro h
    rw [BitVec.eq_of_toNat_eq h, ofCode_code]

/-- The opcodes, in the order of the map. -/
theorem Opcode.exists_iff (P : Opcode → Prop) :
    (∃ op, P op) ↔ P .vadd ∨ P .veq ∨ P .vparse ∨ P .vmul ∨ P .gauss ∨ P .pinv ∨ P .papply ∨ P .pcols ∨ P .cinit
      ∨ P .cadv ∨ P .decode := by
  constructor
  · rintro ⟨op, h⟩
    cases op <;> simp only [h, true_or, or_true]
  · rintro (h | h | h | h | h | h | h | h | h | h | h) <;> exact ⟨_, h⟩

/-- The eleven assigned `op` values (R104). -/
def assignedCodes : List Nat := [0x01, 0x02, 0x03, 0x04, 0x10, 0x20, 0x21, 0x22, 0x30, 0x31, 0x40]

theorem exists_ofCode_iff (c : BitVec 8) : (∃ op, Opcode.ofCode c = some op) ↔ c.toNat ∈ assignedCodes := by
  simp only [ofCode_eq_some_iff, Opcode.exists_iff, assignedCodes, List.mem_cons, List.not_mem_nil, or_false]
  rfl

/-! The decoder (R107) -/

theorem decode_of_reserved {w : Word} (h : Opcode.ofCode (opField w) = none) :
    decode w = .error .illegalOpcode := by
  simp only [decode, h]

theorem decode_of_assigned {w : Word} {op : Opcode} (h : Opcode.ofCode (opField w) = some op) :
    (∃ i, rsvField w = 0#9 ∧ decodeOperands op (fdField w) (faField w) (fbField w) = some i ∧ decode w = .ok i) ∨
      (¬ (rsvField w = 0#9 ∧ (decodeOperands op (fdField w) (faField w) (fbField w)).isSome = true) ∧
        decode w = .error .illegalOperand) := by
  by_cases hr : rsvField w = 0#9
  · cases ho : decodeOperands op (fdField w) (faField w) (fbField w) with
    | some i => exact .inl ⟨i, hr, rfl, by simp [decode, h, hr, ho]⟩
    | none => exact .inr ⟨by simp, by simp [decode, h, hr, ho]⟩
  · exact .inr ⟨fun hl => hr hl.1, by simp [decode, h, hr]⟩

/-- A word is a legal command when `rsv` is 0 and its fields stand in the row of its opcode. -/
theorem exists_decode_eq_ok_iff (w : Word) :
    (∃ i, decode w = .ok i) ↔ rsvField w = 0#9 ∧ ∃ op, Opcode.ofCode (opField w) = some op ∧
      OperandsFit op (fdField w).toNat (faField w).toNat (fbField w).toNat := by
  simp only [← decodeOperands_isSome_iff]
  cases h : Opcode.ofCode (opField w) with
  | none => simp [decode_of_reserved h]
  | some op =>
    obtain ⟨i, hr, ho, hd⟩ | ⟨hn, hd⟩ := decode_of_assigned h
    · simp [hd, hr, ho]
    · simpa [hd] using hn

/-- Settles O4: `exists_decode_eq_ok_iff` with the fields as numbers and the eleven opcodes one by one. -/
theorem legalWordsAreTheTable : Obligations.LegalWordsAreTheTable := by
  intro w
  dsimp only
  rw [exists_decode_eq_ok_iff, rsvField_eq_zero_iff, ← opField_toNat, ← fdField_toNat, ← faField_toNat,
    ← fbField_toNat]
  simp only [ofCode_eq_some_iff, Opcode.exists_iff]
  rfl

end Sys2Proof

namespace Sys2Proof.Machine

/-! What an illegal word completes with -/

theorem nextTurn_snd (s : State) : (nextTurn s).2 = { s with turns := s.turns.tail } := by
  unfold nextTurn
  split
  next h => rw [h, List.tail_cons]
  next h => rw [h, List.tail_nil, ← h]

/-- R107: in its turn, a busy engine with an illegal word writes `ERR` and `BUSY` and nothing else. -/
theorem step_of_decode_error {s : State} {e : DecodeError} (hbusy : s.regs.busy = true)
    (hturn : (nextTurn s).1 = .engine) (hdec : decode s.regs.pend = .error e) :
    step s = .next { s with
      regs := { s.regs with err := decodeErrCode e, busy := false }, turns := s.turns.tail } := by
  simp only [step, hturn, takeTurn, hbusy, if_true, completionStep, hdec, raiseError, nextTurn_snd,
    State.finish]

/-- Settles O5: the decoder's answer by whether `op` is assigned, then the step of an illegal word. -/
theorem illegalWordCompletesWithItsError : Obligations.IllegalWordCompletesWithItsError := by
  intro s hbusy hturn
  rw [← opField_toNat, ← assignedCodes, ← exists_ofCode_iff]
  refine ⟨fun hreserved => ?opcode, fun ⟨op, hop⟩ hillegal => ?operand⟩
  case opcode =>
    have hdec := decode_of_reserved (Option.eq_none_iff_forall_ne_some.mpr (not_exists.mp hreserved))
    exact step_of_decode_error hbusy hturn hdec
  case operand =>
    obtain ⟨i, -, -, hok⟩ | ⟨-, hdec⟩ := decode_of_assigned hop
    · exact absurd hok (hillegal i)
    · exact step_of_decode_error hbusy hturn hdec

end Sys2Proof.Machine

/-! PROOFS. The operand check of one opcode (R100, R105, R107), for every command: the fields of a word built from
numbers, what the decoder makes of them, and what the engine completes an illegal one with. -/

namespace Sys2Proof

/-- The word of R100 with its five fields given as numbers. -/
def fieldsWord (op fd fa fb rsv : Nat) : Word :=
  BitVec.ofNat 32 (op * 2 ^ 24 + fd * 2 ^ 19 + fa * 2 ^ 14 + fb * 2 ^ 9 + rsv)

section
variable {op fd fa fb rsv : Nat} (hop : op < 256) (hfd : fd < 32) (hfa : fa < 32) (hfb : fb < 32) (hrsv : rsv < 512)
include hop hfd hfa hfb hrsv

theorem fieldsWord_toNat : (fieldsWord op fd fa fb rsv).toNat =
    op * 2 ^ 24 + fd * 2 ^ 19 + fa * 2 ^ 14 + fb * 2 ^ 9 + rsv := by
  rw [fieldsWord, BitVec.toNat_ofNat]
  omega

theorem opField_fieldsWord : (opField (fieldsWord op fd fa fb rsv)).toNat = op := by
  rw [opField_toNat, fieldsWord_toNat hop hfd hfa hfb hrsv]
  omega

theorem fdField_fieldsWord : (fdField (fieldsWord op fd fa fb rsv)).toNat = fd := by
  rw [fdField_toNat, fieldsWord_toNat hop hfd hfa hfb hrsv]
  omega

theorem faField_fieldsWord : (faField (fieldsWord op fd fa fb rsv)).toNat = fa := by
  rw [faField_toNat, fieldsWord_toNat hop hfd hfa hfb hrsv]
  omega

theorem fbField_fieldsWord : (fbField (fieldsWord op fd fa fb rsv)).toNat = fb := by
  rw [fbField_toNat, fieldsWord_toNat hop hfd hfa hfb hrsv]
  omega

theorem rsvField_fieldsWord : rsvField (fieldsWord op fd fa fb rsv) = 0#9 ↔ rsv = 0 := by
  rw [rsvField_eq_zero_iff, fieldsWord_toNat hop hfd hfa hfb hrsv]
  omega

end

/-! The object an id of a class names, by its number (R106) -/

theorem asV_of_isVId {id : ObjId} (h : IsVId id.toNat) : ObjId.asV id = some (Fin.ofNat 8 id.toNat) := by
  unfold IsVId at h; revert id; decide

theorem asM_of_isMId {id : ObjId} (h : IsMId id.toNat) : ObjId.asM id = some (Fin.ofNat 2 (id.toNat - 16)) := by
  unfold IsMId at h; revert id; decide

end Sys2Proof

namespace Sys2Proof.Machine

theorem completionStep_of_decode_error {s : State} {e : DecodeError} (h : decode s.regs.pend = .error e) :
    completionStep s = .next (s.finish (decodeErrCode e)) := by
  simp only [completionStep, h, raiseError]

/-- R105, R107: an opcode keeps the operand rule of its row when the decoder makes the row's command of fields that
fit. That every other word is refused holds of all rows alike. -/
theorem operandRule_of_decodeOperands {op : Opcode} {cmd : Nat → Nat → Nat → Instr}
    (hcmd : ∀ fd fa fb : ObjId, OperandsFit op fd.toNat fa.toNat fb.toNat →
      decodeOperands op fd fa fb = some (cmd fd.toNat fa.toNat fb.toNat)) :
    OperandRule op.code.toNat (OperandsFit op) cmd := by
  intro fd fa fb rsv hfd hfa hfb hrsv
  rw [← fieldsWord]
  generalize hword : fieldsWord op.code.toNat fd fa fb rsv = word
  have hop := opField_fieldsWord op.code.isLt hfd hfa hfb hrsv
  have hd := fdField_fieldsWord op.code.isLt hfd hfa hfb hrsv
  have ha := faField_fieldsWord op.code.isLt hfd hfa hfb hrsv
  have hb := fbField_fieldsWord op.code.isLt hfd hfa hfb hrsv
  have hr := rsvField_fieldsWord op.code.isLt hfd hfa hfb hrsv
  rw [hword] at hop hd ha hb hr
  rw [← hd, ← ha, ← hb, ← hr]
  obtain ⟨i, hrsv0, hi, hok⟩ | ⟨hbad, herr⟩ := decode_of_assigned ((ofCode_eq_some_iff _ op).mpr hop)
  · have hfits : OperandsFit op (fdField word).toNat (faField word).toNat (fbField word).toNat := by
      rw [← decodeOperands_isSome_iff, hi, Option.isSome_some]
    have hcmd_i := Option.some.inj (hi.symm.trans (hcmd _ _ _ hfits))
    exact ⟨fun _ => hok.trans (congrArg _ hcmd_i), fun hn => absurd ⟨hrsv0, hfits⟩ hn⟩
  · rw [decodeOperands_isSome_iff] at hbad
    refine ⟨fun hl => absurd hl hbad, fun _ s hpend => completionStep_of_decode_error (e := .illegalOperand) ?_⟩
    rw [hpend, herr]

/-! What a command that ends by a shared operation leaves (R32, R56, R261) -/

/-- A command whose whole effect is one V object written succeeds, and keeps the flags and everything else. -/
theorem succeeds_setV {i : Instr} {s : State} {d : VId} {x : List Bool} (h : exec i s = complete (s.setV d x)) :
    ∃ t, Succeeds i s t ∧ t.store.v[d] = x ∧ t.regs.res = s.regs.res ∧ t.regs.metric = s.regs.metric
      ∧ KeepsAllBut [.v d] s t := by
  refine ⟨(s.setV d x).finish .ok, ⟨h, rfl, rfl⟩, vector_getElem_set_fin_self _ _ _, rfl, rfl, fun o ho => ?_,
    rfl, rfl, rfl, rfl, rfl, rfl, rfl, rfl, rfl, rfl, rfl⟩
  rw [finish_store, value_setV, if_neg (List.ne_of_not_mem_cons ho)]

/-- A command whose whole effect is `RES` succeeds, and keeps every object and everything else. -/
theorem succeeds_setRes {i : Instr} {s : State} {b : Bool} (h : exec i s = complete (s.setRes b)) :
    ∃ t, Succeeds i s t ∧ t.regs.res = b ∧ t.regs.metric = s.regs.metric ∧ KeepsAllBut [] s t :=
  ⟨(s.setRes b).finish .ok, ⟨h, rfl, rfl⟩, rfl, rfl, fun _ _ => rfl, rfl, rfl, rfl, rfl, rfl, rfl, rfl, rfl, rfl, rfl,
    rfl⟩

/-- `FailsWith` is `raiseError` as the command's one answer. -/
theorem failsWith_iff {i : Instr} {s : State} {e : ErrCode} : FailsWith i s e ↔ exec i s = raiseError e s := Iff.rfl

end Sys2Proof.Machine

/-! PROOFS. The GF(2) vector and matrix commands (40_gf2_vector_matrix.md R130–R135): what `VADD`, `VEQ`, `VPARSE` and
`VMUL` compute, element by element, and their four statements. -/

namespace Sys2Proof.Machine

/-! `VADD` (R132) -/

theorem exec_vadd_of_length_eq {s : State} {fa fb : VId} (h : s.store.v[fa].length = s.store.v[fb].length)
    (fd : VId) : exec (.vadd fd fa fb) s = complete (s.setV fd (addBits s.store.v[fa] s.store.v[fb])) :=
  if_neg (not_not_intro h)

theorem exec_vadd_of_length_ne {s : State} {fa fb : VId} (h : s.store.v[fa].length ≠ s.store.v[fb].length)
    (fd : VId) : exec (.vadd fd fa fb) s = raiseError .lengthMismatch s :=
  if_pos h

theorem operandRule_vadd : OperandRule 0x01 (fun d a b => IsVId d ∧ IsVId a ∧ IsVId b)
    (fun d a b => .vadd (Fin.ofNat 8 d) (Fin.ofNat 8 a) (Fin.ofNat 8 b)) :=
  operandRule_of_decodeOperands (op := .vadd) fun fd fa fb ⟨hd, ha, hb⟩ => by
    simp only [decodeOperands, asV_of_isVId hd, asV_of_isVId ha, asV_of_isVId hb]

/-- Settles O14: the operand rule of the row, then the sum by `addBits_getD`, or the length check's error. -/
theorem vaddResult : Obligations.VaddResult := by
  refine ⟨operandRule_vadd, fun fd fa fb s =>
    ⟨fun hlen => ?_, fun hlen => failsWith_iff.mpr (exec_vadd_of_length_ne hlen fd)⟩⟩
  obtain ⟨t, hsucc, hval, hframe⟩ := succeeds_setV (exec_vadd_of_length_eq hlen fd)
  refine ⟨t, hsucc, ?_, fun j _ => ?_, hframe⟩
  · rw [hval, addBits_length, ← hlen, Nat.min_self]
  · rw [hval, addBits_getD hlen]

/-! `VEQ` (R133) -/

theorem exec_veq_of_length_eq {s : State} {fa fb : VId} (h : s.store.v[fa].length = s.store.v[fb].length) :
    exec (.veq fa fb) s = complete (s.setRes (decide (s.store.v[fa] = s.store.v[fb]))) :=
  if_neg (not_not_intro h)

theorem exec_veq_of_length_ne {s : State} {fa fb : VId} (h : s.store.v[fa].length ≠ s.store.v[fb].length) :
    exec (.veq fa fb) s = raiseError .lengthMismatch s :=
  if_pos h

theorem operandRule_veq : OperandRule 0x02 (fun d a b => d = 0 ∧ IsVId a ∧ IsVId b)
    (fun _ a b => .veq (Fin.ofNat 8 a) (Fin.ofNat 8 b)) :=
  operandRule_of_decodeOperands (op := .veq) fun fd fa fb ⟨hd, ha, hb⟩ => by
    simp only [decodeOperands, asV_of_isVId ha, asV_of_isVId hb, (objId_eq_zero_iff fd).mpr hd, if_true]

theorem bits_eq_iff_getD {a b : List Bool} (h : a.length = b.length) :
    a = b ↔ ∀ j, j < a.length → a.getD j false = b.getD j false := by
  refine ⟨fun hab j _ => by rw [hab], fun hel => List.ext_getElem h fun j ha hb => ?_⟩
  simpa only [List.getD_eq_getElem _ _ ha, List.getD_eq_getElem _ _ hb] using hel j ha

/-- Settles O15: `RES` is the equality of the two lists, which for one length is element-wise. -/
theorem veqResult : Obligations.VeqResult := by
  refine ⟨operandRule_veq, fun fa fb s => ⟨fun hlen => ?_, fun hlen => failsWith_iff.mpr (exec_veq_of_length_ne hlen)⟩⟩
  obtain ⟨t, hsucc, hres, hframe⟩ := succeeds_setRes (exec_veq_of_length_eq hlen)
  refine ⟨t, hsucc, ?_, hframe⟩
  rw [hres, decide_eq_true_iff, bits_eq_iff_getD hlen]

/-! `VPARSE` (R134) -/

theorem isBitChar_iff (ch : Byte) : isBitChar ch = true ↔ ch = 0x30#8 ∨ ch = 0x31#8 := by
  simp [isBitChar]

theorem exec_vparse_of_bitChars {s : State} (h : ∀ ch ∈ s.store.b, ch = 0x30#8 ∨ ch = 0x31#8) (fd : VId) :
    exec (.vparse fd) s = complete (s.setV fd (s.store.b.map fun ch => decide (ch = 0x31#8))) :=
  if_pos (List.all_eq_true.mpr fun ch hch => (isBitChar_iff ch).mpr (h ch hch))

theorem exec_vparse_of_other_char {s : State} (h : ∃ ch ∈ s.store.b, ch ≠ 0x30#8 ∧ ch ≠ 0x31#8) (fd : VId) :
    exec (.vparse fd) s = raiseError .invalidInput s := by
  obtain ⟨ch, hch, h0, h1⟩ := h
  refine if_neg fun hall => ?_
  exact ((isBitChar_iff ch).mp (List.all_eq_true.mp hall ch hch)).elim h0 h1

theorem operandRule_vparse : OperandRule 0x03 (fun d a b => IsVId d ∧ a = 19 ∧ b = 0)
    (fun d _ _ => .vparse (Fin.ofNat 8 d)) :=
  operandRule_of_decodeOperands (op := .vparse) fun fd fa fb ⟨hd, ha, hb⟩ => by
    simp only [decodeOperands, asV_of_isVId hd, (objId_eq_b_iff fa).mpr ha, (objId_eq_zero_iff fb).mpr hb, and_self,
      if_true]

/-- Settles O16: the case split is the check of all characters; a parsed element is the test of its byte. -/
theorem vparseResult : Obligations.VparseResult := by
  refine ⟨operandRule_vparse, fun fd s =>
    ⟨fun hbits => ?_, fun hother => failsWith_iff.mpr (exec_vparse_of_other_char hother fd)⟩⟩
  obtain ⟨t, hsucc, hval, hframe⟩ := succeeds_setV (exec_vparse_of_bitChars hbits fd)
  refine ⟨t, hsucc, ?_, fun j hj => ?_, hframe⟩
  · rw [hval, List.length_map]
  · rw [hval, List.getD_eq_getElem _ _ ((List.length_map _).symm ▸ hj), List.getElem_map, decide_eq_true_iff,
      List.getD_eq_getElem _ _ hj]

/-! `VMUL` (R135) -/

theorem exec_vmul_of_fits {s : State} {fa : VId} {fb : MId} (hrows : 1 ≤ s.store.m[fb].rowCount)
    (hlen : s.store.v[fa].length = s.store.m[fb].rowCount) (fd : VId) :
    exec (.vmul fd fa fb) s = complete (s.setV fd (multiply s.store.v[fa] s.store.m[fb])) :=
  (if_neg (Nat.ne_of_gt hrows)).trans (if_neg (not_not_intro hlen))

theorem exec_vmul_of_not_fits {s : State} {fa : VId} {fb : MId}
    (h : s.store.m[fb].rowCount = 0 ∨ s.store.v[fa].length ≠ s.store.m[fb].rowCount) (fd : VId) :
    exec (.vmul fd fa fb) s = raiseError .lengthMismatch s := by
  by_cases hrows : s.store.m[fb].rowCount = 0
  · exact if_pos hrows
  · exact (if_neg hrows).trans (if_pos (h.resolve_left hrows))

theorem operandRule_vmul : OperandRule 0x04 (fun d a b => IsVId d ∧ IsVId a ∧ IsMId b)
    (fun d a b => .vmul (Fin.ofNat 8 d) (Fin.ofNat 8 a) (Fin.ofNat 2 (b - 16))) :=
  operandRule_of_decodeOperands (op := .vmul) fun fd fa fb ⟨hd, ha, hb⟩ => by
    simp only [decodeOperands, asV_of_isVId hd, asV_of_isVId ha, asM_of_isMId hb]

/-- One round of `multiply`'s loop: the row is added when its bit is 1. -/
def addChosenRow (r : List Bool) (x : Bool × List Bool) : List Bool := if x.1 then addBits r x.2 else r

theorem multiply_eq_foldl (v : List Bool) (m : Matrix) :
    multiply v m = (v.zip m.rows).foldl addChosenRow (List.replicate m.cols false) := rfl

theorem addChosenRow_length {r : List Bool} {x : Bool × List Bool} (h : x.2.length = r.length) :
    (addChosenRow r x).length = r.length := by
  obtain ⟨bit, row⟩ := x
  cases bit with
  | true => exact (addBits_length r row).trans (Nat.min_eq_left h.ge)
  | false => rfl

theorem addChosenRow_getD {r : List Bool} {x : Bool × List Bool} (h : x.2.length = r.length) (c : Nat) :
    (addChosenRow r x).getD c false = xor (r.getD c false) (x.1 && x.2.getD c false) := by
  obtain ⟨bit, row⟩ := x
  cases bit with
  | true => exact addBits_getD h.symm c
  | false => exact (Bool.xor_false _).symm

/-- One more element counted or not changes the parity of a count by XOR. -/
theorem parity_add_ite (n : Nat) (b : Bool) :
    decide ((n + if b = true then 1 else 0) % 2 = 1) = xor b (decide (n % 2 = 1)) := by
  cases b with
  | false => simp
  | true =>
    rw [if_pos rfl, Bool.true_xor, ← decide_not, decide_eq_decide]
    omega

/-- Bit `c` of a sum of chosen rows flips once for each chosen row with a 1 in column `c`. -/
theorem foldl_addChosenRow_getD (c : Nat) (l : List (Bool × List Bool)) (r : List Bool)
    (h : ∀ x ∈ l, x.2.length = r.length) :
    (l.foldl addChosenRow r).getD c false =
      xor (r.getD c false) (decide (l.countP (fun x => x.1 && x.2.getD c false) % 2 = 1)) := by
  induction l generalizing r with
  | nil => simp
  | cons x l ih =>
    obtain ⟨hx, hl⟩ := List.forall_mem_cons.mp h
    rw [List.foldl_cons, ih _ fun y hy => (hl y hy).trans (addChosenRow_length hx).symm, addChosenRow_getD hx,
      List.countP_cons, parity_add_ite, Bool.xor_assoc]

theorem zip_rows_eq_map_range {v : List Bool} {m : Matrix} (h : v.length = m.rowCount) :
    v.zip m.rows = (List.range m.rowCount).map fun i => (v.getD i false, m.row i) := by
  refine List.ext_getElem (by simp [h, Matrix.rowCount]) fun i hz hr => ?_
  have hi : i < m.rowCount := by simpa using hr
  rw [List.getElem_zip, List.getElem_map, List.getElem_range, List.getD_eq_getElem _ _ (h ▸ hi), row_of_lt hi]
  rfl

/-- R135: bit `c` of the product is the parity of the rows chosen by `v` with a 1 in column `c`. -/
theorem multiply_getD {v : List Bool} {m : Matrix} (hrows : ∀ row ∈ m.rows, row.length = m.cols)
    (hlen : v.length = m.rowCount) (c : Nat) :
    (multiply v m).getD c false =
      decide (((List.range m.rowCount).countP fun i => v.getD i false && m.entry i c) % 2 = 1) := by
  have hzip : ∀ x ∈ v.zip m.rows, x.2.length = (List.replicate m.cols false).length := fun x hx => by
    rw [hrows _ (List.of_mem_zip hx).2, List.length_replicate]
  rw [multiply_eq_foldl, foldl_addChosenRow_getD c _ _ hzip, zip_rows_eq_map_range hlen, List.countP_map]
  simp [Function.comp_def, Matrix.entry]

/-- Settles O17: the product's length and bits for rows of one length, or the error of the two length checks. -/
theorem vmulResult : Obligations.VmulResult := by
  refine ⟨operandRule_vmul, fun fd fa fb s hwf =>
    ⟨fun hrows hlen => ?_, fun hbad => failsWith_iff.mpr (exec_vmul_of_not_fits hbad fd)⟩⟩
  obtain ⟨-, ⟨-, -, -, hm, -⟩, -⟩ := hwf
  obtain ⟨-, -, hcols⟩ := hm fb
  obtain ⟨t, hsucc, hval, hframe⟩ := succeeds_setV (exec_vmul_of_fits hrows hlen fd)
  refine ⟨t, hsucc, ?_, fun c _ => ?_, hframe⟩
  · rw [hval, multiply_length hcols]
  · rw [hval, multiply_getD hcols hlen]

end Sys2Proof.Machine

/-! PROOFS. Gaussian elimination (41_gaussian_elimination.md R161): the operand rule of `GAUSS`, its three outcomes, and
the statement about them. -/

namespace Sys2Proof

theorem asP_of_isPId {id : ObjId} (h : IsPId id.toNat) : ObjId.asP id = some (Fin.ofNat 4 (id.toNat - 12)) := by
  unfold IsPId at h; revert id; decide

end Sys2Proof

namespace Sys2Proof.Machine

/-- A command whose whole effect is one M object and one P object written succeeds, and keeps the flags and everything
else. The two never alias: they are objects of different classes. -/
theorem succeeds_setM_setP {i : Instr} {s : State} {d : MId} {q : PId} {m : Matrix} {x : List Word}
    (h : exec i s = complete ((s.setM d m).setP q x)) :
    ∃ t, Succeeds i s t ∧ t.store.m[d] = m ∧ t.store.p[q] = x ∧ t.regs.res = s.regs.res
      ∧ t.regs.metric = s.regs.metric ∧ KeepsAllBut [.m d, .p q] s t := by
  refine ⟨((s.setM d m).setP q x).finish .ok, ⟨h, rfl, rfl⟩, vector_getElem_set_fin_self _ _ _,
    vector_getElem_set_fin_self _ _ _, rfl, rfl, fun o ho => ?_, rfl, rfl, rfl, rfl, rfl, rfl, rfl, rfl, rfl, rfl, rfl⟩
  have hm : o ≠ .m d := List.ne_of_not_mem_cons ho
  have hp : o ≠ .p q := List.ne_of_not_mem_cons (List.not_mem_of_not_mem_cons ho)
  rw [finish_store, value_setP, if_neg hp, value_setM, if_neg hm]

/-! The three outcomes of `GAUSS` (R161) -/

section
variable {s : State} {fa : MId}

theorem exec_gauss_of_no_rows (hrows : s.store.m[fa].rowCount = 0) (fd : MId) (fb : PId) :
    exec (.gauss fd fa fb) s = raiseError .lengthMismatch s :=
  if_pos hrows

theorem exec_gauss_of_missing_pivot (hrows : 1 ≤ s.store.m[fa].rowCount)
    (hpivots : (gauss s.store.m[fa]).2.length < s.store.m[fa].rowCount) (fd : MId) (fb : PId) :
    exec (.gauss fd fa fb) s = raiseError .rankDeficiency s :=
  (if_neg (Nat.ne_of_gt hrows)).trans (if_pos hpivots)

theorem exec_gauss_of_all_pivots (hrows : 1 ≤ s.store.m[fa].rowCount)
    (hpivots : (gauss s.store.m[fa]).2.length = s.store.m[fa].rowCount) (fd : MId) (fb : PId) :
    exec (.gauss fd fa fb) s =
      complete ((s.setM fd (gauss s.store.m[fa]).1).setP fb (indexWords (gauss s.store.m[fa]).2)) :=
  (if_neg (Nat.ne_of_gt hrows)).trans (if_neg (Nat.not_lt_of_ge hpivots.ge))

end

theorem operandRule_gauss : OperandRule 0x10 (fun d a b => IsMId d ∧ IsMId a ∧ IsPId b)
    (fun d a b => .gauss (Fin.ofNat 2 (d - 16)) (Fin.ofNat 2 (a - 16)) (Fin.ofNat 4 (b - 12))) :=
  operandRule_of_decodeOperands (op := .gauss) fun fd fa fb ⟨hd, ha, hb⟩ => by
    simp only [decodeOperands, asM_of_isMId hd, asM_of_isMId ha, asP_of_isPId hb]

/-- Settles O20: the operand rule of the row, then one outcome of `GAUSS` for each case of the row and pivot counts. -/
theorem gaussRunsTheElimination : Obligations.GaussRunsTheElimination := by
  refine ⟨operandRule_gauss, fun fd fa fb s => ⟨fun hrows hpivots => ?full, fun hrows hpivots => ?deficient,
    fun hrows => ?empty⟩⟩
  case full => exact succeeds_setM_setP (exec_gauss_of_all_pivots hrows hpivots fd fb)
  case deficient => exact failsWith_iff.mpr (exec_gauss_of_missing_pivot hrows hpivots fd fb)
  case empty => exact failsWith_iff.mpr (exec_gauss_of_no_rows hrows fd fb)

end Sys2Proof.Machine

/-! PROOFS. The permutation commands (42_permutation.md R180–R184): which X operand an id names, where a permutation
puts each element, and what `PINV`, `PAPPLY` and `PCOLS` write or refuse. -/

namespace Sys2Proof

/-- The X operand an id of class V, S or P names, by its number (R33, R106). -/
def seqRefOfId (x : Nat) : SeqRef :=
  if x ≤ 7 then .v (Fin.ofNat 8 x) else if x ≤ 11 then .s (Fin.ofNat 4 (x - 8)) else .p (Fin.ofNat 4 (x - 12))

theorem asX_of_isSeqId {id : ObjId} {c : ObjClass} (h : IsSeqId c id.toNat) :
    ObjId.asX id = some (seqRefOfId id.toNat) := by
  rw [← asX_objClass_iff] at h; revert id; cases c <;> decide

theorem seqRefOfId_objClass {id : ObjId} {c : ObjClass} (h : IsSeqId c id.toNat) :
    (seqRefOfId id.toNat).objClass = c := by
  have hclass := (asX_objClass_iff id c).mpr h
  rw [asX_of_isSeqId h] at hclass
  exact Option.some.inj hclass

end Sys2Proof

namespace Sys2Proof.Machine

/-! What a command that ends by writing one object leaves (R32, R38) -/

/-- A command whose whole effect is on the store succeeds, and keeps the flags and every object the write spares. -/
theorem succeeds_withStore {i : Instr} {s : State} {st : ObjectStore} {dsts : List ObjRef}
    (h : exec i s = complete { s with store := st })
    (hrest : ∀ o : ObjRef, o ∉ dsts → st.value o = s.store.value o) :
    ∃ t, Succeeds i s t ∧ t.store = st ∧ t.regs.res = s.regs.res ∧ t.regs.metric = s.regs.metric
      ∧ KeepsAllBut dsts s t :=
  ⟨State.finish { s with store := st } .ok, ⟨h, rfl, rfl⟩, rfl, rfl, rfl, hrest,
    rfl, rfl, rfl, rfl, rfl, rfl, rfl, rfl, rfl, rfl, rfl⟩

section
variable {i : Instr} {s : State}

theorem succeeds_setS {d : SId} {x : List F64} (h : exec i s = complete (s.setS d x)) :
    ∃ t, Succeeds i s t ∧ t.store.s[d] = x ∧ t.regs.res = s.regs.res ∧ t.regs.metric = s.regs.metric
      ∧ KeepsAllBut [.s d] s t := by
  obtain ⟨t, hsucc, hstore, hframe⟩ := succeeds_withStore (dsts := [.s d]) h fun o ho =>
    (value_setS s d x o).trans (if_neg (List.ne_of_not_mem_cons ho))
  exact ⟨t, hsucc, by rw [hstore, vector_getElem_set_fin_self], hframe⟩

theorem succeeds_setP {d : PId} {x : List Word} (h : exec i s = complete (s.setP d x)) :
    ∃ t, Succeeds i s t ∧ t.store.p[d] = x ∧ t.regs.res = s.regs.res ∧ t.regs.metric = s.regs.metric
      ∧ KeepsAllBut [.p d] s t := by
  obtain ⟨t, hsucc, hstore, hframe⟩ := succeeds_withStore (dsts := [.p d]) h fun o ho =>
    (value_setP s d x o).trans (if_neg (List.ne_of_not_mem_cons ho))
  exact ⟨t, hsucc, by rw [hstore, vector_getElem_set_fin_self], hframe⟩

theorem succeeds_setM {d : MId} {m : Matrix} (h : exec i s = complete (s.setM d m)) :
    ∃ t, Succeeds i s t ∧ t.store.m[d] = m ∧ t.regs.res = s.regs.res ∧ t.regs.metric = s.regs.metric
      ∧ KeepsAllBut [.m d] s t := by
  obtain ⟨t, hsucc, hstore, hframe⟩ := succeeds_withStore (dsts := [.m d]) h fun o ho =>
    (value_setM s d m o).trans (if_neg (List.ne_of_not_mem_cons ho))
  exact ⟨t, hsucc, by rw [hstore, vector_getElem_set_fin_self], hframe⟩

end

/-! Permutations (R180, R181) -/

theorem bij_iff_isPermutation {p : List Nat} : bij p = true ↔ IsPermutation p := bij_iff

/-- R181: element `i` goes to position `p[i]`. -/
theorem applyPerm_getElem?_getD {α : Type} {p : List Nat} {x : List α} (hp : IsPermutation p)
    (hlen : p.length = x.length) {i : Nat} (hi : i < x.length) : (applyPerm p x)[p.getD i 0]? = x[i]? := by
  rw [List.getD_eq_getElem _ _ (hlen ▸ hi)]
  exact applyPerm_getElem? (bij_iff_isPermutation.mpr hp) hlen i (hlen ▸ hi)

/-- R181: `q[p[i]] = i`. -/
theorem invert_getElem?_getD {p : List Nat} (hp : IsPermutation p) {i : Nat} (hi : i < p.length) :
    (invert p)[p.getD i 0]? = some i := by
  have hr : i < (List.range p.length).length := by rwa [List.length_range]
  rw [invert, applyPerm_getElem?_getD hp List.length_range.symm hr, List.getElem?_range hi]

section
variable {α : Type} {p : List Nat} {x : List α}

theorem checkedApply_of_length_ne (hlen : p.length ≠ x.length) : checkedApply p x = .error .lengthMismatch :=
  if_pos hlen

theorem checkedApply_of_isPermutation (hlen : p.length = x.length) (hp : IsPermutation p) :
    checkedApply p x = .ok (applyPerm p x) :=
  (if_neg (not_not_intro hlen)).trans (if_pos (bij_iff_isPermutation.mpr hp))

theorem checkedApply_of_not_isPermutation (hlen : p.length = x.length) (hp : ¬ IsPermutation p) :
    checkedApply p x = .error .invalidPermutation :=
  (if_neg (not_not_intro hlen)).trans (if_neg (mt bij_iff_isPermutation.mp hp))

end

/-! `PINV` (R182) -/

theorem exec_pinv_of_isPermutation {s : State} {fa : PId} (hp : IsPermutation (indexNats s.store.p[fa])) (fd : PId) :
    exec (.pinv fd fa) s = complete (s.setP fd (indexWords (invert (indexNats s.store.p[fa])))) :=
  if_pos (bij_iff_isPermutation.mpr hp)

theorem exec_pinv_of_not_isPermutation {s : State} {fa : PId} (hp : ¬ IsPermutation (indexNats s.store.p[fa]))
    (fd : PId) : exec (.pinv fd fa) s = raiseError .invalidPermutation s :=
  if_neg (mt bij_iff_isPermutation.mp hp)

theorem operandRule_pinv : OperandRule 0x20 (fun d a b => IsPId d ∧ IsPId a ∧ b = 0)
    (fun d a _ => .pinv (Fin.ofNat 4 (d - 12)) (Fin.ofNat 4 (a - 12))) :=
  operandRule_of_decodeOperands (op := .pinv) fun fd fa fb ⟨hd, ha, hb⟩ => by
    simp only [decodeOperands, asP_of_isPId hd, asP_of_isPId ha, (objId_eq_zero_iff fb).mpr hb, if_true]

/-- Settles O24: the operand rule of the row, then the inverse's elements by `invert_getElem?_getD`, or the error. -/
theorem pinvResult : Obligations.PinvResult := by
  refine ⟨operandRule_pinv, fun fd fa s _ =>
    ⟨fun hp => ?_, fun hp => failsWith_iff.mpr (exec_pinv_of_not_isPermutation hp fd)⟩⟩
  obtain ⟨t, hsucc, hval, hframe⟩ := succeeds_setP (exec_pinv_of_isPermutation hp fd)
  refine ⟨t, hsucc, ?_, fun i hi => ?_, hframe⟩
  · rw [hval, indexWords_length, invert_length, indexNats_length]
  · rw [hval, indexWords, List.getElem?_map, invert_getElem?_getD hp (by rwa [indexNats_length]), Option.map_some]

/-! `PAPPLY` (R183) -/

/-- How `PAPPLY` ends on the answer of its checks: the write of the result, or the error. -/
def endChecked {α : Type} (s : State) (write : α → State) : Except ErrCode α → Result
  | .ok x => complete (write x)
  | .error e => raiseError e s

section
variable (s : State) (fa : PId)

theorem exec_papply_v (d q : VId) : exec (.papply (.v d) fa (.v q)) s =
    endChecked s (s.setV d) (checkedApply (indexNats s.store.p[fa]) s.store.v[q]) := by
  simp only [exec, execPapply]
  cases checkedApply (indexNats s.store.p[fa]) s.store.v[q] <;> rfl

theorem exec_papply_s (d q : SId) : exec (.papply (.s d) fa (.s q)) s =
    endChecked s (s.setS d) (checkedApply (indexNats s.store.p[fa]) s.store.s[q]) := by
  simp only [exec, execPapply]
  cases checkedApply (indexNats s.store.p[fa]) s.store.s[q] <;> rfl

theorem exec_papply_p (d q : PId) : exec (.papply (.p d) fa (.p q)) s =
    endChecked s (s.setP d) (checkedApply (indexNats s.store.p[fa]) s.store.p[q]) := by
  simp only [exec, execPapply]
  cases checkedApply (indexNats s.store.p[fa]) s.store.p[q] <;> rfl

/-- R105: two X operands of different classes make no form of `PAPPLY`. -/
theorem exec_papply_of_objClass_ne {fd fb : SeqRef} (h : fd.objClass ≠ fb.objClass) :
    exec (.papply fd fa fb) s = raiseError .illegalOperand s := by
  simp only [exec, execPapply]
  split
  case h_1 => exact absurd rfl h
  case h_2 => exact absurd rfl h
  case h_3 => exact absurd rfl h
  case h_4 => rfl

end

/-- R183 of one form of `PAPPLY`, whatever the class: `write` is the form's write, and `read` reads what it wrote. -/
theorem papply_outcomes {α : Type} {i : Instr} {s : State} {dst : ObjRef} {p : List Word} {x : List α}
    {write : List α → State} {read : State → List α}
    (hexec : exec i s = endChecked s write (checkedApply (indexNats p) x))
    (hwrite : ∀ {y : List α}, exec i s = complete (write y) →
      ∃ t, Succeeds i s t ∧ read t = y ∧ t.regs.res = s.regs.res ∧ t.regs.metric = s.regs.metric
        ∧ KeepsAllBut [dst] s t) :
    (p.length = x.length → IsPermutation (indexNats p) →
      ∃ t, Succeeds i s t ∧ (read t).length = x.length
        ∧ (∀ j, j < x.length → (read t)[((indexNats p).getD j 0)]? = x[j]?)
        ∧ t.regs.res = s.regs.res ∧ t.regs.metric = s.regs.metric ∧ KeepsAllBut [dst] s t) ∧
    (p.length ≠ x.length → FailsWith i s .lengthMismatch) ∧
    (p.length = x.length → ¬ IsPermutation (indexNats p) → FailsWith i s .invalidPermutation) := by
  rw [← indexNats_length]
  refine ⟨fun hlen hp => ?moved, fun hlen => ?lengths, fun hlen hp => ?notPermutation⟩
  case moved =>
    rw [checkedApply_of_isPermutation hlen hp] at hexec
    obtain ⟨t, hsucc, hval, hframe⟩ := hwrite hexec
    refine ⟨t, hsucc, ?_, fun j hj => ?_, hframe⟩
    · rw [hval, applyPerm_length]
    · rw [hval, applyPerm_getElem?_getD hp hlen hj]
  case lengths => rwa [checkedApply_of_length_ne hlen] at hexec
  case notPermutation => rwa [checkedApply_of_not_isPermutation hlen hp] at hexec

theorem operandRule_papply : OperandRule 0x21
    (fun d a b => IsPId a ∧ ((IsVId d ∧ IsVId b) ∨ (IsSId d ∧ IsSId b) ∨ (IsPId d ∧ IsPId b)))
    (fun d a b => .papply (seqRefOfId d) (Fin.ofNat 4 (a - 12)) (seqRefOfId b)) :=
  operandRule_of_decodeOperands (op := .papply) fun fd fa fb ⟨ha, hdb⟩ => by
    obtain ⟨c, hd, hb⟩ := (asX_same_class_iff fd fb).mpr hdb
    rw [asX_objClass_iff] at hd hb
    simp only [decodeOperands, asX_of_isSeqId hd, asP_of_isPId ha, asX_of_isSeqId hb, seqRefOfId_objClass hd,
      seqRefOfId_objClass hb, if_true]

/-- Settles O25: `papply_outcomes` of each of the three forms, and the clash of classes. -/
theorem papplyResult : Obligations.PapplyResult :=
  ⟨operandRule_papply, fun fa s =>
    ⟨fun d q => papply_outcomes (exec_papply_v s fa d q) succeeds_setV,
      fun d q => papply_outcomes (exec_papply_s s fa d q) succeeds_setS,
      fun d q => papply_outcomes (exec_papply_p s fa d q) succeeds_setP,
      fun _ _ hclass => failsWith_iff.mpr (exec_papply_of_objClass_ne s fa hclass)⟩⟩

/-! `PCOLS` (R184) -/

section
variable {s : State} {fa : MId} {fb : PId}

theorem exec_pcols_of_no_rows (hrows : s.store.m[fa].rowCount = 0) (fd : MId) (fb : PId) :
    exec (.pcols fd fa fb) s = complete (s.setM fd s.store.m[fa]) :=
  if_pos hrows

theorem exec_pcols_of_length_ne (hrows : 1 ≤ s.store.m[fa].rowCount)
    (hlen : s.store.p[fb].length ≠ s.store.m[fa].cols) (fd : MId) :
    exec (.pcols fd fa fb) s = raiseError .lengthMismatch s := by
  rw [← indexNats_length] at hlen
  exact (if_neg (Nat.ne_of_gt hrows)).trans (if_pos hlen)

/-- R184: past its first two checks, `PCOLS` is decided by the bijection check. -/
theorem exec_pcols_of_length_eq (hrows : 1 ≤ s.store.m[fa].rowCount)
    (hlen : s.store.p[fb].length = s.store.m[fa].cols) (fd : MId) :
    exec (.pcols fd fa fb) s = if bij (indexNats s.store.p[fb]) then
      complete (s.setM fd (permuteColumns s.store.m[fa] (indexNats s.store.p[fb])))
    else raiseError .invalidPermutation s := by
  rw [← indexNats_length] at hlen
  exact (if_neg (Nat.ne_of_gt hrows)).trans (if_neg (not_not_intro hlen))

end

section
variable (m : Matrix) (p : List Nat)

@[simp] theorem permuteColumns_cols : (permuteColumns m p).cols = m.cols := rfl

@[simp] theorem permuteColumns_rowCount : (permuteColumns m p).rowCount = m.rowCount := List.length_map _

theorem permuteColumns_row {r : Nat} (hr : r < m.rowCount) :
    (permuteColumns m p).row r = applyPerm p (m.row r) := by
  rw [row_of_lt (by rwa [permuteColumns_rowCount]), row_of_lt hr]
  exact List.getElem_map _

end

theorem permuteColumns_row_lengths {m : Matrix} (hrows : ∀ row ∈ m.rows, row.length = m.cols) (p : List Nat) :
    ∀ row ∈ (permuteColumns m p).rows, row.length = m.cols :=
  List.forall_mem_map.mpr fun row hrow => (applyPerm_length p row).trans (hrows row hrow)

/-- R184: entry `i` of a row goes to column `p[i]` of the same row. -/
theorem permuteColumns_entry {m : Matrix} {p : List Nat} {r i : Nat} (hp : IsPermutation p)
    (hlen : p.length = (m.row r).length) (hr : r < m.rowCount) (hi : i < (m.row r).length) :
    (permuteColumns m p).entry r (p.getD i 0) = m.entry r i := by
  rw [Matrix.entry, permuteColumns_row m p hr, List.getD_eq_getElem?_getD, applyPerm_getElem?_getD hp hlen hi,
    ← List.getD_eq_getElem?_getD, Matrix.entry]

theorem operandRule_pcols : OperandRule 0x22 (fun d a b => IsMId d ∧ IsMId a ∧ IsPId b)
    (fun d a b => .pcols (Fin.ofNat 2 (d - 16)) (Fin.ofNat 2 (a - 16)) (Fin.ofNat 4 (b - 12))) :=
  operandRule_of_decodeOperands (op := .pcols) fun fd fa fb ⟨hd, ha, hb⟩ => by
    simp only [decodeOperands, asM_of_isMId hd, asM_of_isMId ha, asP_of_isPId hb]

/-- Settles O26: one outcome of `PCOLS` for each of its three checks; the rows of one length, which make the
permutation fit every row, come from the invariant of the store. -/
theorem pcolsResult : Obligations.PcolsResult := by
  refine ⟨operandRule_pcols, fun fd fa fb s ⟨_, ⟨_, _, _, hm, _⟩, _⟩ => ⟨fun hrows hlen hp => ?permuted,
    fun hrows => ?empty, fun hrows hlen => ?lengths, fun hrows hlen hp => ?notPermutation⟩⟩
  case permuted =>
    have hexec := exec_pcols_of_length_eq hrows hlen fd
    rw [if_pos (bij_iff_isPermutation.mpr hp)] at hexec
    obtain ⟨t, hsucc, hval, hframe⟩ := succeeds_setM hexec
    obtain ⟨-, -, hcols⟩ := hm fa
    rw [← indexNats_length] at hlen
    refine ⟨t, hsucc, ?_⟩
    rw [hval]
    refine ⟨permuteColumns_rowCount _ _, permuteColumns_cols _ _, permuteColumns_row_lengths hcols _,
      fun r i hr hi => ?_, hframe⟩
    have hrow := row_length (hm fa) hr
    exact permuteColumns_entry hp (hlen.trans hrow.symm) hr (hrow ▸ hi)
  case empty => exact succeeds_setM (exec_pcols_of_no_rows hrows fd fb)
  case lengths => exact failsWith_iff.mpr (exec_pcols_of_length_ne hrows hlen fd)
  case notPermutation =>
    rw [failsWith_iff, exec_pcols_of_length_eq hrows hlen fd, if_neg (mt bij_iff_isPermutation.mp hp)]

end Sys2Proof.Machine

/-! PROOFS. The combination commands (43_combination.md R200, R201): the entries of the first combination and of a
bumped one, which place `CADV` bumps, and the statements about `CINIT` and `CADV`. -/

namespace Sys2Proof.Machine

/-! What a command that ends by writing `C` leaves (R32, R39) -/

section
variable {i : Instr} {s : State} {x : Comb}

theorem succeeds_setC (h : exec i s = complete (s.setC x)) :
    ∃ t, Succeeds i s t ∧ t.store.c = x ∧ t.regs.res = s.regs.res ∧ t.regs.metric = s.regs.metric
      ∧ KeepsAllBut [.c] s t := by
  obtain ⟨t, hsucc, hstore, hframe⟩ := succeeds_withStore (dsts := [.c]) h fun o ho =>
    (value_setC s x o).trans (if_neg (List.ne_of_not_mem_cons ho))
  exact ⟨t, hsucc, congrArg ObjectStore.c hstore, hframe⟩

/-- A command whose whole effect is `C` and `RES` succeeds, and keeps everything else. -/
theorem succeeds_setC_setRes {b : Bool} (h : exec i s = complete ((s.setC x).setRes b)) :
    ∃ t, Succeeds i s t ∧ t.regs.res = b ∧ t.store.c = x ∧ t.regs.metric = s.regs.metric
      ∧ KeepsAllBut [.c] s t := by
  refine ⟨((s.setC x).setRes b).finish .ok, ⟨h, rfl, rfl⟩, rfl, rfl, rfl, fun o ho => ?_,
    rfl, rfl, rfl, rfl, rfl, rfl, rfl, rfl, rfl, rfl, rfl⟩
  rw [finish_store, setRes_store, value_setC, if_neg (List.ne_of_not_mem_cons ho)]

end

/-! `CINIT` (R200) -/

@[simp] theorem initialCombination_length (w n : Nat) : (initialCombination w n).length = w + 1 := by
  simp [initialCombination]

theorem initialCombination_getD_of_lt {i w : Nat} (hi : i < w) (n : Nat) :
    (initialCombination w n).getD i 0#32 = BitVec.ofNat 32 i := by
  simp [initialCombination, indexWords, List.getElem?_append_left, hi]

theorem initialCombination_getD_sentinel (w n : Nat) :
    (initialCombination w n).getD w 0#32 = BitVec.ofNat 32 n := by
  simp [initialCombination, indexWords]

theorem exec_cinit_of_fits {s : State} (hn : s.regs.arg1.toNat ≤ s.params.nMax)
    (hw : s.regs.arg0.toNat ≤ s.regs.arg1.toNat) :
    exec .cinit s = complete (s.setC
      { w := s.regs.arg0.toNat, n := s.regs.arg1.toNat
        state := initialCombination s.regs.arg0.toNat s.regs.arg1.toNat }) :=
  (if_neg (Nat.not_lt_of_le hn)).trans (if_neg (Nat.not_lt_of_le hw))

theorem exec_cinit_of_not_fits {s : State}
    (h : s.params.nMax < s.regs.arg1.toNat ∨ s.regs.arg1.toNat < s.regs.arg0.toNat) :
    exec .cinit s = raiseError .argRange s := by
  by_cases hn : s.params.nMax < s.regs.arg1.toNat
  · exact if_pos hn
  · exact (if_neg hn).trans (if_pos (h.resolve_left hn))

theorem operandRule_cinit : OperandRule 0x30 (fun d a b => d = 0 ∧ a = 0 ∧ b = 0) (fun _ _ _ => .cinit) :=
  operandRule_of_decodeOperands (op := .cinit) fun fd fa fb ⟨hd, ha, hb⟩ => by
    simp only [decodeOperands, (objId_eq_zero_iff fd).mpr hd, (objId_eq_zero_iff fa).mpr ha,
      (objId_eq_zero_iff fb).mpr hb, and_self, if_true]

/-- Settles O28: the operand rule of the row, then the entries of the first combination, or the range checks' error. -/
theorem cinitResult : Obligations.CinitResult := by
  refine ⟨operandRule_cinit, fun s =>
    ⟨fun hn hw => ?_, fun hbad => failsWith_iff.mpr (exec_cinit_of_not_fits hbad)⟩⟩
  obtain ⟨t, hsucc, hc, hframe⟩ := succeeds_setC (exec_cinit_of_fits hn hw)
  refine ⟨t, hsucc, ?_⟩
  rw [hc]
  exact ⟨rfl, rfl, initialCombination_length _ _, fun i hi => initialCombination_getD_of_lt hi _,
    (initialCombination_getD_sentinel _ _).trans (BitVec.ofNat_toNat _ _), hframe⟩

/-! `CADV` (R201) -/

section
variable {st : List Word} {w : Nat}

theorem rightmostGap_eq_none_iff :
    rightmostGap st w = none ↔ ∀ i, i < w → st.getD i 0#32 + 1#32 = st.getD (i + 1) 0#32 := by
  refine ⟨rightmostGap_eq_none, fun hnone => Option.eq_none_iff_forall_ne_some.mpr fun t ht => ?_⟩
  obtain ⟨htw, hgap, -⟩ := rightmostGap_eq_some ht
  exact hgap (hnone t htw)

/-- R201: the search answers `g` exactly when `g` is the rightmost place below `w` with a gap. -/
theorem rightmostGap_eq_some_iff {g : Nat} :
    rightmostGap st w = some g ↔ g < w ∧ st.getD g 0#32 + 1#32 ≠ st.getD (g + 1) 0#32
      ∧ ∀ i, g < i → i < w → st.getD i 0#32 + 1#32 = st.getD (i + 1) 0#32 := by
  refine ⟨rightmostGap_eq_some, fun ⟨hgw, hgap, hright⟩ => ?_⟩
  cases h : rightmostGap st w with
  | none => exact absurd (rightmostGap_eq_none h g hgw) hgap
  | some t =>
    obtain ⟨htw, htgap, htright⟩ := rightmostGap_eq_some h
    rcases Nat.lt_trichotomy t g with htg | rfl | hgt
    · exact absurd (htright g htg hgw) hgap
    · rfl
    · exact absurd (hright t hgt htw) htgap

end

section
variable {w t i : Nat}

theorem bumpFrom_getD_of_lt (hi : i < t) (st : List Word) (w : Nat) :
    (bumpFrom st w t).getD i 0#32 = st.getD i 0#32 := by
  simp [bumpFrom, List.getElem?_mapIdx, hi]

theorem bumpFrom_getD_of_mem_tail {st : List Word} (hlen : i < st.length) (hti : t ≤ i) (hiw : i < w) :
    (bumpFrom st w t).getD i 0#32 = st.getD t 0#32 + 1#32 + BitVec.ofNat 32 (i - t) := by
  simp [bumpFrom, hlen, Nat.not_lt_of_le hti, hiw]

theorem bumpFrom_getD_of_le (hwi : w ≤ i) (st : List Word) (t : Nat) :
    (bumpFrom st w t).getD i 0#32 = st.getD i 0#32 := by
  simp [bumpFrom, List.getElem?_mapIdx, Nat.not_lt_of_le hwi]

end

theorem exec_cadv_of_gap {s : State} {g : Nat} (h : rightmostGap s.store.c.state s.store.c.w = some g) :
    exec .cadv s = complete
      ((s.setC { s.store.c with state := bumpFrom s.store.c.state s.store.c.w g }).setRes true) := by
  simp only [exec, execCadv, advance, h, Option.map_some]

theorem exec_cadv_of_no_gap {s : State} (h : rightmostGap s.store.c.state s.store.c.w = none) :
    exec .cadv s = complete (s.setRes false) := by
  simp only [exec, execCadv, advance, h, Option.map_none]

theorem operandRule_cadv : OperandRule 0x31 (fun d a b => d = 0 ∧ a = 0 ∧ b = 0) (fun _ _ _ => .cadv) :=
  operandRule_of_decodeOperands (op := .cadv) fun fd fa fb ⟨hd, ha, hb⟩ => by
    simp only [decodeOperands, (objId_eq_zero_iff fd).mpr hd, (objId_eq_zero_iff fa).mpr ha,
      (objId_eq_zero_iff fb).mpr hb, and_self, if_true]

/-- Settles O29: the place of the statement is the one the search answers, and `bumpFrom` is read place by place. -/
theorem cadvResult : Obligations.CadvResult := by
  refine ⟨operandRule_cadv, fun s hlen => ⟨fun g hgw hgap hright => ?advanced, fun hnone => ?exhausted⟩⟩
  case advanced =>
    have hg := rightmostGap_eq_some_iff.mpr ⟨hgw, hgap, hright⟩
    obtain ⟨t, hsucc, hres, hc, hframe⟩ := succeeds_setC_setRes (exec_cadv_of_gap hg)
    refine ⟨t, hsucc, hres, ?_⟩
    rw [hc]
    exact ⟨rfl, rfl, (bumpFrom_length _ _ _).trans hlen, fun i hi => bumpFrom_getD_of_lt hi _ _,
      fun i hgi hiw => bumpFrom_getD_of_mem_tail (by omega) hgi hiw, bumpFrom_getD_of_le le_rfl _ _, hframe⟩
  case exhausted => exact succeeds_setRes (exec_cadv_of_no_gap (rightmostGap_eq_none_iff.mpr hnone))

end Sys2Proof.Machine

/-! PROOFS. `DECODE` (44_osd_decoder.md R221–R230): the reliability order as a sort of all positions, and the command's
checks in their order with what it leaves when they pass. -/

namespace Sys2Proof

theorem asS_of_isSId {id : ObjId} (h : IsSId id.toNat) : ObjId.asS id = some (Fin.ofNat 4 (id.toNat - 8)) := by
  unfold IsSId at h; revert id; decide

end Sys2Proof

namespace Sys2Proof.Machine

/-! The order of the reliabilities (R13, R221) -/

theorem fabs_zero : fabs 0#64 = f64Zero := by decide

@[simp] theorem f64Mag_fabs (x : F64) : f64Mag (fabs x) = f64Mag x := by
  rw [f64Mag, fabs, BitVec.extractLsb'_append_eq_right, f64Mag]

@[simp] theorem isNaN_fabs (x : F64) : isNaN (fabs x) = isNaN x := by
  rw [isNaN, isNaN, f64Mag_fabs]

theorem flt_iff {x y : F64} (hx : isNaN x = false) (hy : isNaN y = false) :
    flt x y = true ↔ f64Key x < f64Key y := by
  simp [flt, hx, hy]

theorem feq_iff {x y : F64} (hx : isNaN x = false) (hy : isNaN y = false) :
    feq x y = true ↔ f64Key x = f64Key y := by
  simp [feq, hx, hy]

@[simp] theorem reliabilities_length (x : List F64) : (reliabilities x).length = x.length := List.length_map _

theorem reliabilities_getD (x : List F64) (i : Nat) : (reliabilities x).getD i f64Zero = fabs (x.getD i 0#64) := by
  rw [reliabilities, ← fabs_zero, List.getD_map]

theorem isNaN_of_mem_reliabilities {x : List F64} (h : ∀ a ∈ x, isNaN a = false) :
    ∀ b ∈ reliabilities x, isNaN b = false := by
  intro b hb
  obtain ⟨a, ha, rfl⟩ := List.mem_map.mp hb
  rw [isNaN_fabs, h a ha]

/-! Without a NaN, R222's order of positions is a strict total order -/

section
variable {beta : List F64} (hnan : ∀ b ∈ beta, isNaN b = false) {i j k : Nat}
include hnan

/-- Also beyond the end, where the element read is `+0.0`. -/
theorem isNaN_getD (i : Nat) : isNaN (beta.getD i f64Zero) = false := by
  by_cases hi : i < beta.length
  · rw [List.getD_eq_getElem _ _ hi]
    exact hnan _ (List.getElem_mem hi)
  · rw [List.getD_eq_default _ _ (Nat.le_of_not_lt hi)]
    decide

theorem moreReliable_iff_key : moreReliable beta i j = true ↔
    f64Key (beta.getD j f64Zero) < f64Key (beta.getD i f64Zero) ∨
      f64Key (beta.getD i f64Zero) = f64Key (beta.getD j f64Zero) ∧ i < j := by
  rw [moreReliable, Bool.or_eq_true, Bool.and_eq_true, decide_eq_true_iff,
    flt_iff (isNaN_getD hnan j) (isNaN_getD hnan i), feq_iff (isNaN_getD hnan i) (isNaN_getD hnan j)]

theorem moreReliable_trans (hij : moreReliable beta i j = true) (hjk : moreReliable beta j k = true) :
    moreReliable beta i k = true := by
  rw [moreReliable_iff_key hnan] at hij hjk ⊢
  omega

theorem moreReliable_of_not (hne : i ≠ j) (hij : ¬ moreReliable beta i j = true) : moreReliable beta j i = true := by
  rw [moreReliable_iff_key hnan] at hij ⊢
  omega

end

/-! The reliability order is an insertion sort of all positions (R222) -/

theorem insertByReliability_eq_orderedInsert (beta : List F64) (i : Nat) (l : List Nat) :
    insertByReliability beta i l = l.orderedInsert (moreReliable beta · ·) i := by
  induction l with
  | nil => rfl
  | cons j l ih => rw [insertByReliability, ih, List.orderedInsert_cons]

theorem reliabilityOrder_eq_insertionSort (beta : List F64) :
    reliabilityOrder beta = (List.range beta.length).insertionSort (moreReliable beta · ·) := by
  simp only [reliabilityOrder, List.insertionSort, funext₂ (insertByReliability_eq_orderedInsert beta)]

theorem reliabilityOrder_perm_range (beta : List F64) : (reliabilityOrder beta).Perm (List.range beta.length) := by
  rw [reliabilityOrder_eq_insertionSort]
  exact List.perm_insertionSort _ _

@[simp] theorem reliabilityOrder_length (beta : List F64) : (reliabilityOrder beta).length = beta.length := by
  rw [(reliabilityOrder_perm_range beta).length_eq, List.length_range]

theorem reliabilityOrder_isPermutation (beta : List F64) : IsPermutation (reliabilityOrder beta) := by
  refine ⟨fun i hi => ?_, (reliabilityOrder_perm_range beta).nodup_iff.mpr List.nodup_range⟩
  rw [reliabilityOrder_length, ← List.mem_range, ← (reliabilityOrder_perm_range beta).mem_iff]
  exact hi

/-- Mathlib's sort lemmas ask for a total order; this one is strict, so a position must not be put in twice. -/
theorem orderedInsert_pairwise_moreReliable {beta : List F64} (hnan : ∀ b ∈ beta, isNaN b = false) {i : Nat}
    {l : List Nat} (hi : i ∉ l) (hl : l.Pairwise (moreReliable beta · ·)) :
    (l.orderedInsert (moreReliable beta · ·) i).Pairwise (moreReliable beta · ·) := by
  induction l with
  | nil => exact List.pairwise_singleton _ i
  | cons j l ih =>
    obtain ⟨hj, hl'⟩ := List.pairwise_cons.mp hl
    obtain ⟨hne, hil⟩ := List.ne_and_not_mem_of_not_mem_cons hi
    by_cases hij : moreReliable beta i j = true
    · rw [List.orderedInsert_cons, if_pos hij]
      refine List.pairwise_cons.mpr ⟨fun k hk => ?_, hl⟩
      rcases List.mem_cons.mp hk with rfl | hk
      · exact hij
      · exact moreReliable_trans hnan hij (hj k hk)
    · rw [List.orderedInsert_cons, if_neg hij]
      refine List.pairwise_cons.mpr ⟨fun k hk => ?_, ih hil hl'⟩
      rcases (List.mem_orderedInsert _).mp hk with rfl | hk
      · exact moreReliable_of_not hnan hne hij
      · exact hj k hk

theorem insertionSort_pairwise_moreReliable {beta : List F64} (hnan : ∀ b ∈ beta, isNaN b = false) {l : List Nat}
    (hl : l.Nodup) : (l.insertionSort (moreReliable beta · ·)).Pairwise (moreReliable beta · ·) := by
  induction l with
  | nil => exact List.Pairwise.nil
  | cons i l ih =>
    obtain ⟨hi, hl'⟩ := List.nodup_cons.mp hl
    exact orderedInsert_pairwise_moreReliable hnan (mt (List.mem_insertionSort _).mp hi) (ih hl')

theorem reliabilityOrder_pairwise {beta : List F64} (hnan : ∀ b ∈ beta, isNaN b = false) :
    (reliabilityOrder beta).Pairwise (moreReliable beta · ·) := by
  rw [reliabilityOrder_eq_insertionSort]
  exact insertionSort_pairwise_moreReliable hnan List.nodup_range

/-- R222's clause, in terms of the samples. -/
theorem moreReliable_reliabilities_iff {x : List F64} {i j : Nat} :
    moreReliable (reliabilities x) i j = true ↔
      flt (fabs (x.getD j 0#64)) (fabs (x.getD i 0#64)) = true
        ∨ (feq (fabs (x.getD i 0#64)) (fabs (x.getD j 0#64)) = true ∧ i < j) := by
  rw [moreReliable, reliabilities_getD, reliabilities_getD, Bool.or_eq_true, Bool.and_eq_true, decide_eq_true_iff]

/-- Settles O38: a permutation because it is a sort of all positions; sorted because, without a NaN, R222's order is a
strict total order. -/
theorem reliabilityOrderIsSorted : Obligations.ReliabilityOrderIsSorted := by
  intro x hnan
  have hperm := reliabilityOrder_isPermutation (reliabilities x)
  have hlen : (reliabilityOrder (reliabilities x)).length = x.length := by
    rw [reliabilityOrder_length, reliabilities_length]
  refine ⟨hlen, hperm, ?sorted, fun r hr => invert_getElem?_getD hperm (hlen.symm ▸ hr)⟩
  case sorted =>
    exact (reliabilityOrder_pairwise (isNaN_of_mem_reliabilities hnan)).imp moreReliable_reliabilities_iff.mp

/-! `DECODE`'s checks in their order, and its answer when they pass (R230) -/

/-- Steps 2 to 4 (R222–R224): the elimination of the generator matrix with its columns in order of reliability. -/
def reliabilityElimination (x : List F64) (g : Matrix) : Matrix × List Nat :=
  gauss (permuteColumns g (invert (reliabilityOrder (reliabilities x))))

/-- Steps 5 and 6 (R225–R227): the search's answer, still in order of reliability, with its metric. -/
def bestCandidate (x : List F64) (g : Matrix) (wMax : Nat) : List Bool × F64 :=
  let pi := invert (reliabilityOrder (reliabilities x))
  let alpha := applyPerm pi (hardDecisions x)
  search ((reliabilityElimination x g).2.map fun c => alpha.getD c false) (reliabilityElimination x g).1 alpha
    (applyPerm pi (reliabilities x)) wMax

section
variable {x : List F64} {g : Matrix}

theorem decodeWord_of_no_rows (hrows : g.rowCount = 0) (wMax : Nat) :
    decodeWord x g wMax = .error .lengthMismatch :=
  if_pos hrows

section
variable (hrows : 1 ≤ g.rowCount)
include hrows

theorem decodeWord_of_length_ne (hlen : x.length ≠ g.cols) (wMax : Nat) :
    decodeWord x g wMax = .error .lengthMismatch :=
  (if_neg (Nat.ne_of_gt hrows)).trans (if_pos hlen)

variable (hlen : x.length = g.cols)
include hlen

theorem decodeWord_of_nan (hnan : ∃ a ∈ x, isNaN a = true) (wMax : Nat) :
    decodeWord x g wMax = .error .badReal :=
  (if_neg (Nat.ne_of_gt hrows)).trans <| (if_neg (not_not_intro hlen)).trans <| if_pos (List.any_eq_true.mpr hnan)

variable (hnan : ∀ a ∈ x, isNaN a = false)
include hnan

/-- With the checks of the operands passed, only the rank is left to check. -/
theorem decodeWord_of_operands (wMax : Nat) : decodeWord x g wMax =
    if (reliabilityElimination x g).2.length < g.rowCount then .error .rankDeficiency
    else .ok (applyPerm (reliabilityOrder (reliabilities x)) (bestCandidate x g wMax).1,
      (bestCandidate x g wMax).2) := by
  have hany : ¬ x.any isNaN = true := by
    rw [List.any_eq_true]
    rintro ⟨a, ha, hbad⟩
    exact Bool.false_ne_true ((hnan a ha).symm.trans hbad)
  exact (if_neg (Nat.ne_of_gt hrows)).trans <| (if_neg (not_not_intro hlen)).trans (if_neg hany)

theorem decodeWord_of_missing_pivot (hpivots : (reliabilityElimination x g).2.length < g.rowCount) (wMax : Nat) :
    decodeWord x g wMax = .error .rankDeficiency := by
  rw [decodeWord_of_operands hrows hlen hnan, if_pos hpivots]

theorem decodeWord_of_all_pivots (hpivots : (reliabilityElimination x g).2.length = g.rowCount) (wMax : Nat) :
    decodeWord x g wMax = .ok (applyPerm (reliabilityOrder (reliabilities x)) (bestCandidate x g wMax).1,
      (bestCandidate x g wMax).2) := by
  rw [decodeWord_of_operands hrows hlen hnan, if_neg (Nat.not_lt_of_ge hpivots.ge)]

end

end

section
variable {s : State} {fa : SId} {fb : MId}

theorem exec_decode_of_ok {out : List Bool × F64}
    (h : decodeWord s.store.s[fa] s.store.m[fb] s.regs.arg0.toNat = .ok out) (fd : VId) :
    exec (.decode fd fa fb) s = complete ((s.setV fd out.1).setMetric out.2) := by
  simp only [exec, execDecode, h]

theorem failsWith_decode_of_error {e : ErrCode}
    (h : decodeWord s.store.s[fa] s.store.m[fb] s.regs.arg0.toNat = .error e) (fd : VId) :
    FailsWith (.decode fd fa fb) s e :=
  failsWith_iff.mpr (by simp only [exec, execDecode, h])

end

/-- A command whose whole effect is one V object and `METRIC` succeeds, and keeps `RES` and everything else. -/
theorem succeeds_setV_setMetric {i : Instr} {s : State} {d : VId} {x : List Bool} {m : F64}
    (h : exec i s = complete ((s.setV d x).setMetric m)) :
    ∃ t, Succeeds i s t ∧ t.store.v[d] = x ∧ t.regs.metric = m ∧ t.regs.res = s.regs.res
      ∧ KeepsAllBut [.v d] s t := by
  refine ⟨((s.setV d x).setMetric m).finish .ok, ⟨h, rfl, rfl⟩, vector_getElem_set_fin_self _ _ _, rfl, rfl,
    fun o ho => ?_, rfl, rfl, rfl, rfl, rfl, rfl, rfl, rfl, rfl, rfl, rfl⟩
  rw [finish_store, setMetric_store, value_setV, if_neg (List.ne_of_not_mem_cons ho)]

theorem operandRule_decode : OperandRule 0x40 (fun d a b => IsVId d ∧ IsSId a ∧ IsMId b)
    (fun d a b => .decode (Fin.ofNat 8 d) (Fin.ofNat 4 (a - 8)) (Fin.ofNat 2 (b - 16))) :=
  operandRule_of_decodeOperands (op := .decode) fun fd fa fb ⟨hd, ha, hb⟩ => by
    simp only [decodeOperands, asV_of_isVId hd, asS_of_isSId ha, asM_of_isMId hb]

/-- Settles O31: the operand rule of the row, then one outcome of `decodeWord` for each check in its order, and the
write of its answer. -/
theorem decodeRunsTheSevenSteps : Obligations.DecodeRunsTheSevenSteps := by
  refine ⟨operandRule_decode, fun fd fa fb s => ⟨fun hrows => ?empty, fun hrows hlen => ?length,
    fun hrows hlen hnan => ?nan, fun hrows hlen hnan => ⟨fun hpivots => ?deficient, fun hpivots => ?full⟩⟩⟩
  case empty => exact failsWith_decode_of_error (decodeWord_of_no_rows hrows _) fd
  case length => exact failsWith_decode_of_error (decodeWord_of_length_ne hrows hlen _) fd
  case nan => exact failsWith_decode_of_error (decodeWord_of_nan hrows hlen hnan _) fd
  case deficient => exact failsWith_decode_of_error (decodeWord_of_missing_pivot hrows hlen hnan hpivots _) fd
  case full =>
    exact succeeds_setV_setMetric (exec_decode_of_ok (decodeWord_of_all_pivots hrows hlen hnan hpivots _) fd)

end Sys2Proof.Machine

/-! PROOFS. Errors (60_exceptions.md R261): the two ways a command ends, for every command, and the statement about the
failed ones. -/

namespace Sys2Proof.Machine

/-! How a command ends (R32, R261) -/

/-- What a command run in `s` can answer: it completes in some state, or it raises an error in `s` itself, so nothing
it computed before the failed check is kept. -/
inductive EndsFrom (s : State) : Result → Prop
  | completed (u : State) : EndsFrom s (complete u)
  | raised (e : ErrCode) : EndsFrom s (raiseError e s)

section
variable {s : State}

/-- A check between two ways to go on. -/
theorem endsFrom_ite {p : Prop} {_ : Decidable p} {a b : Result} (ha : EndsFrom s a) (hb : EndsFrom s b) :
    EndsFrom s (if p then a else b) :=
  iteInduction (fun _ => ha) (fun _ => hb)

theorem endsFrom_endChecked {α : Type} (write : α → State) (r : Except ErrCode α) :
    EndsFrom s (endChecked s write r) :=
  match r with
  | .ok x => .completed (write x)
  | .error e => .raised e

/-- Of the two endings, only an error leaves an `ERR` other than `OK`. -/
theorem eq_finish_of_endsFrom {r : Result} {t : State} (hends : EndsFrom s r) (hr : r = .next t)
    (herr : t.regs.err ≠ .ok) : ∃ e, t = s.finish e := by
  cases hends with
  | completed u =>
    have hok : t.regs.err = .ok := by rw [complete_eq_next.mp hr, finish_err]
    exact absurd hok herr
  | raised e => exact ⟨e, raiseError_eq_next.mp hr⟩

end

/-! Each command -/

section
variable (s : State)

/-- Three forms of `PAPPLY` are decided by its checks; the clashes of classes raise an error at once (R183). -/
theorem papply_endsFrom (fd : SeqRef) (fa : PId) (fb : SeqRef) : EndsFrom s (exec (.papply fd fa fb) s) := by
  by_cases hclass : fd.objClass = fb.objClass
  · match fd, fb, hclass with
    | .v d, .v q, _ => rw [exec_papply_v]; exact endsFrom_endChecked _ _
    | .s d, .s q, _ => rw [exec_papply_s]; exact endsFrom_endChecked _ _
    | .p d, .p q, _ => rw [exec_papply_p]; exact endsFrom_endChecked _ _
  · rw [exec_papply_of_objClass_ne s fa hclass]; exact .raised _

theorem cadv_endsFrom : EndsFrom s (exec .cadv s) := by
  cases hgap : rightmostGap s.store.c.state s.store.c.w with
  | none => rw [exec_cadv_of_no_gap hgap]; exact .completed _
  | some g => rw [exec_cadv_of_gap hgap]; exact .completed _

theorem decode_endsFrom (fd : VId) (fa : SId) (fb : MId) : EndsFrom s (exec (.decode fd fa fb) s) := by
  cases hword : decodeWord s.store.s[fa] s.store.m[fb] s.regs.arg0.toNat with
  | ok out => rw [exec_decode_of_ok hword]; exact .completed _
  | error e => rw [failsWith_iff.mp (failsWith_decode_of_error hword fd)]; exact .raised _

/-- The one inversion lemma of `exec`: along the checks of each command, in their order. -/
theorem exec_endsFrom (i : Instr) : EndsFrom s (exec i s) :=
  match i with
  | .vadd _ _ _ => endsFrom_ite (.raised _) (.completed _)
  | .veq _ _ => endsFrom_ite (.raised _) (.completed _)
  | .vparse _ => endsFrom_ite (.completed _) (.raised _)
  | .vmul _ _ _ => endsFrom_ite (.raised _) (endsFrom_ite (.raised _) (.completed _))
  | .gauss _ _ _ => endsFrom_ite (.raised _) (endsFrom_ite (.raised _) (.completed _))
  | .pinv _ _ => endsFrom_ite (.completed _) (.raised _)
  | .papply fd fa fb => papply_endsFrom s fd fa fb
  | .pcols _ _ _ => endsFrom_ite (.completed _) (endsFrom_ite (.raised _) (endsFrom_ite (.completed _) (.raised _)))
  | .cinit => endsFrom_ite (.raised _) (endsFrom_ite (.raised _) (.completed _))
  | .cadv => cadv_endsFrom s
  | .decode fd fa fb => decode_endsFrom s fd fa fb

end

/-- Settles O44: a command that does not end with `ERR` = `OK` ended with an error, raised in the state it began in. -/
theorem failedCommandChangesNothing : Obligations.FailedCommandChangesNothing := by
  intro i s t hexec herr
  obtain ⟨e, rfl⟩ := eq_finish_of_endsFrom (exec_endsFrom s i) hexec herr
  rfl

end Sys2Proof.Machine

/-! PROOFS. Reset and the busy window (70_reset_and_hazards.md R290, R291, R295): the two ways to the engine's reset
state, and what a register read or write does while a command is pending. -/

namespace Sys2Proof.Machine

/-! The reset state of the objects (R290) -/

@[simp] theorem objectStore_reset_v (i : VId) : ObjectStore.reset.v[i] = [] := Vector.getElem_replicate _
@[simp] theorem objectStore_reset_s (i : SId) : ObjectStore.reset.s[i] = [] := Vector.getElem_replicate _
@[simp] theorem objectStore_reset_p (i : PId) : ObjectStore.reset.p[i] = [] := Vector.getElem_replicate _
@[simp] theorem objectStore_reset_m (i : MId) : ObjectStore.reset.m[i] = { cols := 0, rows := [] } :=
  Vector.getElem_replicate _

/-- R291: the turn of the platform's reset input resets the engine, busy or not, and uses up the turn. -/
theorem step_of_resetInput_turn {s : State} {rest : List Turn} (hturn : s.turns = .resetInput :: rest) :
    step s = .next { s with turns := rest }.engineReset := by
  simp only [step, nextTurn, hturn, takeTurn]

/-- Settles O9: both ways lead to an `engineReset`, whose objects and registers do not depend on the state it is taken
in. -/
theorem resetLeavesTheTable : Obligations.ResetLeavesTheTable := by
  unfold Obligations.ResetLeavesTheTable
  intro table s
  have hmatrix (u : State) (i : MId) : u.engineReset.store.m[i].rowCount = 0 ∧ u.engineReset.store.m[i].cols = 0 := by
    rw [engineReset_store, objectStore_reset_m]
    exact ⟨rfl, rfl⟩
  have htable (u : State) : table u.engineReset :=
    ⟨objectStore_reset_v, objectStore_reset_s, objectStore_reset_p, hmatrix u, rfl, rfl, rfl, rfl, rfl, rfl, rfl, rfl,
      rfl, rfl, rfl, rfl, rfl, rfl, rfl, readReg_id _, readReg_version _, readReg_capN _, readReg_capK _⟩
  refine ⟨fun rest hturn => ?input, fun data h0 => ?srst⟩
  case input => exact ⟨_, step_of_resetInput_turn hturn, htable _, engineReset_params _⟩
  case srst =>
    rw [writeReg_ctrl, writeCtrl_of_bit0 h0]
    exact ⟨htable s, engineReset_params s⟩

/-! Reads that do not look at `BUSY` (R48, R50, R51) -/

@[simp] theorem readReg_arg0 (s : State) : readReg s .arg0 = (s.regs.arg0, s) := rfl
@[simp] theorem readReg_arg1 (s : State) : readReg s .arg1 = (s.regs.arg1, s) := rfl
@[simp] theorem readReg_accSel (s : State) : readReg s .accSel = (s.regs.accSel, s) := rfl
@[simp] theorem readReg_accIdx (s : State) : readReg s .accIdx = (s.regs.accIdx, s) := rfl

/-! The registers while a command is pending (R295) -/

section
variable {s : State} (hbusy : s.regs.busy = true)
include hbusy

/-- Only `CTRL` takes a write. -/
theorem writeReg_of_busy {r : Reg} (hr : r ≠ .ctrl) (data : Word) : writeReg s r data = s.setAerr := by
  obtain hdropped | ⟨hidle, -⟩ := writeReg_cases s r data hr
  · exact hdropped
  · exact absurd (hbusy.symm.trans hidle) (by decide)

theorem readReg_metricLo_of_busy : readReg s .metricLo = s.draw := by
  simp only [readReg, hbusy, if_true]

theorem readReg_metricHi_of_busy : readReg s .metricHi = s.draw := by
  simp only [readReg, hbusy, if_true]

theorem readReg_accData_of_busy : readReg s .accData = (s.draw.1, s.draw.2.setAerr) := by
  simp only [readReg, hbusy, if_true]

end

/-- Settles O51: no dropped write is one of `CTRL`; the reads register by register; `CTRL` acts as O50 says. -/
theorem busyWindow : Obligations.BusyWindow := by
  intro s data hbusy
  obtain ⟨hreset, -⟩ := ctrlWriteActs s 1#32
  obtain ⟨-, hclear, -⟩ := ctrlWriteActs s 2#32
  exact ⟨fun r hr => writeReg_of_busy hbusy (ne_of_mem_of_not_mem hr (by decide)) data,
    readReg_accData_of_busy hbusy, readReg_metricLo_of_busy hbusy, readReg_metricHi_of_busy hbusy,
    readReg_status s, readReg_arg0 s, readReg_arg1 s, readReg_accIdx s, readReg_accSel s,
    readReg_id s, readReg_version s, readReg_capN s, readReg_capK s,
    hreset (by decide), hclear (by decide) (by decide)⟩

end Sys2Proof.Machine

/-! PROOFS. The round trips of the encoding (30_encoding.md R100–R107): the decoder reads back every well-formed command
from its word, and every legal word is the word of the command it is read as. -/

namespace Sys2Proof

/-! From a command to its word and back -/

/-- The decoder of a packed word is the operand check of its opcode. -/
theorem decode_packWord {op : Opcode} {fd fa fb : ObjId} {i : Instr} (h : decodeOperands op fd fa fb = some i) :
    decode (packWord op fd fa fb) = .ok i := by
  simp only [decode, opField_packWord, ofCode_code, rsvField_packWord, fdField_packWord, faField_packWord,
    fbField_packWord, h, ne_eq, not_true_eq_false, if_false]

/-- Settles O2: each command packs the ids of its operands, and the operand check reads each id back. -/
theorem decodeEncodeAgree : Obligations.DecodeEncodeAgree := by
  intro i hi
  cases i with
  | vadd fd fa fb => exact decode_packWord (by simp only [decodeOperands, asV_id])
  | veq fa fb => exact decode_packWord (by simp only [decodeOperands, asV_id, if_true])
  | vparse fd => exact decode_packWord (by simp only [decodeOperands, asV_id, and_self, if_true])
  | vmul fd fa fb => exact decode_packWord (by simp only [decodeOperands, asV_id, asM_id])
  | gauss fd fa fb => exact decode_packWord (by simp only [decodeOperands, asM_id, asP_id])
  | pinv fd fa => exact decode_packWord (by simp only [decodeOperands, asP_id, if_true])
  | papply fd fa fb =>
    have hclass : fd.objClass = fb.objClass := of_decide_eq_true hi
    exact decode_packWord (by simp only [decodeOperands, asX_id, asP_id, hclass, if_true])
  | pcols fd fa fb => exact decode_packWord (by simp only [decodeOperands, asM_id, asP_id])
  | cinit => exact decode_packWord (by simp only [decodeOperands, and_self, if_true])
  | cadv => exact decode_packWord (by simp only [decodeOperands, and_self, if_true])
  | decode fd fa fb => exact decode_packWord (by simp only [decodeOperands, asV_id, asS_id, asM_id])

/-! From a word to its command and back -/

section
variable {id : ObjId}

theorem id_of_asV {i : VId} : ObjId.asV id = some i → (ObjRef.v i).id = id := by
  revert id i; decide

theorem id_of_asS {i : SId} : ObjId.asS id = some i → (ObjRef.s i).id = id := by
  revert id i; decide

theorem id_of_asP {i : PId} : ObjId.asP id = some i → (ObjRef.p i).id = id := by
  revert id i; decide

theorem id_of_asM {i : MId} : ObjId.asM id = some i → (ObjRef.m i).id = id := by
  revert id i; decide

theorem id_of_asX {x : SeqRef} (h : ObjId.asX id = some x) : x.toObj.id = id := by
  have all : ∀ id : ObjId, ∀ x ∈ ObjId.asX id, x.toObj.id = id := by decide
  exact all id x h

end

/-- R105: the command the operand check answers is well formed, and its word has the fields the check was given. -/
theorem encode_of_decodeOperands {op : Opcode} {fd fa fb : ObjId} {i : Instr}
    (h : decodeOperands op fd fa fb = some i) : i.wellFormed = true ∧ encode i = packWord op fd fa fb := by
  cases op with
  | vadd =>
    simp only [decodeOperands] at h
    split at h <;> grind [encode, Instr.wellFormed, id_of_asV]
  | veq =>
    simp only [decodeOperands] at h
    split at h <;> grind [encode, Instr.wellFormed, id_of_asV]
  | vparse =>
    simp only [decodeOperands] at h
    split at h <;> grind [encode, Instr.wellFormed, id_of_asV]
  | vmul =>
    simp only [decodeOperands] at h
    split at h <;> grind [encode, Instr.wellFormed, id_of_asV, id_of_asM]
  | gauss =>
    simp only [decodeOperands] at h
    split at h <;> grind [encode, Instr.wellFormed, id_of_asM, id_of_asP]
  | pinv =>
    simp only [decodeOperands] at h
    split at h <;> grind [encode, Instr.wellFormed, id_of_asP]
  | papply =>
    simp only [decodeOperands] at h
    split at h <;> grind [encode, Instr.wellFormed, id_of_asX, id_of_asP]
  | pcols =>
    simp only [decodeOperands] at h
    split at h <;> grind [encode, Instr.wellFormed, id_of_asM, id_of_asP]
  | cinit => grind [decodeOperands, encode, Instr.wellFormed]
  | cadv => grind [decodeOperands, encode, Instr.wellFormed]
  | decode =>
    simp only [decodeOperands] at h
    split at h <;> grind [encode, Instr.wellFormed, id_of_asV, id_of_asS, id_of_asM]

/-- A word whose reserved bits are 0 is its opcode and its three object fields packed. -/
theorem packWord_fields {w : Word} {op : Opcode} (hop : Opcode.ofCode (opField w) = some op)
    (hrsv : rsvField w = 0#9) : packWord op (fdField w) (faField w) (fbField w) = w := by
  rw [packWord, code_of_ofCode hop, ← hrsv, word_fields]

/-- Settles O3: a legal word has its reserved bits 0 and fields that pass the operand check, whose command packs them
again. -/
theorem decodedWordIsItsEncoding : Obligations.DecodedWordIsItsEncoding := by
  intro w i hok
  cases hop : Opcode.ofCode (opField w) with
  | none => exact absurd ((decode_of_reserved hop).symm.trans hok) nofun
  | some op =>
    obtain ⟨j, hrsv, hj, hdec⟩ | ⟨-, herr⟩ := decode_of_assigned hop
    · obtain rfl : j = i := Except.ok.inj (hdec.symm.trans hok)
      obtain ⟨hwf, henc⟩ := encode_of_decodeOperands hj
      exact ⟨hwf, henc.trans (packWord_fields hop hrsv)⟩
    · exact absurd (herr.symm.trans hok) nofun

/-- Settles O1: each word is the encoding of its command, written out, and so is read back by O2. -/
theorem writtenWordsDecode : Obligations.WrittenWordsDecode := by
  have readBack : ∀ {w : Word} (i : Instr), i.wellFormed = true → encode i = w → decode w = .ok i := by
    rintro w i hi rfl
    exact decodeEncodeAgree i hi
  exact ⟨readBack (.vadd 2 0 1) rfl (by decide), readBack (.veq 6 7) rfl (by decide),
    readBack (.vparse 7) rfl (by decide), readBack (.vmul 5 4 1) rfl (by decide),
    readBack (.gauss 1 1 2) rfl (by decide), readBack (.pinv 1 0) rfl (by decide),
    readBack (.papply (.p 2) 0 (.p 1)) rfl (by decide), readBack (.pcols 1 0 1) rfl (by decide),
    readBack .cinit rfl (by decide), readBack .cadv rfl (by decide), readBack (.decode 0 0 0) rfl (by decide)⟩

end Sys2Proof

/-! PROOFS. The enumeration of subsets (43_combination.md R200–R204): the combination unit's step on sequences of
numbers, the list of all size-`w` subsets in lexicographic order, and that the step walks through that list. -/

namespace Sys2Proof.Machine

/-! The unit's sequence as numbers -/

/-- The sequence `C` holds for a subset of the numbers below `n`: its members, then the sentinel (R39). -/
def combState (n : Nat) (x : List Nat) : List Word := indexWords (x ++ [n])

theorem initialCombination_eq_combState (w n : Nat) : initialCombination w n = combState n (List.range w) := rfl

theorem combState_cons (n a : Nat) (x : List Nat) : combState n (a :: x) = BitVec.ofNat 32 a :: combState n x := rfl

@[simp] theorem combState_length (n : Nat) (x : List Nat) : (combState n x).length = x.length + 1 := by
  simp [combState]

theorem combState_take {n : Nat} {x : List Nat} (hx : ∀ i ∈ x, i < n) (hn : n ≤ 65535) :
    indexNats ((combState n x).take x.length) = x := by
  have htake : (combState n x).take x.length = indexWords x := by
    rw [combState, indexWords, List.map_append, List.take_left' (List.length_map _), indexWords]
  rw [htake]
  exact indexNats_indexWords fun i hi => (hx i hi).trans (by omega)

theorem combState_getD_sentinel (n : Nat) (x : List Nat) :
    (combState n x).getD x.length 0#32 = BitVec.ofNat 32 n := by
  simp [combState, indexWords]

/-! `advance` from the first place on (R201) -/

/-- The next size-`w` subset of the numbers below `n`: the first place stays while the places after it can advance; when
they cannot, it moves on by one, if there is room, and the places after it follow. -/
def nextSubset (n : Nat) : List Nat → Option (List Nat)
  | [] => none
  | a :: x =>
    match nextSubset n x with
    | some y => some (a :: y)
    | none => if a + 1 = (x ++ [n]).headD 0 then none else some (List.range' (a + 1) (x.length + 1))

theorem rightmostGap_cons (a : Word) (st : List Word) (w : Nat) :
    rightmostGap (a :: st) (w + 1) =
      match rightmostGap st w with
      | some t => some (t + 1)
      | none => if a + 1#32 ≠ st.getD 0 0#32 then some 0 else none := by
  induction w with
  | zero => rfl
  | succ w ih =>
    rw [rightmostGap, ih, rightmostGap]
    simp only [List.getD_cons_succ]
    split <;> rfl

theorem bumpFrom_cons_succ (a : Word) (st : List Word) (w t : Nat) :
    bumpFrom (a :: st) (w + 1) (t + 1) = a :: bumpFrom st w t := by
  simp only [bumpFrom, List.mapIdx_cons, Nat.zero_lt_succ, if_true, Nat.add_lt_add_iff_right, List.getD_cons_succ,
    Nat.add_sub_add_right]

theorem bumpFrom_combState_zero (n a : Nat) (x : List Nat) :
    bumpFrom (combState n (a :: x)) (x.length + 1) 0 = combState n (List.range' (a + 1) (x.length + 1)) := by
  refine List.ext_getElem (by simp) fun i h1 h2 => ?_
  simp only [bumpFrom_length, combState_length, List.length_cons] at h1
  simp only [bumpFrom, List.getElem_mapIdx, Nat.not_lt_zero, if_false, Nat.sub_zero]
  by_cases hi : i < x.length + 1
  · rw [if_pos hi]
    simp only [combState, indexWords, List.map_append, List.map_cons, List.cons_append, List.getD_cons_zero]
    rw [List.getElem_append_left (by simpa using hi), List.getElem_map, List.getElem_range'_1]
    simp [BitVec.ofNat_add]
  · obtain rfl : i = x.length + 1 := by omega
    simp [combState, indexWords]

theorem advance_combState {n : Nat} {x : List Nat} (hx : ∀ i ∈ x, i < n) (hn : n ≤ 65535) :
    advance x.length (combState n x) = (nextSubset n x).map (combState n) := by
  induction x with
  | nil => rfl
  | cons a x ih =>
    obtain ⟨ha, hx⟩ := List.forall_mem_cons.mp hx
    have hhead : (x ++ [n]).headD 0 ≤ n ∧ (combState n x).getD 0 0#32 = BitVec.ofNat 32 ((x ++ [n]).headD 0) := by
      cases x with
      | nil => exact ⟨le_rfl, rfl⟩
      | cons b x => exact ⟨(List.forall_mem_cons.mp hx).1.le, rfl⟩
    obtain ⟨hle, hhead⟩ := hhead
    have hgap : BitVec.ofNat 32 a + 1#32 ≠ (combState n x).getD 0 0#32 ↔ a + 1 ≠ (x ++ [n]).headD 0 := by
      rw [hhead, ne_eq, ne_eq, BitVec.toNat_eq]
      simp only [BitVec.toNat_add, BitVec.toNat_ofNat]
      omega
    have ih := ih hx
    rw [advance] at ih
    rw [advance, List.length_cons, combState_cons, rightmostGap_cons, nextSubset]
    cases hg : rightmostGap (combState n x) x.length with
    | some t =>
      rw [hg, Option.map_some] at ih
      cases hs : nextSubset n x with
      | none => rw [hs] at ih; exact absurd ih nofun
      | some y =>
        rw [hs, Option.map_some, Option.some_inj] at ih
        simp only [Option.map_some, bumpFrom_cons_succ, ih, combState_cons]
    | none =>
      rw [hg, Option.map_none] at ih
      cases hs : nextSubset n x with
      | some y => rw [hs] at ih; exact absurd ih nofun
      | none =>
        simp only [hgap]
        by_cases h : a + 1 = (x ++ [n]).headD 0
        · simp [h]
        · simp only [ne_eq, h, not_false_iff, if_true, if_false, Option.map_some, ← combState_cons,
            bumpFrom_combState_zero]

/-! All subsets, in order (R204) -/

/-- The strictly increasing choices of `w` of the `len` numbers from `lo` on, in lexicographic order: those that begin
with `lo`, then those that do not take it. -/
def subsetsFrom : Nat → Nat → Nat → List (List Nat)
  | _, 0, _ => [[]]
  | 0, _ + 1, _ => []
  | len + 1, w + 1, lo => (subsetsFrom len w (lo + 1)).map (lo :: ·) ++ subsetsFrom len (w + 1) (lo + 1)

theorem subsetsFrom_length (len w lo : Nat) : (subsetsFrom len w lo).length = Nat.choose len w := by
  induction len generalizing w lo with
  | zero => cases w <;> rfl
  | succ len ih =>
    cases w with
    | zero => rfl
    | succ w => rw [subsetsFrom, List.length_append, List.length_map, ih, ih, Nat.choose_succ_succ]

theorem mem_subsetsFrom_iff {len w lo : Nat} {x : List Nat} :
    x ∈ subsetsFrom len w lo ↔ x.length = w ∧ x.Pairwise (· < ·) ∧ ∀ i ∈ x, lo ≤ i ∧ i < lo + len := by
  induction len generalizing w lo x with
  | zero =>
    cases w with
    | zero =>
      rw [subsetsFrom, List.mem_singleton]
      refine ⟨?_, fun ⟨hlen, _⟩ => List.eq_nil_of_length_eq_zero hlen⟩
      rintro rfl
      exact ⟨rfl, List.Pairwise.nil, nofun⟩
    | succ w =>
      refine ⟨nofun, fun ⟨hlen, _, hmem⟩ => ?_⟩
      cases x with
      | nil => exact absurd hlen nofun
      | cons a x => obtain ⟨h1, h2⟩ := hmem a List.mem_cons_self; omega
  | succ len ih =>
    cases w with
    | zero =>
      rw [subsetsFrom, List.mem_singleton]
      refine ⟨?_, fun ⟨hlen, _⟩ => List.eq_nil_of_length_eq_zero hlen⟩
      rintro rfl
      exact ⟨rfl, List.Pairwise.nil, nofun⟩
    | succ w =>
      simp only [subsetsFrom, List.mem_append, List.mem_map, ih]
      constructor
      · rintro (⟨y, ⟨hlen, hsorted, hmem⟩, rfl⟩ | ⟨hlen, hsorted, hmem⟩)
        · refine ⟨by rw [List.length_cons, hlen], List.pairwise_cons.mpr ⟨fun i hi => ?_, hsorted⟩,
            List.forall_mem_cons.mpr ⟨by omega, fun i hi => ?_⟩⟩ <;>
          · have := hmem i hi
            omega
        · refine ⟨hlen, hsorted, fun i hi => ?_⟩
          have := hmem i hi
          omega
      · rintro ⟨hlen, hsorted, hmem⟩
        cases x with
        | nil => exact absurd hlen nofun
        | cons a y =>
          obtain ⟨hlt, hy⟩ := List.pairwise_cons.mp hsorted
          obtain ⟨ha, hmem⟩ := List.forall_mem_cons.mp hmem
          by_cases hlo : a = lo
          · subst hlo
            refine .inl ⟨y, ⟨Nat.succ.inj hlen, hy, fun i hi => ?_⟩, rfl⟩
            have := hlt i hi
            have := hmem i hi
            omega
          · refine .inr ⟨hlen, hsorted, List.forall_mem_cons.mpr ⟨by omega, fun i hi => ?_⟩⟩
            have := hlt i hi
            have := hmem i hi
            omega

theorem mem_subsetsFrom_zero_iff {n w : Nat} {x : List Nat} : x ∈ subsetsFrom n w 0 ↔ IsSubset n w x := by
  simp only [mem_subsetsFrom_iff, IsSubset, Nat.zero_le, true_and, Nat.zero_add]

theorem subsetsFrom_pairwise_lt (len w lo : Nat) : (subsetsFrom len w lo).Pairwise (· < ·) := by
  induction len generalizing w lo with
  | zero => cases w <;> simp [subsetsFrom]
  | succ len ih =>
    cases w with
    | zero => exact List.pairwise_singleton _ _
    | succ w =>
      refine List.pairwise_append.mpr ⟨List.pairwise_map.mpr ((ih w _).imp fun h => ?_), ih _ _, fun x hx y hy => ?_⟩
      · exact List.cons_lt_cons_iff.mpr (.inr ⟨rfl, h⟩)
      · obtain ⟨z, -, rfl⟩ := List.mem_map.mp hx
        obtain ⟨hlen, -, hmem⟩ := mem_subsetsFrom_iff.mp hy
        cases y with
        | nil => exact absurd hlen nofun
        | cons b y => exact List.cons_lt_cons_iff.mpr (.inl (hmem b List.mem_cons_self).1)

theorem subsetsFrom_head? {len w : Nat} (h : w ≤ len) (lo : Nat) :
    (subsetsFrom len w lo).head? = some (List.range' lo w) := by
  induction len generalizing w lo with
  | zero => obtain rfl := Nat.le_zero.mp h; rfl
  | succ len ih =>
    cases w with
    | zero => rfl
    | succ w =>
      rw [subsetsFrom, List.head?_append, List.head?_map, ih (by omega), List.range'_succ]
      rfl

theorem subsetsFrom_eq_nil {len w : Nat} (h : len < w) (lo : Nat) : subsetsFrom len w lo = [] := by
  rw [← List.length_eq_zero_iff, subsetsFrom_length, Nat.choose_eq_zero_of_lt h]

theorem subsetsFrom_getLast? {len w : Nat} (h : w ≤ len) (lo : Nat) :
    (subsetsFrom len w lo).getLast? = some (List.range' (lo + len - w) w) := by
  induction len generalizing w lo with
  | zero => obtain rfl := Nat.le_zero.mp h; rfl
  | succ len ih =>
    cases w with
    | zero => rfl
    | succ w =>
      rw [subsetsFrom, List.getLast?_append, List.getLast?_map]
      by_cases hw : w + 1 ≤ len
      · rw [ih hw, show lo + 1 + len = lo + (len + 1) by omega]
        rfl
      · obtain rfl : w = len := by omega
        rw [subsetsFrom_eq_nil (Nat.lt_succ_self w), ih le_rfl, List.range'_succ]
        simp

/-- The last subset, the `w` greatest numbers, has no next one. -/
theorem nextSubset_last {n w : Nat} (h : w ≤ n) : nextSubset n (List.range' (n - w) w) = none := by
  induction w with
  | zero => rfl
  | succ w ih =>
    rw [List.range'_succ, show n - (w + 1) + 1 = n - w by omega, nextSubset, ih (by omega)]
    have hhead : (List.range' (n - w) w ++ [n]).headD 0 = n - w := by cases w <;> simp [List.range'_succ]
    simp only [hhead]
    rw [if_pos (by omega)]

/-- Each subset's next one is the one after it in the list. -/
theorem subsetsFrom_isChain (len w lo : Nat) :
    (subsetsFrom len w lo).IsChain fun x y => nextSubset (lo + len) x = some y := by
  induction len generalizing w lo with
  | zero => cases w <;> simp [subsetsFrom]
  | succ len ih =>
    cases w with
    | zero => exact List.IsChain.singleton _
    | succ w =>
      have ih' := fun w => (Nat.add_right_comm lo 1 len ▸ ih w (lo + 1) :)
      rw [subsetsFrom, List.isChain_append, List.isChain_map]
      refine ⟨(ih' w).imp fun x y hxy => ?_, ih' _, fun x hx y hy => ?_⟩
      · rw [nextSubset]
        simp only [← Nat.add_assoc, hxy]
      · by_cases hw : w + 1 ≤ len
        · rw [List.getLast?_map, subsetsFrom_getLast? (by omega), Option.map_some, Option.mem_some_iff] at hx
          rw [subsetsFrom_head? hw, Option.mem_some_iff] at hy
          obtain ⟨rfl, rfl⟩ := And.intro hx hy
          have hlast : nextSubset (lo + (len + 1)) (List.range' (lo + 1 + len - w) w) = none := by
            rw [show lo + 1 + len = lo + (len + 1) by omega]
            exact nextSubset_last (by omega)
          have hroom : (List.range' (lo + 1 + len - w) w ++ [lo + (len + 1)]).headD 0 = lo + 1 + len - w := by
            cases w <;> simp [List.range'_succ]
            omega
          rw [nextSubset, hlast]
          simp only [hroom, List.length_range']
          rw [if_neg (by omega)]
        · rw [subsetsFrom_eq_nil (by omega)] at hy
          exact absurd hy nofun

/-- All size-`w` subsets of the numbers below `n`, each followed by its next one; the last has none. -/
theorem nextSubset_subsetsFrom {n w i : Nat} {x : List Nat} (hi : (subsetsFrom n w 0)[i]? = some x) :
    nextSubset n x = (subsetsFrom n w 0)[i + 1]? := by
  obtain ⟨hlt, hx⟩ := List.getElem?_eq_some_iff.mp hi
  by_cases hnext : i + 1 < (subsetsFrom n w 0).length
  · have hchain := List.isChain_iff_getElem.mp (subsetsFrom_isChain n w 0) i hnext
    rw [Nat.zero_add, hx] at hchain
    rw [hchain, List.getElem?_eq_getElem hnext]
  · have hwn : w ≤ n := by
      by_contra hwn
      rw [subsetsFrom_eq_nil (by omega)] at hlt
      exact absurd hlt (Nat.not_lt_zero i)
    have hlast := subsetsFrom_getLast? hwn 0
    rw [List.getLast?_eq_getElem?, show (subsetsFrom n w 0).length - 1 = i by omega, hi, Option.some_inj,
      Nat.zero_add] at hlast
    rw [hlast, nextSubset_last hwn, List.getElem?_eq_none (by omega)]

end Sys2Proof.Machine

/-! PROOFS. The two uses of the enumeration: the subsets `DECODE` searches (44_osd_decoder.md R227, R234), and the
sequences `CINIT` and `CADV` leave in `C` (43_combination.md R204). -/

namespace Sys2Proof.Machine

/-! The enumeration inside `DECODE` (R227) -/

/-- From one subset of the list on, the loop visits the rest of the list, unless its fuel runs out before. -/
theorem enumerateFrom_combState {n w i fuel : Nat} {x : List Nat} (hn : n ≤ 65535)
    (hi : (subsetsFrom n w 0)[i]? = some x) (hfuel : (subsetsFrom n w 0).length ≤ i + fuel) :
    enumerateFrom w fuel (combState n x) = ((subsetsFrom n w 0).drop i).map (combState n) := by
  induction fuel generalizing i x with
  | zero =>
    obtain ⟨hlt, -⟩ := List.getElem?_eq_some_iff.mp hi
    omega
  | succ fuel ih =>
    obtain ⟨hlt, hx⟩ := List.getElem?_eq_some_iff.mp hi
    obtain ⟨hlen, -, hmem⟩ := mem_subsetsFrom_zero_iff.mp (List.mem_of_getElem? hi)
    have hadvance := advance_combState hmem hn
    rw [hlen, nextSubset_subsetsFrom hi] at hadvance
    rw [enumerateFrom, hadvance, List.drop_eq_getElem_cons hlt, hx, List.map_cons]
    cases hnext : (subsetsFrom n w 0)[i + 1]? with
    | none => simp [List.drop_eq_nil_of_le (List.getElem?_eq_none_iff.mp hnext)]
    | some y =>
      have hrest := ih hnext (by omega)
      simp only [Option.map_some, hrest]

/-- R204, R227: the subsets of one size, in lexicographic order. The fuel of log 14 is enough: there are no more than
`2^k` subsets. -/
theorem subsetsOfSize_eq {k w : Nat} (hk : k ≤ 65535) (hw : w ≤ k) : subsetsOfSize k w = subsetsFrom k w 0 := by
  have hfirst : (subsetsFrom k w 0)[0]? = some (List.range w) := by
    rw [← List.head?_eq_getElem?, subsetsFrom_head? hw, List.range_eq_range']
  have hfuel : (subsetsFrom k w 0).length ≤ 0 + 2 ^ k := by
    rw [subsetsFrom_length, Nat.zero_add]
    exact Nat.choose_le_two_pow k w
  rw [subsetsOfSize, initialCombination_eq_combState, enumerateFrom_combState hk hfirst hfuel, List.drop_zero,
    List.map_map]
  refine (List.map_congr_left fun x hx => ?_).trans (List.map_id _)
  obtain ⟨hlen, -, hmem⟩ := mem_subsetsFrom_zero_iff.mp hx
  rw [Function.comp_apply, ← hlen, combState_take hmem hk, id]

/-- Settles O39: one list of all subsets for each weight, counted by Pascal's rule. -/
theorem searchWorkCount : Obligations.SearchWorkCount := by
  intro k wMax hk
  rw [searchSubsets, List.length_flatMap]
  refine congrArg List.sum (List.map_congr_left fun w hw => ?_)
  rw [subsetsOfSize_eq hk (by rw [List.mem_range] at hw; omega), subsetsFrom_length]

/-! The enumeration by commands (R200, R201) -/

theorem runCommands_append (a b : List Instr) (s : State) :
    runCommands (a ++ b) s = (runCommands a s).bind (runCommands b) := by
  induction a generalizing s with
  | nil => rfl
  | cons i a ih =>
    rw [List.cons_append, runCommands, runCommands]
    cases exec i s with
    | next t => exact ih t
    | fault _ => rfl
    | refused _ => rfl

theorem runCommands_snoc {is : List Instr} {i : Instr} {s t u : State} (hs : runCommands is s = some t)
    (hi : exec i t = .next u) : runCommands (is ++ [i]) s = some u := by
  simp only [runCommands_append, hs, Option.bind_some, runCommands, hi]

/-- `C` holds the subset `x` of the numbers below `n`, and the last command ended without an error. -/
def HoldsSubset (n w : Nat) (x : List Nat) (t : State) : Prop :=
  t.store.c = { w := w, n := n, state := combState n x } ∧ t.regs.err = .ok

section
variable {n w : Nat} {x : List Nat} {t : State} (hn : n ≤ 65535) (hx : IsSubset n w x)
include hn hx

theorem holdsSubset_take (ht : HoldsSubset n w x t) : indexNats (t.store.c.state.take w) = x := by
  obtain ⟨hlen, -, hmem⟩ := hx
  rw [ht.1, ← hlen, combState_take hmem hn]

theorem exec_cadv_of_nextSubset {y : List Nat} (ht : HoldsSubset n w x t) (hy : nextSubset n x = some y) :
    ∃ u, exec .cadv t = .next u ∧ HoldsSubset n w y u ∧ u.regs.res = true := by
  obtain ⟨hlen, -, hmem⟩ := hx
  have hadvance := advance_combState hmem hn
  rw [hlen, hy, Option.map_some] at hadvance
  obtain ⟨hc, -⟩ := ht
  refine ⟨((t.setC { t.store.c with state := combState n y }).setRes true).finish .ok, ?_, ⟨?_, rfl⟩, rfl⟩
  · simp only [exec, execCadv, hc, hadvance, complete]
  · rw [finish_store, setRes_store, setC_store_c, hc]

theorem exec_cadv_of_no_nextSubset (ht : HoldsSubset n w x t) (hy : nextSubset n x = none) :
    ∃ u, exec .cadv t = .next u ∧ HoldsSubset n w x u ∧ u.regs.res = false := by
  obtain ⟨hlen, -, hmem⟩ := hx
  have hadvance := advance_combState hmem hn
  rw [hlen, hy, Option.map_none] at hadvance
  obtain ⟨hc, -⟩ := ht
  refine ⟨(t.setRes false).finish .ok, ?_, ⟨hc, rfl⟩, rfl⟩
  simp only [exec, execCadv, hc, hadvance, complete]

end

/-- The program of R204: `CINIT`, then `j` times `CADV`. -/
def enumeration (j : Nat) : List Instr := .cinit :: List.replicate j .cadv

theorem enumeration_succ (j : Nat) : enumeration (j + 1) = enumeration j ++ [.cadv] := by
  rw [enumeration, enumeration, List.replicate_succ', List.cons_append]

section
variable {s : State} (hcap : s.params.nMax ≤ 65535) (hn : s.regs.arg1.toNat ≤ s.params.nMax)
  (hw : s.regs.arg0.toNat ≤ s.regs.arg1.toNat)
include hcap hn hw

/-- Before exhaustion, `C` walks through the list of subsets. -/
theorem enumeration_reaches {j : Nat} {x : List Nat}
    (hj : (subsetsFrom s.regs.arg1.toNat s.regs.arg0.toNat 0)[j]? = some x) :
    ∃ t, runCommands (enumeration j) s = some t ∧ HoldsSubset s.regs.arg1.toNat s.regs.arg0.toNat x t
      ∧ (0 < j → t.regs.res = true) := by
  induction j generalizing x with
  | zero =>
    rw [← List.head?_eq_getElem?, subsetsFrom_head? hw, Option.some_inj, ← List.range_eq_range'] at hj
    subst hj
    exact ⟨_, by rw [enumeration, runCommands, exec_cinit_of_fits hn hw]; rfl, ⟨rfl, rfl⟩, nofun⟩
  | succ j ih =>
    obtain ⟨hlt, -⟩ := List.getElem?_eq_some_iff.mp hj
    have hprev := List.getElem?_eq_getElem (Nat.lt_of_succ_lt hlt)
    obtain ⟨t, hrun, ht, -⟩ := ih hprev
    obtain ⟨u, hexec, hu, hres⟩ := exec_cadv_of_nextSubset (hn.trans hcap)
      (mem_subsetsFrom_zero_iff.mp (List.mem_of_getElem? hprev)) ht ((nextSubset_subsetsFrom hprev).trans hj)
    exact ⟨u, by rw [enumeration_succ, runCommands_snoc hrun hexec], hu, fun _ => hres⟩

/-- From exhaustion on, `C` keeps the last subset and `RES` is 0. -/
theorem enumeration_stays {j : Nat} {x : List Nat}
    (hlast : (subsetsFrom s.regs.arg1.toNat s.regs.arg0.toNat 0).getLast? = some x)
    (hj : (subsetsFrom s.regs.arg1.toNat s.regs.arg0.toNat 0).length ≤ j) :
    ∃ t, runCommands (enumeration j) s = some t ∧ HoldsSubset s.regs.arg1.toNat s.regs.arg0.toNat x t
      ∧ t.regs.res = false := by
  have hx := mem_subsetsFrom_zero_iff.mp (List.mem_of_getLast? hlast)
  rw [List.getLast?_eq_getElem?] at hlast
  obtain ⟨hlt, -⟩ := List.getElem?_eq_some_iff.mp hlast
  have hnone := nextSubset_subsetsFrom hlast
  rw [List.getElem?_eq_none (by omega)] at hnone
  induction j, hj using Nat.le_induction with
  | base =>
    obtain ⟨t, hrun, ht, -⟩ := enumeration_reaches hcap hn hw hlast
    obtain ⟨u, hexec, hu, hres⟩ := exec_cadv_of_no_nextSubset (hn.trans hcap) hx ht hnone
    refine ⟨u, ?_, hu, hres⟩
    rw [← runCommands_snoc hrun hexec, ← enumeration_succ, Nat.sub_add_cancel (by omega)]
  | succ j _ ih =>
    obtain ⟨t, hrun, ht, -⟩ := ih
    obtain ⟨u, hexec, hu, hres⟩ := exec_cadv_of_no_nextSubset (hn.trans hcap) hx ht hnone
    exact ⟨u, by rw [enumeration_succ, runCommands_snoc hrun hexec], hu, hres⟩

end

/-- Settles O30: the list is `subsetsFrom`, and `CADV` goes from each of its members to the next. -/
theorem enumerationVisitsEverySubsetInOrder : Obligations.EnumerationVisitsEverySubsetInOrder := by
  intro s hcap hn hw
  refine ⟨subsetsFrom s.regs.arg1.toNat s.regs.arg0.toNat 0, subsetsFrom_length _ _ _, subsetsFrom_pairwise_lt _ _ _,
    fun x => mem_subsetsFrom_zero_iff, fun j x hj => ?reached, fun j hj => ?exhausted⟩
  case reached =>
    obtain ⟨t, hrun, ht, hres⟩ := enumeration_reaches hcap hn hw hj
    have hx := mem_subsetsFrom_zero_iff.mp (List.mem_of_getElem? hj)
    exact ⟨t, hrun, ht.2, holdsSubset_take (hn.trans hcap) hx ht, hres⟩
  case exhausted =>
    have hlast := subsetsFrom_getLast? hw 0
    obtain ⟨t, hrun, ht, hres⟩ := enumeration_stays hcap hn hw hlast hj
    have hx := mem_subsetsFrom_zero_iff.mp (List.mem_of_getLast? hlast)
    exact ⟨t, hrun, ht.2, by rw [hlast, holdsSubset_take (hn.trans hcap) hx ht], hres⟩

end Sys2Proof.Machine

/-! PROOFS. The metrics of the search (44_osd_decoder.md R226, R227, R235): the encodings with sign bit 0 and their
order, that a metric is one of them, and which candidate the search keeps. -/

namespace Sys2Proof.Machine

/-! Encodings as numbers (R13) -/

theorem f64Mag_eq (x : F64) : f64Mag x = x.toNat % 2 ^ 63 := by
  simp [f64Mag]

theorem f64Sign_eq (x : F64) : f64Sign x = decide (2 ^ 63 ≤ x.toNat) := by
  rw [f64Sign, ← BitVec.msb_eq_getLsbD_last, BitVec.msb_eq_decide]

/-- An encoding with sign bit 0 that is no NaN is a number up to that of the infinity. -/
theorem nonNegative_iff (x : F64) : NonNegative x ↔ x.toNat ≤ f64InfMag := by
  have := x.isLt
  simp only [NonNegative, isNaN, f64Sign_eq, f64Mag_eq, decide_eq_false_iff_not, f64InfMag]
  omega

theorem f64Key_of_nonNegative {x : F64} (hx : NonNegative x) : f64Key x = x.toNat := by
  have hle := (nonNegative_iff x).mp hx
  rw [f64Key, hx.2, f64Mag_eq, Nat.mod_eq_of_lt (by rw [f64InfMag] at hle; omega)]
  rfl

theorem flt_iff_of_nonNegative {x y : F64} (hx : NonNegative x) (hy : NonNegative y) :
    flt x y = true ↔ x.toNat < y.toNat := by
  rw [flt_iff hx.1 hy.1, f64Key_of_nonNegative hx, f64Key_of_nonNegative hy, Nat.cast_lt]

theorem flt_eq_false_iff_of_nonNegative {x y : F64} (hx : NonNegative x) (hy : NonNegative y) :
    flt x y = false ↔ y.toNat ≤ x.toNat := by
  rw [← Bool.not_eq_true, flt_iff_of_nonNegative hx hy, Nat.not_lt]

/-- Settles O42: the key of such an encoding is its number. -/
theorem nonNegativeOrderByEncoding : Obligations.NonNegativeOrderByEncoding := by
  intro x y hx hy
  refine ⟨flt_iff_of_nonNegative hx hy, ?_⟩
  rw [feq_iff hx.1 hy.1, f64Key_of_nonNegative hx, f64Key_of_nonNegative hy, Nat.cast_inj, BitVec.toNat_eq]

/-! Sums of encodings with sign bit 0 (R226) -/

theorem mkF64_toNat {sign : Bool} {mag : Nat} (h : mag < 2 ^ 63) :
    (mkF64 sign mag).toNat = sign.toNat * 2 ^ 63 + mag := by
  rw [mkF64, BitVec.toNat_append, BitVec.toNat_ofBool, BitVec.toNat_ofNat, Nat.mod_eq_of_lt h,
    ← Nat.shiftLeft_add_eq_or_of_lt h, Nat.shiftLeft_eq]

theorem roundUnits_le (n : Nat) : roundUnits n ≤ f64InfMag := by
  rw [roundUnits]
  split <;> omega

theorem nonNegative_mkF64 {mag : Nat} (h : mag ≤ f64InfMag) : NonNegative (mkF64 false mag) := by
  rw [nonNegative_iff, mkF64_toNat (by rw [f64InfMag] at h; omega)]
  simpa using h

theorem nonNegative_zero : NonNegative f64Zero := by
  rw [nonNegative_iff]
  decide

theorem f64Exact_of_nonNegative {x : F64} (hx : NonNegative x) : 0 ≤ f64Exact x := by
  rw [f64Exact, hx.2]
  exact Int.natCast_nonneg _

/-- R226: the addition of R13 keeps sign bit 0, and makes no NaN of two such operands. -/
theorem nonNegative_fadd {x y : F64} (hx : NonNegative x) (hy : NonNegative y) : NonNegative (fadd x y) := by
  have hxe := f64Exact_of_nonNegative hx
  have hye := f64Exact_of_nonNegative hy
  obtain ⟨hxn, hxs⟩ := hx
  obtain ⟨hyn, hys⟩ := hy
  simp only [fadd, hxn, hyn, hxs, hys, Bool.or_self, Bool.false_eq_true, if_false, bne_self_eq_false, Bool.and_false,
    Bool.and_self]
  split
  · exact ⟨hxn, hxs⟩
  · split
    · exact ⟨hyn, hys⟩
    · split
      · exact nonNegative_mkF64 (Nat.zero_le _)
      · rw [decide_eq_false (by omega)]
        exact nonNegative_mkF64 (roundUnits_le _)

/-- A property of `+0.0` that every addition keeps holds of every metric. -/
theorem metric_induction {motive : F64 → Prop} {cand alpha : List Bool} {beta : List F64} (h0 : motive f64Zero)
    (hadd : ∀ m, ∀ b ∈ beta, motive m → motive (fadd m b)) : motive (metric cand alpha beta) := by
  refine List.foldlRecOn _ _ h0 fun m hm x hx => ?_
  dsimp only
  split
  · exact hadd m x.2 (List.of_mem_zip hx).2 hm
  · exact hm

/-- Settles O41: a metric is a sum of reliabilities, begun at `+0.0`. -/
theorem metricIsNonNegative : Obligations.MetricIsNonNegative := by
  intro cand alpha beta hbeta
  exact metric_induction nonNegative_zero fun m b hb hm => nonNegative_fadd hm (hbeta b hb)

/-! The candidate kept (R227) -/

/-- `best` stands at place `i`, no candidate has a lower metric, and every earlier one has a greater metric. -/
def EarliestLeast (l : List (List Bool × F64)) (i : Nat) (best : List Bool × F64) : Prop :=
  l[i]? = some best ∧
    ∀ j c, l[j]? = some c → best.2.toNat ≤ c.2.toNat ∧ (j < i → best.2.toNat < c.2.toNat)

theorem earliestLeast_singleton (c : List Bool × F64) : EarliestLeast [c] 0 c := by
  refine ⟨rfl, fun j d hd => ⟨?_, fun hj => absurd hj (Nat.not_lt_zero j)⟩⟩
  rw [List.mem_singleton.mp (List.mem_of_getElem? hd)]

/-- One round of the search, on metrics of which none is a NaN or negative. -/
theorem earliestLeast_append {l : List (List Bool × F64)} {i : Nat} {best c : List Bool × F64}
    (h : EarliestLeast l i best) (hbest : NonNegative best.2) (hc : NonNegative c.2) :
    ∃ i' best', keepBetter (some best) c = some best' ∧ EarliestLeast (l ++ [c]) i' best' := by
  obtain ⟨hi, hleast⟩ := h
  have hlt := (List.getElem?_eq_some_iff.mp hi).1
  have hnew : ∀ j d, (l ++ [c])[j]? = some d → j < l.length ∧ l[j]? = some d ∨ j = l.length ∧ d = c := by
    intro j d hd
    rw [List.getElem?_append] at hd
    split at hd
    next hj => exact .inl ⟨hj, hd⟩
    next hj =>
      have hj0 := (List.getElem?_eq_some_iff.mp hd).1
      obtain rfl : j = l.length := by simp at hj0; omega
      rw [Nat.sub_self, List.getElem?_cons_zero, Option.some_inj] at hd
      exact .inr ⟨rfl, hd.symm⟩
  by_cases hbetter : c.2.toNat < best.2.toNat
  · refine ⟨l.length, c, ?_, List.getElem?_concat_length, fun j d hd => ?_⟩
    · simp only [keepBetter, (flt_iff_of_nonNegative hc hbest).mpr hbetter, if_true]
    · obtain ⟨-, hd⟩ | ⟨rfl, rfl⟩ := hnew j d hd
      · have := hleast j d hd
        omega
      · exact ⟨le_rfl, fun hj => absurd hj (Nat.lt_irrefl _)⟩
  · refine ⟨i, best, ?_, by rw [List.getElem?_append_left hlt, hi], fun j d hd => ?_⟩
    · simp only [keepBetter, mt (flt_iff_of_nonNegative hc hbest).mp hbetter, if_false, Bool.false_eq_true]
    · obtain ⟨-, hd⟩ | ⟨rfl, rfl⟩ := hnew j d hd
      · exact hleast j d hd
      · omega

theorem foldl_keepBetter {l : List (List Bool × F64)} (hne : l ≠ []) (hl : ∀ c ∈ l, NonNegative c.2) :
    ∃ i best, l.foldl keepBetter none = some best ∧ EarliestLeast l i best := by
  induction l using List.reverseRecOn with
  | nil => exact absurd rfl hne
  | append_singleton l c ih =>
    rw [List.foldl_append, List.foldl_cons, List.foldl_nil]
    obtain ⟨hl, hc⟩ := List.forall_mem_append.mp hl
    by_cases hempty : l = []
    · subst hempty
      exact ⟨0, c, rfl, earliestLeast_singleton c⟩
    · obtain ⟨i, best, hfold, hbest⟩ := ih hempty hl
      obtain ⟨i', best', hkeep, h⟩ := earliestLeast_append hbest (hl _ (List.mem_of_getElem? hbest.1))
        (hc c (List.mem_singleton_self c))
      exact ⟨i', best', by rw [hfold, hkeep], h⟩

/-! The subsets searched (R227) -/

theorem enumerateFrom_succ (w fuel : Nat) (st : List Word) :
    ∃ rest, enumerateFrom w (fuel + 1) st = st :: rest :=
  ⟨_, rfl⟩

/-- The seed is the first candidate: the search begins with the empty subset. -/
theorem searchSubsets_head? (k wMax : Nat) : (searchSubsets k wMax).head? = some [] := by
  obtain ⟨fuel, hfuel⟩ := Nat.exists_eq_add_of_lt (Nat.two_pow_pos k)
  rw [Nat.zero_add] at hfuel
  obtain ⟨rest, hrest⟩ := enumerateFrom_succ 0 fuel (initialCombination 0 k)
  rw [searchSubsets, List.range_succ_eq_map, List.flatMap_cons, subsetsOfSize, hfuel, hrest]
  rfl

/-- The candidates of a search with their metrics, in the order they are scored. -/
def candidates (info : List Bool) (g : Matrix) (alpha : List Bool) (beta : List F64) (wMax : Nat) :
    List (List Bool × F64) :=
  (searchSubsets g.rowCount wMax).map (scoreCandidate info g alpha beta)

section
variable {info alpha : List Bool} {g : Matrix} {beta : List F64}

theorem candidates_getElem? {wMax i : Nat} {c : List Bool × F64} :
    (candidates info g alpha beta wMax)[i]? = some c ↔
      ∃ p, (searchSubsets g.rowCount wMax)[i]? = some p ∧ scoreCandidate info g alpha beta p = c := by
  rw [candidates, List.getElem?_map, Option.map_eq_some_iff]

theorem candidates_head? (wMax : Nat) :
    (candidates info g alpha beta wMax)[0]? = some (scoreCandidate info g alpha beta []) :=
  candidates_getElem?.mpr ⟨[], by rw [← List.head?_eq_getElem?, searchSubsets_head?], rfl⟩

variable (hbeta : ∀ b ∈ beta, NonNegative b)
include hbeta

theorem nonNegative_scoreCandidate (p : List Nat) : NonNegative (scoreCandidate info g alpha beta p).2 :=
  metricIsNonNegative _ _ _ hbeta

/-- R227: the search answers the earliest of its candidates of least metric. -/
theorem search_earliestLeast (wMax : Nat) :
    ∃ i, EarliestLeast (candidates info g alpha beta wMax) i (search info g alpha beta wMax) := by
  have hne : candidates info g alpha beta wMax ≠ [] := by
    intro hnil
    have h := candidates_head? (info := info) (g := g) (alpha := alpha) (beta := beta) wMax
    rw [hnil] at h
    exact absurd h nofun
  have hnn : ∀ c ∈ candidates info g alpha beta wMax, NonNegative c.2 := by
    intro c hc
    obtain ⟨p, -, rfl⟩ := List.mem_map.mp hc
    exact nonNegative_scoreCandidate hbeta p
  obtain ⟨i, best, hfold, hbest⟩ := foldl_keepBetter hne hnn
  rw [candidates] at hfold
  refine ⟨i, ?_⟩
  simp only [search, hfold, Option.getD_some]
  exact hbest

/-- The search answers one of its candidates. -/
theorem exists_search_eq (wMax : Nat) :
    ∃ p ∈ searchSubsets g.rowCount wMax, search info g alpha beta wMax = scoreCandidate info g alpha beta p := by
  obtain ⟨i, hi, -⟩ := search_earliestLeast (info := info) (g := g) (alpha := alpha) hbeta wMax
  obtain ⟨p, hp, hscore⟩ := candidates_getElem?.mp hi
  exact ⟨p, List.mem_of_getElem? hp, hscore.symm⟩

theorem nonNegative_search (wMax : Nat) : NonNegative (search info g alpha beta wMax).2 := by
  obtain ⟨p, -, hp⟩ := exists_search_eq (info := info) (g := g) (alpha := alpha) hbeta wMax
  rw [hp]
  exact nonNegative_scoreCandidate hbeta p

end

/-- Settles O40: `EarliestLeast`, with the order of the metrics as `flt`. -/
theorem searchKeepsEarliestMinimum : Obligations.SearchKeepsEarliestMinimum := by
  intro info g alpha beta wMax hbeta
  obtain ⟨i, hi, hleast⟩ := search_earliestLeast (info := info) (g := g) (alpha := alpha) hbeta wMax
  obtain ⟨p, hp, hscore⟩ := candidates_getElem?.mp hi
  have hbest := nonNegative_search (info := info) (g := g) (alpha := alpha) hbeta wMax
  refine ⟨i, p, hp, hscore.symm, fun j q hq => ?_⟩
  have hother := nonNegative_scoreCandidate (info := info) (g := g) (alpha := alpha) hbeta q
  obtain ⟨hle, hlt⟩ := hleast j _ (candidates_getElem?.mpr ⟨q, hq, rfl⟩)
  rw [flt_eq_false_iff_of_nonNegative hother hbest, flt_iff_of_nonNegative hbest hother]
  exact ⟨hle, hlt⟩

end Sys2Proof.Machine

/-! PROOFS. What a `DECODE` that succeeds has computed (44_osd_decoder.md R221–R230), and that a larger `w_max` never
makes its answer worse (R233). -/

namespace Sys2Proof.Machine

/-! Reliabilities in any order (R221, R223) -/

theorem mem_of_mem_applyPerm {α : Type} {p : List Nat} {x : List α} {a : α} (h : a ∈ applyPerm p x) : a ∈ x := by
  have hall : ∀ b ∈ applyPerm p x, b ∈ x := by
    refine List.foldlRecOn (motive := fun r : List α => ∀ b ∈ r, b ∈ x) _ _ (fun b hb => hb) fun r hr y hy b hb => ?_
    rcases List.mem_or_eq_of_mem_set hb with hb | rfl
    · exact hr b hb
    · exact (List.of_mem_zip hy).2
  exact hall a h

theorem nonNegative_fabs {x : F64} (hx : isNaN x = false) : NonNegative (fabs x) := by
  refine ⟨(isNaN_fabs x).trans hx, ?_⟩
  rw [f64Sign, fabs, BitVec.getLsbD_append]
  rfl

theorem nonNegative_of_mem_applyPerm {x : List F64} (hnan : ∀ a ∈ x, isNaN a = false) (p : List Nat) :
    ∀ b ∈ applyPerm p (reliabilities x), NonNegative b := by
  intro b hb
  obtain ⟨a, ha, rfl⟩ := List.mem_map.mp (mem_of_mem_applyPerm hb)
  exact nonNegative_fabs (hnan a ha)

/-! The answer (R230) -/

/-- The conditions under which `DECODE` answers a word; with one of them missing it ends with an error. -/
structure Decodable (x : List F64) (g : Matrix) : Prop where
  rows : 1 ≤ g.rowCount
  length : x.length = g.cols
  noNaN : ∀ a ∈ x, isNaN a = false
  pivots : ¬ (reliabilityElimination x g).2.length < g.rowCount

/-- The answer, back in original positions, with its metric. -/
def decodeAnswer (x : List F64) (g : Matrix) (wMax : Nat) : List Bool × F64 :=
  (applyPerm (reliabilityOrder (reliabilities x)) (bestCandidate x g wMax).1, (bestCandidate x g wMax).2)

/-- All that `DECODE`'s checks can lead to. -/
theorem decodeWord_cases (x : List F64) (g : Matrix) (wMax : Nat) :
    (Decodable x g ∧ decodeWord x g wMax = .ok (decodeAnswer x g wMax)) ∨
      ∃ e, e ≠ .ok ∧ decodeWord x g wMax = .error e := by
  by_cases hrows : g.rowCount = 0
  · exact .inr ⟨.lengthMismatch, nofun, decodeWord_of_no_rows hrows wMax⟩
  have hrows := Nat.one_le_iff_ne_zero.mpr hrows
  by_cases hlen : x.length = g.cols
  · by_cases hnan : ∃ a ∈ x, isNaN a = true
    · exact .inr ⟨.badReal, nofun, decodeWord_of_nan hrows hlen hnan wMax⟩
    · have hnan : ∀ a ∈ x, isNaN a = false := fun a ha =>
        Bool.eq_false_iff.mpr fun hbad => hnan ⟨a, ha, hbad⟩
      have hanswer := decodeWord_of_operands hrows hlen hnan wMax
      by_cases hpivots : (reliabilityElimination x g).2.length < g.rowCount
      · exact .inr ⟨.rankDeficiency, nofun, hanswer.trans (if_pos hpivots)⟩
      · exact .inl ⟨⟨hrows, hlen, hnan, hpivots⟩, hanswer.trans (if_neg hpivots)⟩
  · exact .inr ⟨.lengthMismatch, nofun, decodeWord_of_length_ne hrows hlen wMax⟩

theorem decodeWord_of_decodable {x : List F64} {g : Matrix} (h : Decodable x g) (wMax : Nat) :
    decodeWord x g wMax = .ok (decodeAnswer x g wMax) :=
  (decodeWord_of_operands h.rows h.length h.noNaN wMax).trans (if_neg h.pivots)

/-- A `DECODE` that succeeds has passed its checks, and has written its answer. -/
theorem decode_of_succeeds {fd : VId} {fa : SId} {fb : MId} {s t : State} (h : Succeeds (.decode fd fa fb) s t) :
    Decodable s.store.s[fa] s.store.m[fb]
      ∧ t.store.v[fd] = (decodeAnswer s.store.s[fa] s.store.m[fb] s.regs.arg0.toNat).1
      ∧ t.regs.metric = (decodeAnswer s.store.s[fa] s.store.m[fb] s.regs.arg0.toNat).2 := by
  obtain ⟨hexec, herr, -⟩ := h
  obtain ⟨hd, hok⟩ | ⟨e, he, hfail⟩ := decodeWord_cases s.store.s[fa] s.store.m[fb] s.regs.arg0.toNat
  · rw [exec_decode_of_ok hok, complete_eq_next] at hexec
    subst hexec
    exact ⟨hd, vector_getElem_set_fin_self _ _ _, rfl⟩
  · rw [failsWith_iff.mp (failsWith_decode_of_error hfail fd), raiseError_eq_next] at hexec
    subst hexec
    exact absurd herr he

/-- The candidates a `DECODE` scores, in order of reliability of their bits (R224–R227). -/
def decodeCandidates (x : List F64) (g : Matrix) (wMax : Nat) : List (List Bool × F64) :=
  let pi := invert (reliabilityOrder (reliabilities x))
  let alpha := applyPerm pi (hardDecisions x)
  candidates ((reliabilityElimination x g).2.map fun c => alpha.getD c false) (reliabilityElimination x g).1 alpha
    (applyPerm pi (reliabilities x)) wMax

theorem bestCandidate_earliestLeast {x : List F64} (hnan : ∀ a ∈ x, isNaN a = false) (g : Matrix) (wMax : Nat) :
    ∃ i, EarliestLeast (decodeCandidates x g wMax) i (bestCandidate x g wMax) :=
  search_earliestLeast (nonNegative_of_mem_applyPerm hnan _) wMax

theorem nonNegative_bestCandidate {x : List F64} (hnan : ∀ a ∈ x, isNaN a = false) (g : Matrix) (wMax : Nat) :
    NonNegative (bestCandidate x g wMax).2 :=
  nonNegative_search (nonNegative_of_mem_applyPerm hnan _) wMax

/-! A larger `w_max` (R233) -/

theorem searchSubsets_isPrefix {k w1 w2 : Nat} (h : w1 ≤ w2) :
    List.IsPrefix (searchSubsets k w1) (searchSubsets k w2) := by
  obtain ⟨d, hd⟩ := Nat.exists_eq_add_of_le (show min w1 k + 1 ≤ min w2 k + 1 by omega)
  rw [searchSubsets, searchSubsets, hd, List.range_add (n := min w1 k + 1), List.flatMap_append]
  exact List.prefix_append _ _

theorem candidates_isPrefix {info alpha : List Bool} {g : Matrix} {beta : List F64} {w1 w2 : Nat} (h : w1 ≤ w2) :
    List.IsPrefix (candidates info g alpha beta w1) (candidates info g alpha beta w2) :=
  (searchSubsets_isPrefix h).map _

/-- Of a list of candidates and a longer one that begins with it, the longer has the lower least metric, or the same
candidate is kept. -/
theorem earliestLeast_of_isPrefix {l l' : List (List Bool × F64)} {i i' : Nat} {best best' : List Bool × F64}
    (h : EarliestLeast l i best) (h' : EarliestLeast l' i' best') (hpre : List.IsPrefix l l') :
    best'.2.toNat ≤ best.2.toNat ∧ (best' ≠ best → best'.2.toNat < best.2.toNat) := by
  obtain ⟨hi, hleast⟩ := h
  obtain ⟨hi', hleast'⟩ := h'
  have hsub : ∀ (j : Nat) c, l[j]? = some c → l'[j]? = some c := by
    obtain ⟨rest, rfl⟩ := hpre
    intro j c hj
    rw [List.getElem?_append_left (List.getElem?_eq_some_iff.mp hj).1, hj]
  obtain ⟨hle, hlt⟩ := hleast' i best (hsub i best hi)
  refine ⟨hle, fun hne => ?_⟩
  by_contra hnot
  have hback : i' ≤ i := Nat.le_of_not_lt fun hii => by have := hlt hii; omega
  have hi'l : i' < l.length := hback.trans_lt (List.getElem?_eq_some_iff.mp hi).1
  have hsame : l[i']? = some best' := by
    rw [← hi', hsub i' _ (List.getElem?_eq_getElem hi'l), List.getElem?_eq_getElem hi'l]
  have hforth : i ≤ i' := Nat.le_of_not_lt fun hii => by have := (hleast i' best' hsame).2 hii; omega
  obtain rfl : i' = i := by omega
  exact hne (Option.some.inj (hsame.symm.trans hi))

/-- Settles O35: the candidates of the smaller `w_max` are the first ones of the larger, and the search keeps the
earliest of least metric. -/
theorem decodeIsMonotoneInTheWeight : Obligations.DecodeIsMonotoneInTheWeight := by
  intro fd fa fb s t1 t2 w1 w2 hw h1 h2
  obtain ⟨hd, hv1, hm1⟩ := decode_of_succeeds h1
  obtain ⟨-, hv2, hm2⟩ := decode_of_succeeds h2
  have hnan := hd.noNaN
  obtain ⟨i1, hbest1⟩ := bestCandidate_earliestLeast hnan s.store.m[fb] w1.toNat
  obtain ⟨i2, hbest2⟩ := bestCandidate_earliestLeast hnan s.store.m[fb] w2.toNat
  obtain ⟨hle, hlt⟩ := earliestLeast_of_isPrefix hbest1 hbest2 (candidates_isPrefix hw)
  have hnn1 := nonNegative_bestCandidate hnan s.store.m[fb] w1.toNat
  have hnn2 := nonNegative_bestCandidate hnan s.store.m[fb] w2.toNat
  rw [hm1, hm2, hv1, hv2]
  refine ⟨searchSubsets_isPrefix hw, (flt_eq_false_iff_of_nonNegative hnn1 hnn2).mpr hle, fun hne => ?_⟩
  refine (flt_iff_of_nonNegative hnn2 hnn1).mpr (hlt fun hsame => hne ?_)
  rw [decodeAnswer, decodeAnswer, hsame]

end Sys2Proof.Machine

/-! PROOFS. What each command writes (R32, R38, R57), said once for all commands: the objects and flags it changes, and
that the objects stay within their bounds (R33, R37, R39). -/

namespace Sys2Proof.Machine

/-! What a command that completes has written, but for `ERR` and `BUSY` -/

/-- The state a command has made of `s` when its checks have passed. -/
inductive Writes (s : State) : Instr → State → Prop
  | vadd (fd fa fb : VId) : Writes s (.vadd fd fa fb) (s.setV fd (addBits s.store.v[fa] s.store.v[fb]))
  | veq (fa fb : VId) : Writes s (.veq fa fb) (s.setRes (decide (s.store.v[fa] = s.store.v[fb])))
  | vparse (fd : VId) : Writes s (.vparse fd) (s.setV fd (s.store.b.map fun ch => decide (ch = 0x31#8)))
  | vmul (fd fa : VId) (fb : MId) : Writes s (.vmul fd fa fb) (s.setV fd (multiply s.store.v[fa] s.store.m[fb]))
  | gauss (fd fa : MId) (fb : PId) : Writes s (.gauss fd fa fb)
      ((s.setM fd (gauss s.store.m[fa]).1).setP fb (indexWords (gauss s.store.m[fa]).2))
  | pinv (fd fa : PId) : Writes s (.pinv fd fa) (s.setP fd (indexWords (invert (indexNats s.store.p[fa]))))
  | papplyV (d : VId) (fa : PId) (q : VId) : Writes s (.papply (.v d) fa (.v q))
      (s.setV d (applyPerm (indexNats s.store.p[fa]) s.store.v[q]))
  | papplyS (d : SId) (fa : PId) (q : SId) : Writes s (.papply (.s d) fa (.s q))
      (s.setS d (applyPerm (indexNats s.store.p[fa]) s.store.s[q]))
  | papplyP (d : PId) (fa : PId) (q : PId) : Writes s (.papply (.p d) fa (.p q))
      (s.setP d (applyPerm (indexNats s.store.p[fa]) s.store.p[q]))
  | pcolsEmpty (fd fa : MId) (fb : PId) : Writes s (.pcols fd fa fb) (s.setM fd s.store.m[fa])
  | pcols (fd fa : MId) (fb : PId) : Writes s (.pcols fd fa fb)
      (s.setM fd (permuteColumns s.store.m[fa] (indexNats s.store.p[fb])))
  | cinit (hn : s.regs.arg1.toNat ≤ s.params.nMax) (hw : s.regs.arg0.toNat ≤ s.regs.arg1.toNat) : Writes s .cinit
      (s.setC { w := s.regs.arg0.toNat, n := s.regs.arg1.toNat
                state := initialCombination s.regs.arg0.toNat s.regs.arg1.toNat })
  | cadvLast : Writes s .cadv (s.setRes false)
  | cadv {st : List Word} (hst : advance s.store.c.w s.store.c.state = some st) : Writes s .cadv
      ((s.setC { s.store.c with state := st }).setRes true)
  | decode (fd : VId) (fa : SId) (fb : MId) (h : Decodable s.store.s[fa] s.store.m[fb]) : Writes s (.decode fd fa fb)
      ((s.setV fd (decodeAnswer s.store.s[fa] s.store.m[fb] s.regs.arg0.toNat).1).setMetric
        (decodeAnswer s.store.s[fa] s.store.m[fb] s.regs.arg0.toNat).2)

/-- A command ends with an error, or completes in a state of which `P` holds. -/
inductive EndsIn (s : State) (P : State → Prop) : Result → Prop
  | completed {u : State} (h : P u) : EndsIn s P (complete u)
  | raised (e : ErrCode) : EndsIn s P (raiseError e s)

section
variable {s : State} {P : State → Prop}

theorem endsIn_ite {c : Prop} {_ : Decidable c} {a b : Result} (ha : c → EndsIn s P a) (hb : ¬ c → EndsIn s P b) :
    EndsIn s P (if c then a else b) :=
  iteInduction ha hb

theorem endsIn_endChecked {α : Type} {write : α → State} {r : Except ErrCode α} (h : ∀ x, r = .ok x → P (write x)) :
    EndsIn s P (endChecked s write r) :=
  match r, h with
  | .ok _, h => .completed (h _ rfl)
  | .error e, _ => .raised e

theorem checkedApply_eq_ok {α : Type} {p : List Nat} {x y : List α} (h : checkedApply p x = .ok y) :
    y = applyPerm p x := by
  by_cases hlen : p.length = x.length
  · by_cases hp : IsPermutation p
    · exact Except.ok.inj (h.symm.trans (checkedApply_of_isPermutation hlen hp))
    · exact absurd (h.symm.trans (checkedApply_of_not_isPermutation hlen hp)) nofun
  · exact absurd (h.symm.trans (checkedApply_of_length_ne hlen)) nofun

theorem eq_finish_of_endsIn {r : Result} {t : State} (hends : EndsIn s P r) (hr : r = .next t) :
    (∃ e, t = s.finish e) ∨ ∃ u, P u ∧ t = u.finish .ok := by
  cases hends with
  | completed h => exact .inr ⟨_, h, complete_eq_next.mp hr⟩
  | raised e => exact .inl ⟨e, raiseError_eq_next.mp hr⟩

theorem next_of_endsIn {r : Result} (hends : EndsIn s P r) : ∃ t, r = .next t := by
  cases hends with
  | completed _ => exact ⟨_, rfl⟩
  | raised e => exact ⟨_, rfl⟩

end

section
variable (s : State)

theorem papply_endsIn (fd : SeqRef) (fa : PId) (fb : SeqRef) :
    EndsIn s (Writes s (.papply fd fa fb)) (exec (.papply fd fa fb) s) := by
  by_cases hclass : fd.objClass = fb.objClass
  · match fd, fb, hclass with
    | .v d, .v q, _ =>
      rw [exec_papply_v]
      exact endsIn_endChecked fun x hx => checkedApply_eq_ok hx ▸ .papplyV d fa q
    | .s d, .s q, _ =>
      rw [exec_papply_s]
      exact endsIn_endChecked fun x hx => checkedApply_eq_ok hx ▸ .papplyS d fa q
    | .p d, .p q, _ =>
      rw [exec_papply_p]
      exact endsIn_endChecked fun x hx => checkedApply_eq_ok hx ▸ .papplyP d fa q
  · rw [exec_papply_of_objClass_ne s fa hclass]
    exact .raised _

theorem cadv_endsIn : EndsIn s (Writes s .cadv) (exec .cadv s) := by
  cases hgap : rightmostGap s.store.c.state s.store.c.w with
  | none =>
    rw [exec_cadv_of_no_gap hgap]
    exact .completed .cadvLast
  | some g =>
    rw [exec_cadv_of_gap hgap]
    exact .completed (.cadv (by rw [advance, hgap, Option.map_some]))

theorem decode_endsIn (fd : VId) (fa : SId) (fb : MId) :
    EndsIn s (Writes s (.decode fd fa fb)) (exec (.decode fd fa fb) s) := by
  obtain ⟨hd, hok⟩ | ⟨e, -, herr⟩ := decodeWord_cases s.store.s[fa] s.store.m[fb] s.regs.arg0.toNat
  · rw [exec_decode_of_ok hok]
    exact .completed (.decode fd fa fb hd)
  · rw [failsWith_iff.mp (failsWith_decode_of_error herr fd)]
    exact .raised _

/-- Along the checks of each command, in their order. -/
theorem exec_endsIn (i : Instr) : EndsIn s (Writes s i) (exec i s) :=
  match i with
  | .vadd fd fa fb => endsIn_ite (fun _ => .raised _) fun _ => .completed (.vadd fd fa fb)
  | .veq fa fb => endsIn_ite (fun _ => .raised _) fun _ => .completed (.veq fa fb)
  | .vparse fd => endsIn_ite (fun _ => .completed (.vparse fd)) fun _ => .raised _
  | .vmul fd fa fb =>
    endsIn_ite (fun _ => .raised _) fun _ => endsIn_ite (fun _ => .raised _) fun _ => .completed (.vmul fd fa fb)
  | .gauss fd fa fb =>
    endsIn_ite (fun _ => .raised _) fun _ => endsIn_ite (fun _ => .raised _) fun _ => .completed (.gauss fd fa fb)
  | .pinv fd fa => endsIn_ite (fun _ => .completed (.pinv fd fa)) fun _ => .raised _
  | .papply fd fa fb => papply_endsIn s fd fa fb
  | .pcols fd fa fb =>
    endsIn_ite (fun _ => .completed (.pcolsEmpty fd fa fb)) fun _ => endsIn_ite (fun _ => .raised _) fun _ =>
      endsIn_ite (fun _ => .completed (.pcols fd fa fb)) fun _ => .raised _
  | .cinit =>
    endsIn_ite (fun _ => .raised _) fun hn => endsIn_ite (fun _ => .raised _) fun hw =>
      .completed (.cinit (Nat.le_of_not_lt hn) (Nat.le_of_not_lt hw))
  | .cadv => cadv_endsIn s
  | .decode fd fa fb => decode_endsIn s fd fa fb

end

/-- The inversion lemma of `exec`: an error raised in the state the command began in, or the state it writes. -/
theorem exec_cases {i : Instr} {s t : State} (h : exec i s = .next t) :
    (∃ e, t = s.finish e) ∨ ∃ u, Writes s i u ∧ t = u.finish .ok :=
  eq_finish_of_endsIn (exec_endsIn s i) h

theorem exec_next (i : Instr) (s : State) : ∃ t, exec i s = .next t :=
  next_of_endsIn (exec_endsIn s i)

/-! The flags (R49, R56, R263) -/

section
variable {i : Instr} {s u : State} (h : Writes s i u)
include h

theorem writes_aerr : u.regs.aerr = s.regs.aerr := by cases h <;> rfl

theorem writes_res (hres : u.regs.res ≠ s.regs.res) : (∃ a b, i = .veq a b) ∨ i = .cadv := by
  cases h with
  | veq fa fb => exact .inl ⟨fa, fb, rfl⟩
  | cadvLast => exact .inr rfl
  | cadv => exact .inr rfl
  | _ => exact absurd rfl hres

theorem writes_metric (hmetric : u.regs.metric ≠ s.regs.metric) : ∃ d a b, i = .decode d a b := by
  cases h with
  | decode fd fa fb => exact ⟨fd, fa, fb, rfl⟩
  | _ => exact absurd rfl hmetric

end

/-- Settles O45: an error writes no flag but `ERR` and `BUSY`; otherwise by the command that wrote. -/
theorem commandsWriteOnlyTheirFlags : Obligations.CommandsWriteOnlyTheirFlags := by
  intro i s t hexec
  obtain ⟨e, rfl⟩ | ⟨u, hu, rfl⟩ := exec_cases hexec
  · exact ⟨rfl, rfl, fun hres => absurd rfl hres, fun hmetric => absurd rfl hmetric⟩
  · exact ⟨rfl, writes_aerr (u := u) hu, writes_res (u := u) hu, writes_metric (u := u) hu⟩

/-! The destinations (R38, R39, R57) -/

/-- The objects a command may write: the destinations it names, and `C` for the combination commands. -/
def destinations : Instr → List ObjRef
  | .vadd d _ _ => [.v d]
  | .veq _ _ => []
  | .vparse d => [.v d]
  | .vmul d _ _ => [.v d]
  | .gauss d _ q => [.m d, .p q]
  | .pinv d _ => [.p d]
  | .papply d _ _ => [d.toObj]
  | .pcols d _ _ => [.m d]
  | .cinit => [.c]
  | .cadv => [.c]
  | .decode d _ _ => [.v d]

section
variable {i : Instr} {s u : State} (h : Writes s i u)
include h

/-- By the reading rule of each whole-object write: `o` is none of the objects written. -/
theorem writes_value {o : ObjRef} (ho : o ∉ destinations i) : u.store.value o = s.store.value o := by
  cases h <;> simp only [destinations, SeqRef.toObj, List.mem_cons, List.not_mem_nil, or_false, not_or] at ho <;>
    simp [ho]

theorem writes_keepsAllBut : KeepsAllBut (destinations i) s u := by
  refine ⟨fun o ho => writes_value h ho, ?_⟩
  cases h <;> exact ⟨rfl, rfl, rfl, rfl, rfl, rfl, rfl, rfl, rfl, rfl, rfl⟩

end

theorem keepsAllBut_refl (dsts : List ObjRef) (s : State) : KeepsAllBut dsts s s :=
  ⟨fun _ _ => rfl, rfl, rfl, rfl, rfl, rfl, rfl, rfl, rfl, rfl, rfl, rfl⟩

/-- The end of a completion step touches no object, and of the registers only `ERR` and `BUSY`. -/
theorem keepsAllBut_finish {dsts : List ObjRef} {s u : State} (h : KeepsAllBut dsts s u) (e : ErrCode) :
    KeepsAllBut dsts s (u.finish e) := h

theorem exec_keepsAllBut {i : Instr} {s t : State} (h : exec i s = .next t) : KeepsAllBut (destinations i) s t := by
  obtain ⟨e, rfl⟩ | ⟨u, hu, rfl⟩ := exec_cases h
  · exact keepsAllBut_finish (keepsAllBut_refl _ s) e
  · exact keepsAllBut_finish (writes_keepsAllBut hu) .ok

/-- Settles O46: the frame of `exec`, with the destinations read off the command. -/
theorem commandsChangeOnlyTheirDestinations : Obligations.CommandsChangeOnlyTheirDestinations := by
  unfold Obligations.CommandsChangeOnlyTheirDestinations
  intro dests i s t hexec
  have hdests : dests i = destinations i := by cases i <;> rfl
  rw [hdests]
  exact exec_keepsAllBut hexec

end Sys2Proof.Machine

/-! PROOFS. The step (10_state.md R30–R32, 20_memory.md R86, 70_reset_and_hazards.md R300): what each agent's turn does,
that no state stops the machine, that a pending command ends, and the invariant every step keeps. -/

namespace Sys2Proof.Machine

/-! The turns (R86) -/

theorem step_of_engine_turn {s : State} {rest : List Turn} (h : s.turns = .engine :: rest) :
    step s = takeTurn .engine { s with turns := rest } := by
  simp only [step, nextTurn, h]

theorem step_of_host_turn {s : State} {rest : List Turn} (h : s.turns = .host :: rest) :
    step s = .next (hostStep { s with turns := rest }) := by
  simp only [step, nextTurn, h, takeTurn]

theorem step_of_no_turns_busy {s : State} (h : s.turns = []) (hbusy : s.regs.busy = true) :
    step s = completionStep s := by
  simp only [step, nextTurn, h, hbusy, takeTurn, if_true]

theorem step_of_no_turns_idle {s : State} (h : s.turns = []) (hidle : s.regs.busy = false) :
    step s = .next (hostStep s) := by
  simp only [step, nextTurn, h, hidle, takeTurn, Bool.false_eq_true, if_false]

theorem takeTurn_engine_of_busy {s : State} (hbusy : s.regs.busy = true) : takeTurn .engine s = completionStep s := by
  simp only [takeTurn, hbusy, if_true]

theorem takeTurn_engine_of_idle {s : State} (hidle : s.regs.busy = false) : takeTurn .engine s = .next s := by
  simp only [takeTurn, hidle, Bool.false_eq_true, if_false]

theorem completionStep_of_decode_ok {s : State} {i : Instr} (h : decode s.regs.pend = .ok i) :
    completionStep s = exec i s := by
  simp only [completionStep, h]

/-- Settles O6: a busy engine's turn is its completion step, given or by default. -/
theorem stepRunsPendingCommand : Obligations.StepRunsPendingCommand := by
  intro s i hbusy hdec
  refine ⟨fun rest hturns => ?_, fun hturns => ?_⟩
  · rw [step_of_engine_turn hturns, takeTurn_engine_of_busy (s := { s with turns := rest }) hbusy,
      completionStep_of_decode_ok (s := { s with turns := rest }) hdec]
  · rw [step_of_no_turns_busy hturns hbusy, completionStep_of_decode_ok hdec]

/-- A host at the end of its script has no step (R30). -/
theorem hostStep_of_end {s : State} (h : s.host.script.length ≤ s.host.line) : hostStep s = s := by
  simp only [hostStep, List.getElem?_eq_none h]

theorem hostStep_of_line {s : State} {l : HostLine} (h : s.host.script[s.host.line]? = some l) :
    hostStep s = runHostLine s l.op := by
  simp only [hostStep, h]

/-- Settles O8: the turn of an agent that has no step is only taken from the list. -/
theorem stepWithNothingToDoChangesNothing : Obligations.StepWithNothingToDoChangesNothing := by
  intro s
  refine ⟨fun rest hturns hidle => ?engine, fun rest hturns hend => ?host, fun hturns hidle hend => ?default⟩
  case engine => exact (step_of_engine_turn hturns).trans (takeTurn_engine_of_idle hidle)
  case host => exact (step_of_host_turn hturns).trans (congrArg _ (hostStep_of_end hend))
  case default => rw [step_of_no_turns_idle hturns hidle, hostStep_of_end hend]

/-! The host's lines (R30, R110) -/

@[simp] theorem hostRead_host (s : State) (addr : Nat) (width : Width) : (hostRead s addr width).2.host = s.host := by
  obtain ⟨a, i, n, h⟩ := hostRead_state s addr width
  rw [h]

/-- What a write of a register leaves outside the engine. -/
theorem writeReg_outside (s : State) (r : Reg) (data : Word) :
    (writeReg s r data).params = s.params ∧ (writeReg s r data).host = s.host
      ∧ (writeReg s r data).turns = s.turns := by
  by_cases hr : r = .ctrl
  · subst hr
    obtain ⟨-, h⟩ | ⟨-, h⟩ := writeCtrl_cases s data
    · rw [writeReg_ctrl, h]; exact ⟨rfl, rfl, rfl⟩
    · rw [writeReg_ctrl, h]; exact ⟨rfl, rfl, rfl⟩
  · obtain h | ⟨-, h | h | h | h | h | h⟩ := writeReg_cases s r data hr
    case inr.inr.inr.inr.inr.inr =>
      obtain ⟨o, -, ho⟩ | ⟨-, hn⟩ := writeAccData_cases s data
      · rw [h, ho]; exact ⟨rfl, rfl, rfl⟩
      · rw [h, hn]; exact ⟨rfl, rfl, rfl⟩
    all_goals rw [h]; exact ⟨rfl, rfl, rfl⟩

theorem hostWrite_outside (s : State) (addr : Nat) (width : Width) (data : BitVec 64) :
    (hostWrite s addr width data).params = s.params ∧ (hostWrite s addr width data).host = s.host
      ∧ (hostWrite s addr width data).turns = s.turns := by
  unfold hostWrite
  split
  · exact writeReg_outside s _ _
  · exact ⟨rfl, rfl, rfl⟩
  · exact ⟨rfl, rfl, rfl⟩

@[simp] theorem hostWrite_host (s : State) (addr : Nat) (width : Width) (data : BitVec 64) :
    (hostWrite s addr width data).host = s.host :=
  (hostWrite_outside s addr width data).2.1

/-- A kept value is read back under its name, and no other name is touched. -/
theorem value_keep (h : HostAgent) (name other : HostName) (v : Word) :
    (h.keep (some name) v).value other = if other = name then some v else h.value other := by
  simp only [HostAgent.keep, HostAgent.value]
  by_cases ho : other = name
  · subst ho
    simp
  · rw [if_neg ho, List.find?_cons_of_neg (by simpa using Ne.symm ho), List.find?_filter]
    congr 2
    funext x
    by_cases hx : x.1 = other
    · simp [hx, ho]
    · simp [hx]

/-- A branch's condition: its field, as a number, is the value it is compared with, or is not (R110). -/
theorem condHolds_iff (c : HostCond) (v : Word) : condHolds c v = true ↔
    (v.toNat / 2 ^ c.lo % 2 ^ (c.hi + 1 - c.lo) = c.value.toNat ↔ c.equal = true) := by
  rw [condHolds, BitVec.extractLsb'_toNat, Nat.shiftRight_eq_div_pow, beq_iff_eq, Bool.eq_iff_iff, decide_eq_true_iff]

/-- A jump goes to the first line that carries its label (log 12). -/
theorem goto_eq {h : HostAgent} {target : HostLabel} {k : Nat} {m : HostLine} (hk : h.script[k]? = some m)
    (hm : m.label = some target) (hfirst : ∀ j n, j < k → h.script[j]? = some n → n.label ≠ some target) :
    h.goto target = { h with line := k } := by
  obtain ⟨hlt, rfl⟩ := List.getElem?_eq_some_iff.mp hk
  have hidx : (h.script.findIdx fun l => l.label == some target) = k := by
    refine (List.findIdx_eq hlt).mpr ⟨beq_iff_eq.mpr hm, fun j hj => beq_eq_false_iff_ne.mpr ?_⟩
    exact hfirst j _ hj (List.getElem?_eq_getElem (hj.trans hlt))
  rw [HostAgent.goto, hidx]

theorem runHostLine_ifGoto {s : State} {c : HostCond} {v : Word} (hv : s.host.value c.name = some v)
    (target : HostLabel) : runHostLine s (.ifGoto c target) =
      { s with host := if condHolds c v = true then s.host.goto target else s.host.nextLine } := by
  simp only [runHostLine, hostValue, hv]

/-- Settles O7: the step is the line; the line by its kind, and a branch by its condition. -/
theorem stepRunsOneHostLine : Obligations.StepRunsOneHostLine := by
  intro s l hl
  refine ⟨fun rest hturns => ?turn, fun hturns hidle => ?default, fun addr width data hop => ?write,
    fun addr width hop => ?read, fun addr width name hop => ?named, fun c target v hop hv => ?branch⟩
  case turn => exact (step_of_host_turn hturns).trans (congrArg _ (hostStep_of_line hl))
  case default => rw [step_of_no_turns_idle hturns hidle, hostStep_of_line hl]
  case write => simp only [hop, runHostLine, hostWrite_host, HostAgent.nextLine]
  case read => simp only [hop, runHostLine, hostRead_host, HostAgent.keep, HostAgent.nextLine]
  case named =>
    refine ⟨(s.host.keep (some name) (hostRead s addr width).1).nextLine, ?_, rfl, rfl, ?_, fun other hother => ?_⟩
    · simp only [hop, runHostLine, hostRead_host]
    · exact (value_keep ..).trans (if_pos rfl)
    · exact (value_keep ..).trans (if_neg hother)
  case branch =>
    rw [hop, runHostLine_ifGoto hv]
    refine ⟨fun hholds k m hk hm hfirst => ?_, fun hnot => ?_⟩
    · rw [if_pos ((condHolds_iff c v).mpr hholds), goto_eq hk hm hfirst]
    · rw [if_neg (mt (condHolds_iff c v).mp hnot), HostAgent.nextLine]

/-! No state stops the machine (R264) -/

theorem completionStep_next (s : State) : ∃ t, completionStep s = .next t := by
  cases hdec : decode s.regs.pend with
  | ok i =>
    rw [completionStep_of_decode_ok hdec]
    exact exec_next i s
  | error e => exact ⟨_, completionStep_of_decode_error hdec⟩

theorem takeTurn_next (turn : Turn) (s : State) : ∃ t, takeTurn turn s = .next t := by
  cases turn with
  | host => exact ⟨_, rfl⟩
  | resetInput => exact ⟨_, rfl⟩
  | engine =>
    cases hbusy : s.regs.busy with
    | true =>
      rw [takeTurn_engine_of_busy hbusy]
      exact completionStep_next s
    | false => exact ⟨s, takeTurn_engine_of_idle hbusy⟩

/-- Settles O10: each agent's turn has a next state. -/
theorem stepNeverStops : Obligations.StepNeverStops := fun _ => takeTurn_next _ _

/-! A pending command ends (R32, R300) -/

/-- What a branch looks at costs at most one free value. -/
theorem hostValue_state (s : State) (name : HostName) : ∃ n, (hostValue s name).2 = { s with draws := n } := by
  unfold hostValue
  split
  · exact ⟨s.draws, rfl⟩
  · exact ⟨s.draws + 1, rfl⟩

@[simp] theorem runHostLine_turns (s : State) (op : HostOp) : (runHostLine s op).turns = s.turns := by
  cases op with
  | rd addr width dst =>
    obtain ⟨a, i, n, h⟩ := hostRead_state s addr width
    simp only [runHostLine, h]
  | wr addr width data => exact (hostWrite_outside s addr width data).2.2
  | ifGoto c target =>
    obtain ⟨n, h⟩ := hostValue_state s c.name
    simp only [runHostLine, h]

@[simp] theorem hostStep_turns (s : State) : (hostStep s).turns = s.turns := by
  obtain ⟨-, h⟩ | ⟨l, -, h⟩ := hostStep_cases s
  · rw [h]
  · rw [h, runHostLine_turns]

theorem exec_idle {i : Instr} {s t : State} (h : exec i s = .next t) : t.regs.busy = false := by
  obtain ⟨e, rfl⟩ | ⟨u, -, rfl⟩ := exec_cases h <;> rfl

theorem exec_turns {i : Instr} {s t : State} (h : exec i s = .next t) : t.turns = s.turns := by
  obtain ⟨-, -, -, -, -, -, -, -, -, -, hturns, -⟩ := exec_keepsAllBut h
  exact hturns

/-- A step uses up one turn; with none left, the engine of a busy state completes. -/
theorem step_turns {s t : State} (h : step s = .next t) : t.turns = s.turns.tail := by
  obtain ⟨-, rfl⟩ | ⟨-, -, ⟨i, -, hexec⟩ | ⟨e, -, rfl⟩⟩ | ⟨-, -, rfl⟩ | ⟨-, rfl⟩ := step_cases h
  · rw [hostStep_turns, nextTurn_turns]
  · rw [exec_turns hexec, nextTurn_turns]
  · rw [finish_turns, nextTurn_turns]
  · rw [nextTurn_turns]
  · rw [engineReset_turns, nextTurn_turns]

theorem step_completes {s t : State} (hturns : s.turns = []) (hbusy : s.regs.busy = true) (h : step s = .next t) :
    t.regs.busy = false := by
  rw [step_of_no_turns_busy hturns hbusy] at h
  cases hdec : decode s.regs.pend with
  | ok i =>
    rw [completionStep_of_decode_ok hdec] at h
    exact exec_idle h
  | error e =>
    rw [completionStep_of_decode_error hdec, Host.Outcome.next.injEq] at h
    rw [← h, finish_busy]

theorem core_run_succ {k : Nat} {s t : State} (h : step s = .next t) : core.run (k + 1) s = core.run k t := by
  have hstep : core.step s = .next t := h
  simp only [Host.Core.run, hstep]

/-- Settles O13: by induction on the turns listed; when none is left, the next step is the engine's. -/
theorem pendingCommandCompletes : Obligations.PendingCommandCompletes := by
  intro s
  generalize hturns : s.turns = turns
  induction turns generalizing s with
  | nil =>
    cases hbusy : s.regs.busy with
    | false => exact ⟨0, s, by simp, rfl, hbusy⟩
    | true =>
      obtain ⟨t, hstep⟩ := stepNeverStops s
      exact ⟨1, t, le_rfl, core_run_succ hstep, step_completes hturns hbusy hstep⟩
  | cons turn rest ih =>
    obtain ⟨t, hstep⟩ := stepNeverStops s
    obtain ⟨k, u, hk, hrun, hidle⟩ := ih t (by rw [step_turns hstep, hturns, List.tail_cons])
    exact ⟨k + 1, u, by simpa using hk, (core_run_succ hstep).trans hrun, hidle⟩

end Sys2Proof.Machine

/-! PROOFS. The machine's invariant (R7, R33, R37, R39, R45): every command's writes keep the objects within their
bounds, and every step of an agent keeps the whole of it. -/

namespace Sys2Proof.Machine

/-! `C` (R39) -/

theorem indexWords_indexNats (p : List Word) : indexWords (indexNats p) = p := by
  simp [indexWords, indexNats, Function.comp_def]

/-- The invariant of `C`: it holds a subset and its sentinel. -/
theorem comb_wf_iff {p : Params} {c : Comb} (hcap : p.nMax ≤ 65535) :
    c.wf p ↔ c.w ≤ c.n ∧ c.n ≤ p.nMax ∧ ∃ x, IsSubset c.n c.w x ∧ c.state = combState c.n x := by
  constructor
  · rintro ⟨hwn, hn, hlen, hsorted, hmem, hlast⟩
    refine ⟨hwn, hn, indexNats (c.state.take c.w), ⟨by simp [hlen], hsorted, hmem⟩, ?_⟩
    have hw : c.w < c.state.length := by omega
    rw [List.getD_eq_getElem _ _ hw] at hlast
    rw [combState, indexWords, List.map_append, ← indexWords, indexWords_indexNats, List.map_singleton, ← hlast,
      List.take_concat_get', List.take_of_length_le hlen.le]
  · rintro ⟨hwn, hn, x, ⟨hlen, hsorted, hmem⟩, hstate⟩
    have htake : indexNats (c.state.take c.w) = x := by
      rw [hstate, ← hlen, combState_take hmem (hn.trans hcap)]
    refine ⟨hwn, hn, by rw [hstate, combState_length, hlen], by rwa [htake], by rwa [htake], ?_⟩
    rw [hstate, ← hlen, combState_getD_sentinel]

theorem isSubset_of_nextSubset {n w : Nat} {x y : List Nat} (hx : IsSubset n w x) (hy : nextSubset n x = some y) :
    IsSubset n w y := by
  obtain ⟨i, hi⟩ := List.mem_iff_getElem?.mp (mem_subsetsFrom_zero_iff.mpr hx)
  exact mem_subsetsFrom_zero_iff.mp (List.mem_of_getElem? ((nextSubset_subsetsFrom hi).symm.trans hy))

theorem initialCombination_wf {p : Params} {w n : Nat} (hcap : p.nMax ≤ 65535) (hwn : w ≤ n) (hn : n ≤ p.nMax) :
    Comb.wf p { w := w, n := n, state := initialCombination w n } := by
  refine (comb_wf_iff hcap).mpr ⟨hwn, hn, List.range w, ⟨List.length_range, List.pairwise_lt_range, fun i hi => ?_⟩,
    rfl⟩
  exact (List.mem_range.mp hi).trans_le hwn

theorem advance_wf {p : Params} {c : Comb} {st : List Word} (hcap : p.nMax ≤ 65535) (hc : c.wf p)
    (hst : advance c.w c.state = some st) : Comb.wf p { c with state := st } := by
  obtain ⟨hwn, hn, x, hx, hstate⟩ := (comb_wf_iff hcap).mp hc
  have ⟨hlen, _, hmem⟩ := hx
  have hadvance := advance_combState hmem (hn.trans hcap)
  rw [hlen, ← hstate, hst] at hadvance
  obtain ⟨y, hy, rfl⟩ := Option.map_eq_some_iff.mp hadvance.symm
  exact (comb_wf_iff hcap).mpr ⟨hwn, hn, y, isSubset_of_nextSubset hx hy, rfl⟩

/-! The matrices and the answer of `DECODE` (R37) -/

theorem gauss_wf {p : Params} {m : Matrix} (h : m.wf p) : (gauss m).1.wf p := by
  obtain ⟨hrows, hcols, hlen⟩ := h
  obtain ⟨hgcols, hgrows, hglen, -, -⟩ := gauss_shape hlen
  exact ⟨hgrows.trans_le hrows, hcols, hglen⟩

theorem permuteColumns_wf {p : Params} {m : Matrix} (h : m.wf p) (perm : List Nat) : (permuteColumns m perm).wf p := by
  obtain ⟨hrows, hcols, hlen⟩ := h
  exact ⟨(permuteColumns_rowCount m perm).trans_le hrows, hcols, permuteColumns_row_lengths hlen perm⟩

section
variable {x : List F64} {g : Matrix} (hnan : ∀ a ∈ x, isNaN a = false)
  (hg : ∀ row ∈ g.rows, row.length = g.cols)
include hg

theorem reliabilityElimination_rows : ∀ row ∈ (reliabilityElimination x g).1.rows, row.length = g.cols :=
  (gauss_shape (permuteColumns_row_lengths hg _)).2.2.1

include hnan

theorem bestCandidate_length (wMax : Nat) : (bestCandidate x g wMax).1.length = g.cols := by
  obtain ⟨p, -, hp⟩ := exists_search_eq (g := (reliabilityElimination x g).1)
    (info := (reliabilityElimination x g).2.map fun c =>
      (applyPerm (invert (reliabilityOrder (reliabilities x))) (hardDecisions x)).getD c false)
    (alpha := applyPerm (invert (reliabilityOrder (reliabilities x))) (hardDecisions x))
    (nonNegative_of_mem_applyPerm hnan (invert (reliabilityOrder (reliabilities x)))) wMax
  rw [bestCandidate, hp]
  exact multiply_length (reliabilityElimination_rows hg)

theorem decodeAnswer_length (wMax : Nat) : (decodeAnswer x g wMax).1.length = g.cols := by
  rw [decodeAnswer, applyPerm_length, bestCandidate_length hnan hg]

end

/-! The commands -/

/-- What a command writes keeps every object within its bounds. -/
theorem writes_store_wf {i : Instr} {s u : State} (hp : s.params.wf) (hs : s.store.wf s.params) (h : Writes s i u) :
    u.store.wf s.params := by
  obtain ⟨-, hcap, -, hkn, -⟩ := hp
  obtain ⟨hv, hss, hpp, hm, hc, hb⟩ := hs
  have hstore : s.store.wf s.params := ⟨hv, hss, hpp, hm, hc, hb⟩
  cases h with
  | vadd fd fa fb => exact setV_wf hstore (by rw [addBits_length]; exact (min_le_left _ _).trans (hv fa))
  | veq fa fb => exact hstore
  | vparse fd => exact setV_wf hstore (by rwa [List.length_map])
  | vmul fd fa fb =>
    obtain ⟨-, hcols, hlen⟩ := hm fb
    exact setV_wf hstore (by rwa [multiply_length hlen])
  | gauss fd fa fb =>
    obtain ⟨hrows, -, hlen⟩ := hm fa
    obtain ⟨-, -, -, hpivots, -⟩ := gauss_shape hlen
    refine setP_wf (setM_wf hstore (gauss_wf (hm fa))) ?_
    rw [indexWords_length]
    exact hpivots.trans (hrows.trans hkn)
  | pinv fd fa => exact setP_wf hstore (by simpa using hpp fa)
  | papplyV d fa q => exact setV_wf hstore (by rw [applyPerm_length]; exact hv q)
  | papplyS d fa q => exact setS_wf hstore (by rw [applyPerm_length]; exact hss q)
  | papplyP d fa q => exact setP_wf hstore (by rw [applyPerm_length]; exact hpp q)
  | pcolsEmpty fd fa fb => exact setM_wf hstore (hm fa)
  | pcols fd fa fb => exact setM_wf hstore (permuteColumns_wf (hm fa) _)
  | cinit hn hw => exact setC_wf hstore (initialCombination_wf hcap hw hn)
  | cadvLast => exact hstore
  | cadv hst => exact setC_wf hstore (advance_wf hcap hc hst)
  | decode fd fa fb hd =>
    obtain ⟨-, hcols, hlen⟩ := hm fb
    exact setV_wf hstore (by rwa [decodeAnswer_length hd.noNaN hlen])

/-- A completed command or an error leaves the engine idle, so of the invariant only the objects count. -/
theorem finish_wf {s : State} (hp : s.params.wf) (hs : s.store.wf s.params) (e : ErrCode) : (s.finish e).wf :=
  ⟨hp, hs, nofun⟩

theorem exec_wf {i : Instr} {s t : State} (hs : s.wf) (h : exec i s = .next t) : t.wf ∧ t.params = s.params := by
  obtain ⟨hp, hstore, -⟩ := hs
  obtain ⟨e, rfl⟩ | ⟨u, hu, rfl⟩ := exec_cases h
  · exact ⟨finish_wf hp hstore e, rfl⟩
  · obtain ⟨-, -, -, -, -, -, -, -, hparams, -⟩ := writes_keepsAllBut hu
    refine ⟨finish_wf (hparams ▸ hp) ?_ .ok, hparams⟩
    rw [hparams]
    exact writes_store_wf hp hstore hu

/-! The host -/

/-- The invariant says nothing of the fields it does not name. -/
theorem wf_of_same {s t : State} (hs : s.wf) (hparams : t.params = s.params) (hstore : t.store = s.store)
    (hbusy : t.regs.busy = s.regs.busy) (herr : t.regs.err = s.regs.err) : t.wf := by
  obtain ⟨hp, hst, hb⟩ := hs
  refine ⟨hparams ▸ hp, ?_, ?_⟩
  · rw [hstore, hparams]
    exact hst
  · rw [hbusy, herr]
    exact hb

theorem engineReset_wf {s : State} (hs : s.wf) : s.engineReset.wf :=
  ⟨hs.1, store_reset_wf _, nofun⟩

theorem hostRead_wf {s : State} (hs : s.wf) (addr : Nat) (width : Width) : (hostRead s addr width).2.wf := by
  obtain ⟨a, i, n, h⟩ := hostRead_state s addr width
  rw [h]
  exact wf_of_same hs rfl rfl rfl rfl

theorem writeAccData_wf {s : State} (hs : s.wf) (data : Word) : (writeAccData s data).wf := by
  obtain ⟨o, ho, h⟩ | ⟨-, h⟩ := writeAccData_cases s data
  · obtain ⟨hp, hst, hb⟩ := hs
    rw [h]
    exact ⟨hp, portWrite_wf hst ho, hb⟩
  · rw [h]
    exact wf_of_same hs rfl rfl rfl rfl

theorem writeReg_wf {s : State} (hs : s.wf) (r : Reg) (data : Word) : (writeReg s r data).wf := by
  by_cases hr : r = .ctrl
  · subst hr
    rw [writeReg_ctrl]
    obtain ⟨-, h⟩ | ⟨-, h⟩ := writeCtrl_cases s data
    · rw [h]
      exact engineReset_wf hs
    · rw [h]
      exact wf_of_same hs rfl rfl rfl rfl
  · obtain h | ⟨-, h | h | h | h | h | h⟩ := writeReg_cases s r data hr
    case inr.inl => rw [h]; exact ⟨hs.1, hs.2.1, fun _ => rfl⟩
    case inr.inr.inr.inr.inr.inr => rw [h]; exact writeAccData_wf hs data
    all_goals rw [h]; exact wf_of_same hs rfl rfl rfl rfl

theorem hostWrite_wf {s : State} (hs : s.wf) (addr : Nat) (width : Width) (data : BitVec 64) :
    (hostWrite s addr width data).wf := by
  unfold hostWrite
  split
  · exact writeReg_wf hs _ _
  · exact wf_of_same hs rfl rfl rfl rfl
  · exact hs

theorem runHostLine_wf {s : State} (hs : s.wf) (op : HostOp) : (runHostLine s op).wf := by
  cases op with
  | rd addr width dst => exact wf_of_same (hostRead_wf hs addr width) rfl rfl rfl rfl
  | wr addr width data => exact wf_of_same (hostWrite_wf hs addr width data) rfl rfl rfl rfl
  | ifGoto c target =>
    obtain ⟨n, h⟩ := hostValue_state s c.name
    simp only [runHostLine, h]
    exact wf_of_same hs rfl rfl rfl rfl

theorem runHostLine_params (s : State) (op : HostOp) : (runHostLine s op).params = s.params := by
  cases op with
  | rd addr width dst =>
    obtain ⟨a, i, n, h⟩ := hostRead_state s addr width
    simp only [runHostLine, h]
  | wr addr width data => exact (hostWrite_outside s addr width data).1
  | ifGoto c target =>
    obtain ⟨n, h⟩ := hostValue_state s c.name
    simp only [runHostLine, h]

theorem hostStep_wf {s : State} (hs : s.wf) : (hostStep s).wf ∧ (hostStep s).params = s.params := by
  obtain ⟨-, h⟩ | ⟨l, -, h⟩ := hostStep_cases s
  · rw [h]
    exact ⟨hs, rfl⟩
  · rw [h]
    exact ⟨runHostLine_wf hs l.op, runHostLine_params s l.op⟩

/-! The step -/

theorem nextTurn_wf {s : State} (hs : s.wf) : (nextTurn s).2.wf :=
  wf_of_same hs (nextTurn_params s) (nextTurn_store s) (by rw [nextTurn_regs]) (by rw [nextTurn_regs])

/-- Settles O11: one agent's turn after the other keeps the invariant, and none touches the parameters. -/
theorem stepKeepsInvariant : Obligations.StepKeepsInvariant := by
  intro s t hs hstep
  have hturn := nextTurn_wf hs
  rw [← nextTurn_params s]
  obtain ⟨-, rfl⟩ | ⟨-, -, ⟨i, -, hexec⟩ | ⟨e, -, rfl⟩⟩ | ⟨-, -, rfl⟩ | ⟨-, rfl⟩ := step_cases hstep
  · exact hostStep_wf hturn
  · exact exec_wf hturn hexec
  · exact ⟨finish_wf hturn.1 hturn.2.1 _, rfl⟩
  · exact ⟨hturn, rfl⟩
  · exact ⟨engineReset_wf hturn, rfl⟩

/-- The unknown parameters are wrapped into their legal ranges (log 2). -/
theorem config_params_wf : Config.params.wf := by
  simp only [Params.wf, Config.params]
  have hk := Nat.mod_lt Config.kMaxChoice (show 0 < Config.nMaxChoice % 65535 + 1 by omega)
  omega

/-- Settles O12: the parameters are legal as the model takes them, and the objects are empty. -/
theorem resetMeetsInvariant : Obligations.ResetMeetsInvariant :=
  ⟨config_params_wf, store_reset_wf _, nofun⟩

end Sys2Proof.Machine

/-! PROOFS. The host's registers and its accesses (10_state.md R41–R52, 20_memory.md R70–R74, R86): the two registers
put together from fields, what a pending command is safe from, and which register an address reaches. -/

namespace Sys2Proof.Machine

/-! Words put together from fields (R45, R50) -/

theorem append_toNat {m n : Nat} (a : BitVec m) (b : BitVec n) : (a ++ b).toNat = a.toNat * 2 ^ n + b.toNat := by
  rw [BitVec.toNat_append, ← Nat.shiftLeft_add_eq_or_of_lt b.isLt, Nat.shiftLeft_eq]

theorem status_toNat_div (r : Regs) : r.status.toNat / 2 ^ 8 = r.err.code.toNat := by
  have haerr := r.aerr.toNat_lt
  have hres := r.res.toNat_lt
  have hbusy := r.busy.toNat_lt
  simp only [Regs.status, append_toNat, BitVec.toNat_ofBool, BitVec.toNat_ofNat]
  omega

theorem status_getLsbD (r : Regs) (i : Nat) : r.status.getLsbD i =
    if i = 0 then r.busy else if i = 1 then r.res else if i = 2 then r.aerr else
      (decide (8 ≤ i) && r.err.code.getLsbD (i - 8)) := by
  simp only [Regs.status, BitVec.getLsbD_append, BitVec.getLsbD_ofBool, BitVec.getLsbD_zero]
  grind

/-- Settles O47: each bit by the field it falls into; `ERR` is what is left above bit 8. -/
theorem statusWordLayout : Obligations.StatusWordLayout := by
  intro r
  have hbits := status_getLsbD r
  have hupper : ∀ i, 3 ≤ i → r.status.getLsbD i = (decide (8 ≤ i) && r.err.code.getLsbD (i - 8)) := by
    intro i hi
    rw [hbits, if_neg (by omega), if_neg (by omega), if_neg (by omega)]
  refine ⟨hbits 0, hbits 1, hbits 2, fun i h3 h7 => ?reserved, fun i h12 => ?above, status_toNat_div r, ?codes⟩
  case reserved => rw [hupper i h3, decide_eq_false (by omega), Bool.false_and]
  case above => rw [hupper i (by omega), BitVec.getLsbD_of_ge _ _ (by omega), Bool.and_false]
  case codes => cases r.err <;> rfl

/-- R50: `ACC_SEL` keeps bit 8 and bits [4:0] of what is written. -/
theorem accSel_of_fields (r : Regs) (data : Word) :
    ({ r with accObj := data.extractLsb' 0 5, accPart := data.getLsbD 8 } : Regs).accSel = data &&& 0x11F#32 := by
  apply BitVec.eq_of_getLsbD_eq
  intro i hi
  simp only [Regs.accSel, BitVec.getLsbD_append, BitVec.getLsbD_and]
  interval_cases i <;> simp

section
variable {s : State} (hidle : s.regs.busy = false) (data : Word)
include hidle

theorem writeReg_arg0_of_idle : writeReg s .arg0 data = { s with regs := { s.regs with arg0 := data } } := by
  simp [writeReg, hidle]

theorem writeReg_arg1_of_idle : writeReg s .arg1 data = { s with regs := { s.regs with arg1 := data } } := by
  simp [writeReg, hidle]

theorem writeReg_accIdx_of_idle : writeReg s .accIdx data = { s with regs := { s.regs with accIdx := data } } := by
  simp [writeReg, hidle]

theorem writeReg_accSel_of_idle : writeReg s .accSel data =
    { s with regs := { s.regs with accObj := data.extractLsb' 0 5, accPart := data.getLsbD 8 } } := by
  simp [writeReg, hidle]

end

/-- Settles O53: the idle write of each of the four registers, then its read. -/
theorem idleRegisterWritesReadBack : Obligations.IdleRegisterWritesReadBack := by
  intro s data hidle
  refine ⟨?_, ?_, ?_, ?_, _, _, writeReg_accSel_of_idle hidle data⟩
  · rw [writeReg_arg0_of_idle hidle, readReg_arg0]
  · rw [writeReg_arg1_of_idle hidle, readReg_arg1]
  · rw [writeReg_accIdx_of_idle hidle, readReg_accIdx]
  · rw [writeReg_accSel_of_idle hidle, readReg_accSel]
    exact accSel_of_fields s.regs data

/-! A pending command and the host (R86, R298) -/

/-- The engine of `t` is that of `s`, but for `AERR`. -/
def EngineUndisturbed (s t : State) : Prop := t.store = s.store ∧ ∃ a, t.regs = { s.regs with aerr := a }

/-- The engine of `t` is as it is after a reset (R290). -/
def EngineIsReset (t : State) : Prop := t.store = ObjectStore.reset ∧ t.regs = Regs.reset

section
variable {s : State} (hbusy : s.regs.busy = true)
include hbusy

theorem readReg_of_busy (r : Reg) : EngineUndisturbed s (readReg s r).2 := by
  cases r with
  | metricLo => rw [readReg_metricLo_of_busy hbusy]; exact ⟨rfl, _, rfl⟩
  | metricHi => rw [readReg_metricHi_of_busy hbusy]; exact ⟨rfl, _, rfl⟩
  | accData => rw [readReg_accData_of_busy hbusy]; exact ⟨rfl, _, rfl⟩
  | _ => exact ⟨rfl, _, rfl⟩

theorem hostRead_of_busy (addr : Nat) (width : Width) : EngineUndisturbed s (hostRead s addr width).2 := by
  unfold hostRead
  split
  · exact readReg_of_busy hbusy _
  · exact ⟨rfl, _, rfl⟩
  · exact ⟨rfl, _, rfl⟩

theorem writeReg_of_busy_cases (r : Reg) (data : Word) :
    EngineIsReset (writeReg s r data) ∨ EngineUndisturbed s (writeReg s r data) := by
  by_cases hr : r = .ctrl
  · subst hr
    rw [writeReg_ctrl]
    obtain ⟨-, h⟩ | ⟨-, h⟩ := writeCtrl_cases s data
    · rw [h]
      exact .inl ⟨rfl, rfl⟩
    · rw [h]
      exact .inr ⟨rfl, _, rfl⟩
  · rw [writeReg_of_busy hbusy hr]
    exact .inr ⟨rfl, _, rfl⟩

theorem hostWrite_of_busy (addr : Nat) (width : Width) (data : BitVec 64) :
    EngineIsReset (hostWrite s addr width data) ∨ EngineUndisturbed s (hostWrite s addr width data) := by
  unfold hostWrite
  split
  · exact writeReg_of_busy_cases hbusy _ _
  · exact .inr ⟨rfl, _, rfl⟩
  · exact .inr ⟨rfl, _, rfl⟩

theorem hostStep_of_busy : EngineIsReset (hostStep s) ∨ EngineUndisturbed s (hostStep s) := by
  obtain ⟨-, h⟩ | ⟨l, -, h⟩ := hostStep_cases s
  · rw [h]
    exact .inr ⟨rfl, _, rfl⟩
  · rw [h]
    cases l.op with
    | rd addr width dst => exact .inr (hostRead_of_busy hbusy addr width)
    | wr addr width data => exact hostWrite_of_busy hbusy addr width data
    | ifGoto c target =>
      obtain ⟨n, hn⟩ := hostValue_state s c.name
      simp only [runHostLine, hn]
      exact .inr ⟨rfl, _, rfl⟩

end

/-- Settles O52: a host step of a busy engine resets it, or changes at most `AERR`. -/
theorem hostCannotDisturbPendingCommand : Obligations.HostCannotDisturbPendingCommand := by
  intro s hbusy
  obtain hreset | ⟨hstore, a, hregs⟩ := hostStep_of_busy hbusy
  · exact .inl hreset
  · rw [hstore, hregs]
    exact .inr ⟨rfl, hbusy, rfl, rfl, rfl, rfl, rfl, rfl, rfl, rfl, rfl⟩

/-! Which register an address reaches (R41, R70, R72) -/

theorem ofOffset_offset (r : Reg) : Reg.ofOffset r.offset = some r := by cases r <;> rfl

theorem offset_lt (r : Reg) : r.offset < 64 ∧ r.offset % 4 = 0 := by cases r <;> decide

theorem ofOffset_of_misaligned {off : Nat} (h : off % 4 ≠ 0) : Reg.ofOffset off = none := by
  refine List.find?_eq_none.mpr fun r _ hr => h ?_
  rw [← beq_iff_eq.mp hr, (offset_lt r).2]

section
variable {p : Params} {addr : Nat} {w : Width}

theorem accessTarget_of_reg (p : Params) (r : Reg) : accessTarget p (p.base + r.offset) .w32 = .reg r := by
  have hlt := (offset_lt r).1
  have htouches : ¬ (p.base + r.offset + Width.w32.bytes ≤ p.base ∨ p.base + 64 ≤ p.base + r.offset) := by
    simp only [Width.bytes]
    omega
  rw [accessTarget, if_neg htouches, if_pos ⟨rfl, Nat.le_add_right _ _⟩, Nat.add_sub_cancel_left, ofOffset_offset]

theorem accessTarget_of_outside (h : addr + w.bytes ≤ p.base ∨ p.base + 64 ≤ addr) :
    accessTarget p addr w = .outside :=
  if_pos h

theorem accessTarget_of_malformed (hbase : p.base % 64 = 0) (hlow : p.base < addr + w.bytes)
    (hhigh : addr < p.base + 64) (hbad : w ≠ .w32 ∨ addr % 4 ≠ 0) : accessTarget p addr w = .malformed := by
  rw [accessTarget, if_neg (by omega)]
  by_cases hw : w = .w32 ∧ p.base ≤ addr
  · obtain ⟨hw, hle⟩ := hw
    have hmis := hbad.resolve_left (not_not_intro hw)
    rw [if_pos ⟨hw, hle⟩, ofOffset_of_misaligned (by omega)]
  · rw [if_neg hw]

end

/-- Settles O54: the target of the access, case by case. -/
theorem accessesReachTheirTarget : Obligations.AccessesReachTheirTarget := by
  intro s addr w data hbase
  refine ⟨fun r => ?register, fun hlow hhigh hbad => ?malformed, fun hout => ?outside⟩
  case register =>
    have hdata : data.extractLsb' 0 32 = data.setWidth 32 :=
      (BitVec.setWidth_eq_extractLsb' (by omega)).symm
    simp only [hostRead, hostWrite, accessTarget_of_reg, hdata, and_self]
  case malformed =>
    simp only [hostRead, hostWrite, accessTarget_of_malformed hbase hlow hhigh hbad]
    exact ⟨rfl, rfl⟩
  case outside =>
    simp only [hostRead, hostWrite, accessTarget_of_outside hout]
    exact ⟨trivial, rfl⟩

end Sys2Proof.Machine

/-! PROOFS. The access port's data words (20_memory.md R71, R76–R81): that a word written reads back, and that a write
changes nothing else. -/

namespace Sys2Proof.Machine

/-! Packed words after a write (R77, R79) -/

/-- R77: the word stored, without the bits beyond the end of the sequence. -/
theorem packBits_unpackBits_getLsbD {x : List Bool} {word j : Nat} (hj : j < 32) (data : Word) :
    (packBits (unpackBits x word data) word).getLsbD j = (data.getLsbD j && decide (32 * word + j < x.length)) := by
  rw [packBits_getLsbD, decide_eq_true hj, Bool.true_and]
  by_cases he : 32 * word + j < x.length
  · rw [unpackBits_getD_inside hj he, decide_eq_true he, Bool.and_true]
  · rw [List.getD_eq_default _ _ (by rw [unpackBits_length]; omega), decide_eq_false he, Bool.and_false]

theorem packBits_unpackBits_other {word other : Nat} (h : other ≠ word) (x : List Bool) (data : Word) :
    packBits (unpackBits x word data) other = packBits x other := by
  apply BitVec.eq_of_getLsbD_eq
  intro j hj
  rw [packBits_getLsbD, packBits_getLsbD, unpackBits_getD_outside (by omega)]

theorem getLsbD_eq_byte (w : Word) (j : Nat) :
    w.getLsbD j = (w.extractLsb' (8 * (j / 8)) 8).getLsbD (j % 8) := by
  rw [BitVec.getLsbD_extractLsb', decide_eq_true (Nat.mod_lt j (by omega)), Bool.true_and, Nat.div_add_mod]

/-- R79: the word stored, without the bytes beyond the end of the buffer. -/
theorem packBytes_unpackBytes_getLsbD {x : List Byte} {word j : Nat} (hj : j < 32) (data : Word) :
    (packBytes (unpackBytes x word data) word).getLsbD j =
      (data.getLsbD j && decide (4 * word + j / 8 < x.length)) := by
  rw [getLsbD_eq_byte, packBytes_extract _ _ _ (by omega)]
  by_cases he : 4 * word + j / 8 < x.length
  · rw [unpackBytes_getD_inside (by omega) he, ← getLsbD_eq_byte, decide_eq_true he, Bool.and_true]
  · rw [List.getD_eq_default _ _ (by rw [unpackBytes_length]; omega), decide_eq_false he, Bool.and_false]
    exact BitVec.getLsbD_zero

theorem packBytes_unpackBytes_other {word other : Nat} (h : other ≠ word) (x : List Byte) (data : Word) :
    packBytes (unpackBytes x word data) other = packBytes x other := by
  apply BitVec.eq_of_getLsbD_eq
  intro j hj
  rw [getLsbD_eq_byte, packBytes_extract _ _ _ (by omega), unpackBytes_getD_outside (by omega),
    ← packBytes_extract _ _ _ (by omega), ← getLsbD_eq_byte]

/-- R79: a half stored is read back, and the other half is as before. -/
theorem f64Half_setF64Half (x : F64) {h : Nat} (hh : h < 2) (data : Word) :
    f64Half (setF64Half x h data) h = data := by
  obtain ⟨hlow, hhigh⟩ := setF64Half_halves x h data
  obtain rfl | rfl : h = 0 ∨ h = 1 := by omega
  · exact hlow
  · exact hhigh

theorem f64Half_setF64Half_other (x : F64) {h other : Nat} (hh : h < 2) (ho : other < 2) (hne : other ≠ h)
    (data : Word) : f64Half (setF64Half x h data) other = f64Half x other := by
  obtain ⟨hlow, hhigh⟩ := setF64Half_halves x h data
  obtain ⟨rfl, rfl⟩ | ⟨rfl, rfl⟩ : h = 0 ∧ other = 1 ∨ h = 1 ∧ other = 0 := by omega
  · exact hhigh
  · exact hlow

/-- R78: the words of a matrix other than the one stored. -/
theorem packBits_storeWord_other {m : Matrix} {r c q e : Nat} (hr : r < m.rowCount) (h : q ≠ r ∨ e ≠ c) (data : Word) :
    packBits ((m.storeWord r c data).row q) e = packBits (m.row q) e := by
  by_cases hq : q = r
  · subst hq
    rw [storeWord_row_same _ _ _ _ hr, packBits_unpackBits_other (h.resolve_left (not_not_intro rfl))]
  · rw [storeWord_row_other _ _ _ _ hq]

/-- Settles O56: for each class the write's and the read's equation, then the word stored in the sequence it is read
from. -/
theorem portDataReadsBack : Obligations.PortDataReadsBack := by
  intro p o x data _ ⟨_, _, _, hm, _, _⟩
  refine ⟨fun i h => ?v, fun i hr hc => ?m, fun i h => ?s, fun i h => ?p, fun h => ?b⟩
  case v =>
    refine ⟨_, _, (portWrite_v_data ..).trans (if_pos h), ?_, fun j hj => packBits_unpackBits_getLsbD hj data⟩
    rw [portRead_v_data, vector_getElem_set_fin_self, unpackBits_length, if_pos h]
  case m =>
    refine ⟨_, packBits ((o.m[i].storeWord (x / p.wordsPerRow) (x % p.wordsPerRow) data).row (x / p.wordsPerRow))
      (x % p.wordsPerRow), (portWrite_m_data ..).trans (if_pos ⟨hr, hc⟩), ?_, fun j hj => ?_⟩
    · rw [portRead_m_data, vector_getElem_set_fin_self, storeWord_rowCount, storeWord_cols, if_pos ⟨hr, hc⟩]
    · rw [storeWord_row_same _ _ _ _ hr, packBits_unpackBits_getLsbD hj, row_length (hm i) hr]
  case s =>
    refine ⟨_, (portWrite_s_data ..).trans (congrArg (Option.map _) (List.getElem?_eq_getElem h)), ?_⟩
    rw [portRead_s_data, vector_getElem_set_fin_self, List.getElem?_set_self h, Option.map_some,
      f64Half_setF64Half _ (Nat.mod_lt x (by omega))]
  case p =>
    refine ⟨_, (portWrite_p_data ..).trans (if_pos h), ?_⟩
    rw [portRead_p_data, vector_getElem_set_fin_self, List.getElem?_set_self h]
  case b =>
    refine ⟨_, _, (portWrite_b_data ..).trans (if_pos h), ?_, fun j hj => packBytes_unpackBytes_getLsbD hj data⟩
    rw [portRead_b_data, unpackBytes_length, if_pos h]

/-! One object of the store replaced (R71) -/

section
variable (o : ObjectStore) {q : ObjRef}

theorem value_set_v {i : VId} (hq : q ≠ .v i) (x : List Bool) :
    ({ o with v := o.v.set i x } : ObjectStore).value q = o.value q :=
  (value_setV { State.reset with store := o } i x q).trans (if_neg hq)

theorem value_set_s {i : SId} (hq : q ≠ .s i) (x : List F64) :
    ({ o with s := o.s.set i x } : ObjectStore).value q = o.value q :=
  (value_setS { State.reset with store := o } i x q).trans (if_neg hq)

theorem value_set_p {i : PId} (hq : q ≠ .p i) (x : List Word) :
    ({ o with p := o.p.set i x } : ObjectStore).value q = o.value q :=
  (value_setP { State.reset with store := o } i x q).trans (if_neg hq)

theorem value_set_m {i : MId} (hq : q ≠ .m i) (x : Matrix) :
    ({ o with m := o.m.set i x } : ObjectStore).value q = o.value q :=
  (value_setM { State.reset with store := o } i x q).trans (if_neg hq)

theorem value_set_b (hq : q ≠ .b) (x : List Byte) : ({ o with b := x } : ObjectStore).value q = o.value q :=
  (value_setB { State.reset with store := o } x q).trans (if_neg hq)

end

theorem eq_of_ite_some {α : Type} {c : Prop} {_ : Decidable c} {a b : α} (h : (if c then some a else none) = some b) :
    c ∧ b = a := by
  obtain ⟨hc, hab⟩ := Option.ite_none_right_eq_some.mp h
  exact ⟨hc, (Option.some.inj hab).symm⟩

section
variable {p : Params} {o o' : ObjectStore} {r q : ObjRef} {x : Nat} {data : Word}

theorem portWrite_data_other (hw : portWrite p o r.id false x data = some o') (hq : q ≠ r) :
    o'.value q = o.value q := by
  cases r with
  | v i =>
    obtain ⟨-, rfl⟩ := eq_of_ite_some ((portWrite_v_data ..).symm.trans hw)
    exact value_set_v o hq _
  | s i =>
    obtain ⟨e, -, rfl⟩ := Option.map_eq_some_iff.mp ((portWrite_s_data ..).symm.trans hw)
    exact value_set_s o hq _
  | p i =>
    obtain ⟨-, rfl⟩ := eq_of_ite_some ((portWrite_p_data ..).symm.trans hw)
    exact value_set_p o hq _
  | m i =>
    obtain ⟨-, rfl⟩ := eq_of_ite_some ((portWrite_m_data ..).symm.trans hw)
    exact value_set_m o hq _
  | c => exact absurd ((portWrite_c ..).symm.trans hw) nofun
  | b =>
    obtain ⟨-, rfl⟩ := eq_of_ite_some ((portWrite_b_data ..).symm.trans hw)
    exact value_set_b o hq _

theorem portWrite_attr_other (hw : portWrite p o r.id true x data = some o') (hq : q ≠ r) :
    o'.value q = o.value q := by
  have hx : x < attrWords r := by
    by_contra hx
    exact absurd ((port_attr_refused (Nat.le_of_not_lt hx) p o data).2.symm.trans hw) nofun
  cases r with
  | v i =>
    obtain rfl : x = 0 := Nat.lt_one_iff.mp hx
    obtain ⟨-, rfl⟩ := eq_of_ite_some ((portWrite_v_attr ..).symm.trans hw)
    exact value_set_v o hq _
  | s i =>
    obtain rfl : x = 0 := Nat.lt_one_iff.mp hx
    obtain ⟨-, rfl⟩ := eq_of_ite_some ((portWrite_s_attr ..).symm.trans hw)
    exact value_set_s o hq _
  | p i =>
    obtain rfl : x = 0 := Nat.lt_one_iff.mp hx
    obtain ⟨-, rfl⟩ := eq_of_ite_some ((portWrite_p_attr ..).symm.trans hw)
    exact value_set_p o hq _
  | m i =>
    obtain rfl | rfl : x = 0 ∨ x = 1 := by simp only [attrWords] at hx; omega
    · obtain ⟨-, rfl⟩ := eq_of_ite_some ((portWrite_m_rows ..).symm.trans hw)
      exact value_set_m o hq _
    · obtain ⟨-, rfl⟩ := eq_of_ite_some ((portWrite_m_cols ..).symm.trans hw)
      exact value_set_m o hq _
  | c => exact absurd ((portWrite_c ..).symm.trans hw) nofun
  | b =>
    obtain rfl : x = 0 := Nat.lt_one_iff.mp hx
    obtain ⟨-, rfl⟩ := eq_of_ite_some ((portWrite_b_attr ..).symm.trans hw)
    exact value_set_b o hq _

/-! The other words of the object written (R77–R80) -/

theorem div_mod_ne {y n : Nat} (h : y ≠ x) : y / n ≠ x / n ∨ y % n ≠ x % n := by
  by_contra hsame
  simp only [not_or, not_not] at hsame
  exact h (by rw [← Nat.div_add_mod y n, ← Nat.div_add_mod x n, hsame.1, hsame.2])

theorem portRead_data_after_write {y : Nat} (hw : portWrite p o r.id false x data = some o') (hy : y ≠ x) :
    portRead p o' r.id false y = portRead p o r.id false y := by
  cases r with
  | v i =>
    obtain ⟨-, rfl⟩ := eq_of_ite_some ((portWrite_v_data ..).symm.trans hw)
    rw [portRead_v_data, portRead_v_data, vector_getElem_set_fin_self, unpackBits_length, packBits_unpackBits_other hy]
  | s i =>
    obtain ⟨e, he, rfl⟩ := Option.map_eq_some_iff.mp ((portWrite_s_data ..).symm.trans hw)
    rw [portRead_s_data, portRead_s_data, vector_getElem_set_fin_self]
    by_cases hhalf : y / 2 = x / 2
    · have hother := (div_mod_ne hy).resolve_left (not_not_intro hhalf)
      rw [hhalf, List.getElem?_set_self (List.getElem?_eq_some_iff.mp he).1, he, Option.map_some, Option.map_some,
        f64Half_setF64Half_other _ (Nat.mod_lt x (by omega)) (Nat.mod_lt y (by omega)) hother]
    · rw [List.getElem?_set_ne (Ne.symm hhalf)]
  | p i =>
    obtain ⟨-, rfl⟩ := eq_of_ite_some ((portWrite_p_data ..).symm.trans hw)
    rw [portRead_p_data, portRead_p_data, vector_getElem_set_fin_self, List.getElem?_set_ne hy.symm]
  | m i =>
    obtain ⟨⟨hr, -⟩, rfl⟩ := eq_of_ite_some ((portWrite_m_data ..).symm.trans hw)
    rw [portRead_m_data, portRead_m_data, vector_getElem_set_fin_self, storeWord_rowCount, storeWord_cols,
      packBits_storeWord_other hr (div_mod_ne hy)]
  | c => exact absurd ((portWrite_c ..).symm.trans hw) nofun
  | b =>
    obtain ⟨-, rfl⟩ := eq_of_ite_some ((portWrite_b_data ..).symm.trans hw)
    rw [portRead_b_data, portRead_b_data, unpackBytes_length, packBytes_unpackBytes_other hy]

theorem portRead_attr_after_write (hw : portWrite p o r.id false x data = some o') (y : Nat) :
    portRead p o' r.id true y = portRead p o r.id true y := by
  rw [portRead_attr, portRead_attr]
  cases r with
  | v i =>
    obtain ⟨-, rfl⟩ := eq_of_ite_some ((portWrite_v_data ..).symm.trans hw)
    simp only [ObjectStore.value, vector_getElem_set_fin_self]
    cases y <;> simp only [readAttr, unpackBits_length]
  | s i =>
    obtain ⟨e, -, rfl⟩ := Option.map_eq_some_iff.mp ((portWrite_s_data ..).symm.trans hw)
    simp only [ObjectStore.value, vector_getElem_set_fin_self]
    cases y <;> simp only [readAttr, List.length_set]
  | p i =>
    obtain ⟨-, rfl⟩ := eq_of_ite_some ((portWrite_p_data ..).symm.trans hw)
    simp only [ObjectStore.value, vector_getElem_set_fin_self]
    cases y <;> simp only [readAttr, List.length_set]
  | m i =>
    obtain ⟨-, rfl⟩ := eq_of_ite_some ((portWrite_m_data ..).symm.trans hw)
    simp only [ObjectStore.value, vector_getElem_set_fin_self]
    match y with
    | 0 => simp only [readAttr, storeWord_rowCount]
    | 1 => simp only [readAttr, storeWord_cols]
    | _ + 2 => rfl
  | c => exact absurd ((portWrite_c ..).symm.trans hw) nofun
  | b =>
    obtain ⟨-, rfl⟩ := eq_of_ite_some ((portWrite_b_data ..).symm.trans hw)
    cases y <;> simp only [ObjectStore.value, readAttr, unpackBytes_length]

end

/-- Settles O57: the object the id names is the only one replaced; its other words class by class. -/
theorem portWriteFrame : Obligations.PortWriteFrame := by
  intro p o o' id part x data hw
  obtain ⟨r, rfl⟩ : ∃ r : ObjRef, r.id = id := by
    cases hid : ObjRef.ofId id with
    | none => exact absurd hw (by simp [portWrite, hid])
    | some r => exact ⟨r, id_of_ofId hid⟩
  refine ⟨fun q hq => ?_, ?_, ?_⟩
  · have hne : q ≠ r := fun h => hq (congrArg ObjRef.id h)
    cases part with
    | false => exact portWrite_data_other hw hne
    | true => exact portWrite_attr_other hw hne
  · rintro rfl y hy
    exact portRead_data_after_write hw hy
  · rintro rfl y
    exact portRead_attr_after_write hw y

end Sys2Proof.Machine

/-! PROOFS. The linear algebra of GF(2) (40_gf2_vector_matrix.md R136, R137): sums of bits over a range, the laws of the
addition and of the product, and what adding one row to others does to the products. -/

namespace Sys2Proof.Machine

/-! Sums of bits -/

/-- The XOR of `f 0`, …, `f (n - 1)`. -/
def xorSum (n : Nat) (f : Nat → Bool) : Bool := decide ((List.range n).countP f % 2 = 1)

theorem xorSum_succ (n : Nat) (f : Nat → Bool) : xorSum (n + 1) f = xor (xorSum n f) (f n) := by
  rw [xorSum, List.range_succ, List.countP_append, List.countP_singleton, parity_add_ite, Bool.xor_comm, xorSum]

theorem xorSum_congr {n : Nat} {f g : Nat → Bool} (h : ∀ i, i < n → f i = g i) : xorSum n f = xorSum n g := by
  induction n with
  | zero => rfl
  | succ n ih => rw [xorSum_succ, xorSum_succ, ih fun i hi => h i (Nat.lt_succ_of_lt hi), h n (Nat.lt_succ_self n)]

theorem xorSum_xor (n : Nat) (f g : Nat → Bool) :
    xorSum n (fun i => xor (f i) (g i)) = xor (xorSum n f) (xorSum n g) := by
  induction n with
  | zero => rfl
  | succ n ih =>
    simp only [xorSum_succ, ih, Bool.xor_assoc, Bool.xor_left_comm]

theorem xorSum_and (n : Nat) (f : Nat → Bool) (b : Bool) : xorSum n (fun i => f i && b) = (xorSum n f && b) := by
  induction n with
  | zero => rfl
  | succ n ih => rw [xorSum_succ, xorSum_succ, ih, Bool.and_xor_distrib_right]

theorem xorSum_false (n : Nat) : xorSum n (fun _ => false) = false := by
  induction n with
  | zero => rfl
  | succ n ih => rw [xorSum_succ, ih, Bool.xor_false]

/-- A sum with one place chosen is that place's bit. -/
theorem xorSum_single {n p : Nat} (hp : p < n) (f : Nat → Bool) : xorSum n (fun i => f i && decide (i = p)) = f p := by
  induction n with
  | zero => exact absurd hp (Nat.not_lt_zero p)
  | succ n ih =>
    rw [xorSum_succ]
    rcases Nat.lt_succ_iff_lt_or_eq.mp hp with hlt | rfl
    · rw [ih hlt, decide_eq_false (by omega), Bool.and_false, Bool.xor_false]
    · have hnone : xorSum p (fun i => f i && decide (i = p)) = xorSum p fun _ => false :=
        xorSum_congr fun i hi => by rw [decide_eq_false (by omega), Bool.and_false]
      rw [hnone, xorSum_false, decide_eq_true rfl, Bool.and_true, Bool.false_xor]

/-! Addition (R130, R136) -/

theorem bits_ext {a b : List Bool} {n : Nat} (ha : a.length = n) (hb : b.length = n)
    (h : ∀ j, j < n → a.getD j false = b.getD j false) : a = b :=
  (bits_eq_iff_getD (ha.trans hb.symm)).mpr fun j hj => h j (ha ▸ hj)

theorem replicate_false_getD (n j : Nat) : (List.replicate n false).getD j false = false := by
  simp

theorem addBits_length_of_eq {a b : List Bool} (h : a.length = b.length) : (addBits a b).length = a.length := by
  rw [addBits_length, ← h, Nat.min_self]

/-- Settles O18: element by element, the laws of XOR. -/
theorem addBitsLaws : Obligations.AddBitsLaws := by
  intro a b c hab hbc
  have habl := addBits_length_of_eq hab
  have hbcl := addBits_length_of_eq hbc
  refine ⟨?assoc, ?comm, ?self, ?cancel⟩
  case assoc =>
    refine bits_ext (n := a.length) ?_ ?_ fun j _ => ?_
    · rw [addBits_length_of_eq (by omega), habl]
    · rw [addBits_length_of_eq (by omega)]
    · rw [addBits_getD (by omega), addBits_getD hab, addBits_getD (by omega), addBits_getD hbc, Bool.xor_assoc]
  case comm =>
    refine bits_ext habl (by rw [addBits_length_of_eq hab.symm, hab]) fun j _ => ?_
    rw [addBits_getD hab, addBits_getD hab.symm, Bool.xor_comm]
  case self =>
    refine bits_ext (addBits_length_of_eq rfl) List.length_replicate fun j _ => ?_
    rw [addBits_getD rfl, Bool.xor_self, replicate_false_getD]
  case cancel =>
    refine bits_ext (n := a.length) (by rw [addBits_length_of_eq (by omega), habl]) rfl fun j _ => ?_
    rw [addBits_getD (by omega), addBits_getD hab, Bool.xor_assoc, Bool.xor_self, Bool.xor_false]

/-! The product (R135, R137) -/

/-- R37: the rows of a matrix have its column count as their length. -/
def RowsFit (m : Matrix) : Prop := ∀ row ∈ m.rows, row.length = m.cols

theorem multiply_getD_xorSum {u : List Bool} {m : Matrix} (hm : RowsFit m) (hu : u.length = m.rowCount) (c : Nat) :
    (multiply u m).getD c false = xorSum m.rowCount fun i => u.getD i false && m.entry i c :=
  multiply_getD hm hu c

theorem multiply_ext {u : List Bool} {m : Matrix} {b : List Bool} (hm : RowsFit m) (hu : u.length = m.rowCount)
    (hb : b.length = m.cols)
    (h : ∀ c, c < m.cols → (xorSum m.rowCount fun i => u.getD i false && m.entry i c) = b.getD c false) :
    multiply u m = b :=
  bits_ext (multiply_length hm) hb fun c hc => (multiply_getD_xorSum hm hu c).trans (h c hc)

/-- Settles O19: a sum of products bit by bit is the sum over both vectors. -/
theorem multiplyIsLinear : Obligations.MultiplyIsLinear := by
  intro u v m _ hu hv hm
  have huv : u.length = v.length := hu.trans hv.symm
  have hprod : (multiply u m).length = (multiply v m).length := (multiply_length hm).trans (multiply_length hm).symm
  refine multiply_ext hm ((addBits_length_of_eq huv).trans hu) ?_ fun c _ => ?_
  · rw [addBits_length_of_eq hprod, multiply_length hm]
  · rw [addBits_getD hprod, multiply_getD_xorSum hm hu, multiply_getD_xorSum hm hv, ← xorSum_xor]
    exact xorSum_congr fun i _ => by rw [addBits_getD huv, Bool.and_xor_distrib_right]

/-! Matrices with the same products, up to a renaming of the vectors -/

/-- The vectors a matrix of `k` rows can be multiplied by. -/
abbrev Coeffs (k : Nat) : Type := { u : List Bool // u.length = k }

/-- The zero vector. -/
def Coeffs.zero (k : Nat) : Coeffs k := ⟨List.replicate k false, List.length_replicate⟩

/-- The rows of `m'` are an invertible combination of the rows of `m`: a bijection of the vectors that keeps the zero
vector turns the products with `m'` into the products with `m`. -/
def RowEquiv (m m' : Matrix) : Prop :=
  m'.cols = m.cols ∧ m'.rowCount = m.rowCount ∧
    ∃ e : Coeffs m.rowCount ≃ Coeffs m.rowCount, e (.zero _) = .zero _ ∧
      ∀ u : Coeffs m.rowCount, multiply u.1 m' = multiply (e u).1 m

theorem RowEquiv.refl (m : Matrix) : RowEquiv m m := ⟨rfl, rfl, Equiv.refl _, rfl, fun _ => rfl⟩

theorem RowEquiv.symm {m m' : Matrix} (h : RowEquiv m m') : RowEquiv m' m := by
  obtain ⟨hcols, hrows, e, hzero, hprod⟩ := h
  rw [RowEquiv, hrows]
  refine ⟨hcols.symm, rfl, e.symm, e.symm_apply_eq.mpr hzero.symm, fun u => ?_⟩
  rw [hprod, e.apply_symm_apply]

theorem RowEquiv.trans {m m' m'' : Matrix} (h : RowEquiv m m') (h' : RowEquiv m' m'') : RowEquiv m m'' := by
  obtain ⟨hcols, hrows, e, hzero, hprod⟩ := h
  obtain ⟨hcols', hrows', h'⟩ := h'
  rw [hrows] at h' hrows'
  obtain ⟨e', hzero', hprod'⟩ := h'
  refine ⟨hcols'.trans hcols, hrows', e'.trans e, ?_, fun u => ?_⟩
  · rw [Equiv.trans_apply, hzero', hzero]
  · rw [hprod', hprod, Equiv.trans_apply]

theorem isCodeword_iff_coeffs {m : Matrix} {c : List Bool} :
    IsCodeword m c ↔ ∃ u : Coeffs m.rowCount, multiply u.1 m = c :=
  ⟨fun ⟨u, hu, hc⟩ => ⟨⟨u, hu⟩, hc⟩, fun ⟨u, hc⟩ => ⟨u.1, u.2, hc⟩⟩

theorem rowsIndependent_iff_coeffs {m : Matrix} :
    RowsIndependent m ↔
      ∀ u : Coeffs m.rowCount, multiply u.1 m = List.replicate m.cols false → u = .zero _ :=
  ⟨fun h u hu => Subtype.ext (h u.1 u.2 hu), fun h u hlen hu => congrArg Subtype.val (h ⟨u, hlen⟩ hu)⟩

/-- R164: the code of a matrix and of one with combined rows is the same. -/
theorem RowEquiv.isCodeword_iff {m m' : Matrix} (h : RowEquiv m m') (c : List Bool) :
    IsCodeword m' c ↔ IsCodeword m c := by
  have one : ∀ {a b : Matrix}, RowEquiv a b → IsCodeword b c → IsCodeword a c := by
    rintro a b ⟨-, hrows, e, -, hprod⟩ hc
    rw [isCodeword_iff_coeffs] at hc ⊢
    rw [hrows] at hc
    obtain ⟨u, rfl⟩ := hc
    exact ⟨e u, (hprod u).symm⟩
  exact ⟨one h, one h.symm⟩

theorem RowEquiv.rowsIndependent_iff {m m' : Matrix} (h : RowEquiv m m') :
    RowsIndependent m' ↔ RowsIndependent m := by
  have one : ∀ {a b : Matrix}, RowEquiv a b → RowsIndependent a → RowsIndependent b := by
    rintro a b ⟨hcols, hrows, e, hzero, hprod⟩ hind
    rw [rowsIndependent_iff_coeffs] at hind ⊢
    rw [hrows, hcols]
    intro u hu
    exact e.injective ((hind (e u) ((hprod u).symm.trans hu)).trans hzero.symm)
  exact ⟨one h.symm, one h⟩

/-! Adding one row to others (R160) -/

/-- Row `src` added to every row that `f` chooses. -/
def addRowWhere (rows : List (List Bool)) (src : Nat) (f : Nat → Bool) : List (List Bool) :=
  rows.mapIdx fun i row => if f i = true then addBits row (rows.getD src []) else row

section
variable {m : Matrix} {src : Nat} {f : Nat → Bool}

theorem addRowWhere_length (rows : List (List Bool)) (src : Nat) (f : Nat → Bool) :
    (addRowWhere rows src f).length = rows.length := List.length_mapIdx

theorem addRowWhere_fit (hm : RowsFit m) (hsrc : src < m.rowCount) :
    RowsFit { m with rows := addRowWhere m.rows src f } := by
  intro row hrow
  obtain ⟨i, hi, rfl⟩ := List.mem_mapIdx.mp hrow
  have hrow_i := hm _ (List.getElem_mem hi)
  have hrow_src : (m.rows.getD src []).length = m.cols := by
    rw [List.getD_eq_getElem _ _ hsrc]
    exact hm _ (List.getElem_mem hsrc)
  dsimp only
  split
  · rw [addBits_length_of_eq (hrow_i.trans hrow_src.symm), hrow_i]
  · exact hrow_i

theorem addRowWhere_entry (hm : RowsFit m) (hsrc : src < m.rowCount) {i : Nat} (hi : i < m.rowCount) (c : Nat) :
    Matrix.entry { m with rows := addRowWhere m.rows src f } i c = xor (m.entry i c) (f i && m.entry src c) := by
  have hi' : i < (addRowWhere m.rows src f).length := (addRowWhere_length m.rows src f).symm ▸ hi
  have hrow : Matrix.row { m with rows := addRowWhere m.rows src f } i =
      if f i = true then addBits (m.row i) (m.row src) else m.row i := by
    rw [Matrix.row, List.getD_eq_getElem _ _ hi', row_of_lt hi]
    exact List.getElem_mapIdx ..
  have hlen : (m.row i).length = (m.row src).length := by
    rw [row_of_lt hi, row_of_lt hsrc, hm _ (List.getElem_mem hi), hm _ (List.getElem_mem hsrc)]
  rw [Matrix.entry, hrow]
  cases f i with
  | true => rw [if_pos rfl, addBits_getD hlen, Bool.true_and, Matrix.entry, Matrix.entry]
  | false => rw [if_neg Bool.false_ne_true, Bool.false_and, Bool.xor_false, Matrix.entry]

/-- The vector that makes up for the added row: its place `src` takes the places that `f` chooses as well. -/
def compensate (k src : Nat) (f : Nat → Bool) (u : List Bool) : List Bool :=
  (List.range k).map fun i =>
    xor (u.getD i false) (decide (i = src) && xorSum k fun j => u.getD j false && f j)

@[simp] theorem compensate_length (k src : Nat) (f : Nat → Bool) (u : List Bool) :
    (compensate k src f u).length = k := by
  simp [compensate]

theorem compensate_getD {k i : Nat} (hi : i < k) (src : Nat) (f : Nat → Bool) (u : List Bool) :
    (compensate k src f u).getD i false =
      xor (u.getD i false) (decide (i = src) && xorSum k fun j => u.getD j false && f j) := by
  rw [compensate, List.getD_eq_getElem _ _ (by simpa using hi), List.getElem_map, List.getElem_range]

/-- `f` does not choose `src`, so the sum is the same after the change, and a second change undoes the first. -/
theorem compensate_compensate {k : Nat} (hf : f src = false) {u : List Bool} (hu : u.length = k) :
    compensate k src f (compensate k src f u) = u := by
  have hsum : (xorSum k fun j => (compensate k src f u).getD j false && f j) =
      xorSum k fun j => u.getD j false && f j := by
    refine xorSum_congr fun j hj => ?_
    rw [compensate_getD hj]
    by_cases hjs : j = src
    · rw [hjs, hf, Bool.and_false, Bool.and_false]
    · rw [decide_eq_false hjs, Bool.false_and, Bool.xor_false]
  refine bits_ext (compensate_length ..) hu fun i hi => ?_
  rw [compensate_getD hi, compensate_getD hi, hsum, Bool.xor_assoc, Bool.xor_self, Bool.xor_false]

theorem compensate_zero (k src : Nat) (f : Nat → Bool) :
    compensate k src f (List.replicate k false) = List.replicate k false := by
  refine bits_ext (compensate_length ..) List.length_replicate fun i hi => ?_
  rw [compensate_getD hi]
  simp only [replicate_false_getD, Bool.false_and, xorSum_false, Bool.and_false, Bool.xor_false]

theorem multiply_addRowWhere (hm : RowsFit m) (hsrc : src < m.rowCount) {u : List Bool} (hu : u.length = m.rowCount) :
    multiply u { m with rows := addRowWhere m.rows src f } = multiply (compensate m.rowCount src f u) m := by
  have hrows : Matrix.rowCount { m with rows := addRowWhere m.rows src f } = m.rowCount := addRowWhere_length ..
  refine multiply_ext (addRowWhere_fit hm hsrc) (hu.trans hrows.symm) (multiply_length hm) fun c _ => ?_
  rw [hrows, multiply_getD_xorSum hm (compensate_length ..)]
  have hleft : (xorSum m.rowCount fun i =>
      u.getD i false && Matrix.entry { m with rows := addRowWhere m.rows src f } i c) =
      xor (xorSum m.rowCount fun i => u.getD i false && m.entry i c)
        ((xorSum m.rowCount fun i => u.getD i false && f i) && m.entry src c) := by
    rw [← xorSum_and, ← xorSum_xor]
    exact xorSum_congr fun i hi => by
      rw [addRowWhere_entry hm hsrc hi, Bool.and_xor_distrib_left, Bool.and_assoc]
  have hright : (xorSum m.rowCount fun i => (compensate m.rowCount src f u).getD i false && m.entry i c) =
      xor (xorSum m.rowCount fun i => u.getD i false && m.entry i c)
        ((xorSum m.rowCount fun i => u.getD i false && f i) && m.entry src c) := by
    rw [← xorSum_single hsrc fun i => (xorSum m.rowCount fun i => u.getD i false && f i) && m.entry i c, ← xorSum_xor]
    refine xorSum_congr fun i hi => ?_
    rw [compensate_getD hi, Bool.and_xor_distrib_right]
    congr 1
    ac_rfl
  rw [hleft, hright]

theorem rowEquiv_addRowWhere (hm : RowsFit m) (hsrc : src < m.rowCount) (hf : f src = false) :
    RowEquiv m { m with rows := addRowWhere m.rows src f } := by
  have hinv : Function.Involutive fun u : Coeffs m.rowCount =>
      (⟨compensate m.rowCount src f u.1, compensate_length ..⟩ : Coeffs m.rowCount) := fun u =>
    Subtype.ext (compensate_compensate hf u.2)
  refine ⟨rfl, addRowWhere_length .., hinv.toPerm, Subtype.ext ?_, fun u => multiply_addRowWhere hm hsrc u.2⟩
  exact compensate_zero _ _ _

end

end Sys2Proof.Machine

/-! PROOFS. What the elimination computes (41_gaussian_elimination.md R160–R165): one column's effect on the entries,
the reduced form it builds up, and the rank it decides. -/

namespace Sys2Proof.Machine

/-! The two row operations as additions of one row (R160) -/

theorem addToPivot_eq_addRowWhere {rows : List (List Bool)} {p f : Nat} (hne : f ≠ p) :
    addToPivot rows p f = addRowWhere rows f fun i => decide (i = p) := by
  rw [addToPivot, if_neg hne, addRowWhere]
  refine List.ext_getElem (by simp) fun i h1 h2 => ?_
  rw [List.getElem_mapIdx, List.getElem_set]
  by_cases hi : p = i
  · subst hi
    rw [if_pos rfl, decide_eq_true rfl, if_pos rfl, List.getD_eq_getElem _ _ (by simpa using h1)]
  · rw [if_neg hi, decide_eq_false (Ne.symm hi), if_neg Bool.false_ne_true]

theorem clearColumn_eq_addRowWhere (rows : List (List Bool)) (p j : Nat) :
    clearColumn rows p j = addRowWhere rows p fun i => decide (i ≠ p) && (rows.getD i []).getD j false := by
  rw [clearColumn, addRowWhere]
  refine List.ext_getElem (by simp) fun i h1 h2 => ?_
  have hrow : rows.getD i [] = rows[i]'(by simpa using h1) := List.getD_eq_getElem _ _ _
  simp only [List.getElem_mapIdx, hrow, Bool.and_eq_true, decide_eq_true_eq]

section
variable {m : Matrix} {p f j : Nat} (hm : RowsFit m) (hp : p < m.rowCount) (hf : f < m.rowCount)
include hm hp

/-- Step 3: row `f` joins row `p`, if they are two. -/
theorem addToPivot_spec (hf : f < m.rowCount) :
    let m' : Matrix := { m with rows := addToPivot m.rows p f }
    RowEquiv m m' ∧ RowsFit m' ∧
      ∀ i c, i < m.rowCount → m'.entry i c = xor (m.entry i c) (decide (i = p) && decide (f ≠ p) && m.entry f c) := by
  dsimp only
  by_cases hfp : f = p
  · subst hfp
    rw [addToPivot, if_pos rfl]
    exact ⟨.refl m, hm, fun i c _ => by simp⟩
  · rw [addToPivot_eq_addRowWhere hfp]
    refine ⟨rowEquiv_addRowWhere hm hf (decide_eq_false hfp), addRowWhere_fit hm hf, fun i c hi => ?_⟩
    rw [addRowWhere_entry hm hf hi, decide_eq_true hfp, Bool.and_true]

/-- Step 4: row `p` joins every other row with a 1 in column `j`. -/
theorem clearColumn_spec (j : Nat) :
    let m' : Matrix := { m with rows := clearColumn m.rows p j }
    RowEquiv m m' ∧ RowsFit m' ∧
      ∀ i c, i < m.rowCount → m'.entry i c = xor (m.entry i c) (decide (i ≠ p) && m.entry i j && m.entry p c) := by
  dsimp only
  rw [clearColumn_eq_addRowWhere]
  refine ⟨rowEquiv_addRowWhere hm hp (by simp), addRowWhere_fit hm hp, fun i c hi => ?_⟩
  exact addRowWhere_entry hm hp hi c

/-- One column with a pivot: column `j` becomes 1 in row `p` only, and the columns before it, where the rows from `p` on
are 0, stay as they are. -/
theorem eliminate_spec (hfound : pivotRow m.rows p j = some f)
    (hrest : ∀ i c, p ≤ i → i < m.rowCount → c < j → m.entry i c = false) :
    let m' : Matrix := { m with rows := clearColumn (addToPivot m.rows p f) p j }
    RowEquiv m m' ∧ RowsFit m' ∧ (∀ i c, i < m.rowCount → c < j → m'.entry i c = m.entry i c)
      ∧ ∀ i, i < m.rowCount → m'.entry i j = decide (i = p) := by
  dsimp only
  obtain ⟨hpf, hf, hone, hfirst⟩ := pivotRow_eq_some hfound
  obtain ⟨hequiv, hfit, hentry⟩ := addToPivot_spec hm hp hf
  have hrows : Matrix.rowCount { m with rows := addToPivot m.rows p f } = m.rowCount := addToPivot_length ..
  obtain ⟨hequiv', hfit', hentry'⟩ := clearColumn_spec hfit (hrows.symm ▸ hp) j
  rw [hrows] at hentry'
  have hpivot_before : ∀ c, c < j → Matrix.entry { m with rows := addToPivot m.rows p f } p c = false := by
    intro c hc
    rw [hentry p c hp, hrest p c le_rfl hp hc, hrest f c hpf hf hc, Bool.and_false, Bool.xor_false]
  have hpivot_one : Matrix.entry { m with rows := addToPivot m.rows p f } p j = true := by
    have hone : m.entry f j = true := hone
    rw [hentry p j hp, decide_eq_true rfl, Bool.true_and, hone, Bool.and_true]
    by_cases hfp : f = p
    · rw [← hfp, hone, decide_eq_false (not_not_intro rfl), Bool.xor_false]
    · have hzero : m.entry p j = false := hfirst p le_rfl (by omega)
      rw [hzero, decide_eq_true hfp, Bool.false_xor]
  refine ⟨hequiv.trans hequiv', hfit', fun i c hi hc => ?_, fun i hi => ?_⟩
  · rw [hentry' i c hi, hpivot_before c hc, Bool.and_false, Bool.xor_false, hentry i c hi, hrest f c hpf hf hc,
      Bool.and_false, Bool.xor_false]
  · rw [hentry' i j hi, hpivot_one, Bool.and_true]
    by_cases hip : i = p
    · rw [hip, hpivot_one]
      simp
    · rw [decide_eq_true hip, Bool.true_and, Bool.xor_self, decide_eq_false hip]

end

/-! The reduced form (R160, R162–R164) -/

/-- The elimination of `m` after the columns before `j`: `r` is made of `m` by row operations; `pivots` are leftmost
ones of its first rows, alone in their columns; and the other rows are 0 so far. -/
structure Eliminated (m : Matrix) (j : Nat) (r : Matrix) (pivots : List Nat) : Prop where
  equiv : RowEquiv m r
  fit : RowsFit r
  count : pivots.length ≤ m.rowCount
  sorted : pivots.Pairwise (· < ·)
  bounded : ∀ c ∈ pivots, c < j
  unit : ∀ p i, p < pivots.length → i < m.rowCount → r.entry i (pivots.getD p 0) = decide (i = p)
  before : ∀ p c, p < pivots.length → c < pivots.getD p 0 → r.entry p c = false
  rest : ∀ i c, pivots.length ≤ i → i < m.rowCount → c < j → r.entry i c = false

theorem eliminated_start {m : Matrix} (hm : RowsFit m) : Eliminated m 0 m [] where
  equiv := .refl m
  fit := hm
  count := Nat.zero_le _
  sorted := List.Pairwise.nil
  bounded := nofun
  unit := fun p _ hp => absurd hp (Nat.not_lt_zero p)
  before := fun p _ hp => absurd hp (Nat.not_lt_zero p)
  rest := fun _ c _ _ hc => absurd hc (Nat.not_lt_zero c)

section
variable {m r : Matrix} {j : Nat} {pivots : List Nat} (h : Eliminated m j r pivots)
include h

theorem Eliminated.rowCount : r.rowCount = m.rowCount := h.equiv.2.1

/-- A column in which no row is left with a 1. -/
theorem Eliminated.skip (hnone : pivotRow r.rows pivots.length j = none) : Eliminated m (j + 1) r pivots where
  __ := h
  bounded := fun c hc => (h.bounded c hc).trans (Nat.lt_succ_self j)
  rest := fun i c hpi hi hc => by
    rcases Nat.lt_succ_iff_lt_or_eq.mp hc with hc | rfl
    · exact h.rest i c hpi hi hc
    · exact pivotRow_eq_none hnone i hpi (hi.trans_eq h.rowCount.symm)

/-- A column with a pivot. -/
theorem Eliminated.pivot {f : Nat} (hfound : pivotRow r.rows pivots.length j = some f) :
    Eliminated m (j + 1) { r with rows := clearColumn (addToPivot r.rows pivots.length f) pivots.length j }
      (pivots ++ [j]) := by
  obtain ⟨hpf, hfl, -⟩ := pivotRow_eq_some hfound
  have hrows := h.rowCount
  have hp : pivots.length < r.rowCount := hpf.trans_lt hfl
  obtain ⟨hequiv, hfit, hsame, hcol⟩ := eliminate_spec h.fit hp hfound (hrows.symm ▸ h.rest)
  rw [hrows] at hp hsame hcol
  have hold : ∀ q, q < pivots.length → (pivots ++ [j]).getD q 0 = pivots.getD q 0 ∧ pivots.getD q 0 < j := by
    intro q hq
    rw [List.getD_append _ _ _ _ hq, List.getD_eq_getElem _ _ hq]
    exact ⟨rfl, h.bounded _ (List.getElem_mem hq)⟩
  have hnew : (pivots ++ [j]).getD pivots.length 0 = j := by simp
  have hsplit : ∀ q, q < (pivots ++ [j]).length → q < pivots.length ∨ q = pivots.length := by
    intro q hq
    rw [List.length_append, List.length_singleton] at hq
    omega
  exact {
    equiv := h.equiv.trans hequiv
    fit := hfit
    count := by rw [List.length_append, List.length_singleton]; exact hp
    sorted := List.pairwise_append.mpr ⟨h.sorted, List.pairwise_singleton _ _, fun c hc d hd => by
      rw [List.mem_singleton.mp hd]
      exact h.bounded c hc⟩
    bounded := fun c hc => by
      rcases List.mem_append.mp hc with hc | hc
      · exact (h.bounded c hc).trans (Nat.lt_succ_self j)
      · rw [List.mem_singleton.mp hc]
        exact Nat.lt_succ_self j
    unit := fun q i hq hi => by
      rcases hsplit q hq with hq | rfl
      · rw [(hold q hq).1, hsame i _ hi (hold q hq).2, h.unit q i hq hi]
      · rw [hnew, hcol i hi]
    before := fun q c hq hc => by
      rcases hsplit q hq with hq | rfl
      · rw [(hold q hq).1] at hc
        rw [hsame q c (hq.trans hp) (hc.trans (hold q hq).2), h.before q c hq hc]
      · rw [hnew] at hc
        rw [hsame _ c hp hc, h.rest _ c le_rfl hp hc]
    rest := fun i c hpi hi hc => by
      rw [List.length_append, List.length_singleton] at hpi
      rcases Nat.lt_succ_iff_lt_or_eq.mp hc with hc | rfl
      · rw [hsame i c hi hc, h.rest i c (by omega) hi hc]
      · rw [hcol i hi, decide_eq_false (by omega)] }

end

/-- After all columns, the elimination has reached its reduced form. -/
theorem gauss_eliminated {m : Matrix} (hm : RowsFit m) : Eliminated m m.cols (gauss m).1 (gauss m).2 := by
  have hcolumns : ∀ n, Eliminated m n { m with rows := ((List.range n).foldl gaussColumn (m.rows, [])).1 }
      ((List.range n).foldl gaussColumn (m.rows, [])).2 := by
    intro n
    induction n with
    | zero => exact eliminated_start hm
    | succ n ih =>
      rw [List.range_succ, List.foldl_append, List.foldl_cons, List.foldl_nil]
      generalize (List.range n).foldl gaussColumn (m.rows, []) = x at ih ⊢
      rw [gaussColumn]
      cases hfound : pivotRow x.1 x.2.length n with
      | none => exact ih.skip hfound
      | some f => exact ih.pivot hfound
  exact hcolumns m.cols

/-! Products with the reduced matrix, and the rank (R163–R165) -/

section
variable {m r : Matrix} {pivots : List Nat} (h : Eliminated m m.cols r pivots)
include h

/-- R163: a product carries the vector at the pivot columns. -/
theorem Eliminated.multiply_getD_pivot {u : List Bool} (hu : u.length = m.rowCount) {p : Nat}
    (hp : p < pivots.length) : (multiply u r).getD (pivots.getD p 0) false = u.getD p false := by
  rw [multiply_getD_xorSum h.fit (hu.trans h.rowCount.symm), h.rowCount,
    ← xorSum_single (hp.trans_le h.count) fun i => u.getD i false]
  exact xorSum_congr fun i hi => by rw [h.unit p i hp hi]

theorem Eliminated.rowsIndependent_of_full (hfull : pivots.length = m.rowCount) : RowsIndependent m := by
  refine h.equiv.rowsIndependent_iff.mp fun u hu hzero => ?_
  rw [h.rowCount] at hu ⊢
  refine bits_ext hu List.length_replicate fun p hp => ?_
  rw [← h.multiply_getD_pivot hu (hfull.symm ▸ hp), hzero, replicate_false_getD, replicate_false_getD]

/-- With fewer pivots than rows, a row of the reduced matrix is 0, and choosing it alone gives 0. -/
theorem Eliminated.full_of_rowsIndependent (hind : RowsIndependent m) : pivots.length = m.rowCount := by
  by_contra hne
  have hlt := lt_of_le_of_ne h.count hne
  have hind := h.equiv.rowsIndependent_iff.mpr hind
  have hcols : r.cols = m.cols := h.equiv.1
  rw [← h.rowCount] at hlt
  have hunit : ((List.range r.rowCount).map fun i => decide (i = pivots.length)).length = r.rowCount := by simp
  have hget : ∀ i, i < r.rowCount →
      ((List.range r.rowCount).map fun i => decide (i = pivots.length)).getD i false = decide (i = pivots.length) := by
    intro i hi
    rw [List.getD_eq_getElem _ _ (by simpa using hi), List.getElem_map, List.getElem_range]
  have hzero := hind _ hunit <| multiply_ext h.fit hunit List.length_replicate fun c hc => by
    rw [replicate_false_getD, xorSum_congr fun i hi => by rw [hget i hi, Bool.and_comm],
      xorSum_single hlt fun i => r.entry i c]
    exact h.rest _ c le_rfl (h.rowCount ▸ hlt) (hcols ▸ hc)
  have hone := hget _ hlt
  rw [hzero, replicate_false_getD, decide_eq_true rfl] at hone
  exact Bool.false_ne_true hone

end

/-- R165: the elimination finds a pivot for every row exactly when the rows are independent. -/
theorem gauss_full_iff {m : Matrix} (hm : RowsFit m) : (gauss m).2.length = m.rowCount ↔ RowsIndependent m :=
  ⟨(gauss_eliminated hm).rowsIndependent_of_full, (gauss_eliminated hm).full_of_rowsIndependent⟩

theorem gauss_deficient_iff {m : Matrix} (hm : RowsFit m) :
    (gauss m).2.length < m.rowCount ↔ ¬ RowsIndependent m := by
  have hle := (gauss_eliminated hm).count
  rw [← gauss_full_iff hm]
  omega

/-- Settles O23: each pivot column of the reduced form is 1 in its own row only. -/
theorem pivotColumnsCarryTheVector : Obligations.PivotColumnsCarryTheVector := by
  intro m u hm hfull hu p hp
  exact (gauss_eliminated hm).multiply_getD_pivot hu (hfull.symm ▸ hp)

/-- Settles O22: by the rank the elimination decides. -/
theorem gaussRefusesDependentRows : Obligations.GaussRefusesDependentRows := by
  intro fd fa fb s ⟨_, ⟨_, _, _, hm, _⟩, _⟩ hrows hdep
  obtain ⟨-, -, hfit⟩ := hm fa
  exact failsWith_iff.mpr (exec_gauss_of_missing_pivot hrows ((gauss_deficient_iff hfit).mpr hdep) fd fb)

/-- Settles O21: the command writes the reduced form of its elimination. -/
theorem gaussReducesFullRowRank : Obligations.GaussReducesFullRowRank := by
  intro fd fa fb s ⟨⟨_, hcap, _⟩, ⟨_, _, _, hm, _⟩, _⟩ hrows hind
  obtain ⟨-, hcols, hfit⟩ := hm fa
  have hfull := (gauss_full_iff hfit).mpr hind
  have helim := gauss_eliminated hfit
  obtain ⟨t, hsucc, hmat, hpiv, -⟩ := succeeds_setM_setP (exec_gauss_of_all_pivots hrows hfull fd fb)
  have hpivots : indexNats t.store.p[fb] = (gauss s.store.m[fa]).2 := by
    rw [hpiv, indexNats_indexWords fun c hc => (helim.bounded c hc).trans_le (by omega)]
  refine ⟨t, hsucc, ?_⟩
  rw [hmat, hpivots, hpiv, indexWords_length]
  exact ⟨helim.rowCount, helim.equiv.1, helim.fit, hfull, helim.sorted, helim.bounded,
    fun p i hp hi => helim.unit p i (hfull.symm ▸ hp) hi, fun p c hp hc => helim.before p c (hfull.symm ▸ hp) hc,
    helim.equiv.isCodeword_iff⟩

end Sys2Proof.Machine

/-! PROOFS. Permutations and their inverses (42_permutation.md R180, R181, R185): where the inverse puts each element,
the round trips, and products with the columns of a matrix permuted. -/

namespace Sys2Proof.Machine

section
variable {p : List Nat} (hp : IsPermutation p)
include hp

theorem isPermutation_getD_lt {i : Nat} (hi : i < p.length) : p.getD i 0 < p.length := by
  rw [List.getD_eq_getElem _ _ hi]
  exact hp.1 _ (List.getElem_mem hi)

/-- R180: every position is an element. -/
theorem isPermutation_surjective {j : Nat} (hj : j < p.length) : ∃ i, i < p.length ∧ p.getD i 0 = j := by
  obtain ⟨hlt, hnodup⟩ := hp
  have hsub : p.Subperm (List.range p.length) :=
    List.subperm_of_subset hnodup fun x hx => List.mem_range.mpr (hlt x hx)
  have hperm := hsub.perm_of_length_le (by rw [List.length_range])
  obtain ⟨i, hi, hij⟩ := List.getElem_of_mem (hperm.mem_iff.mpr (List.mem_range.mpr hj))
  exact ⟨i, hi, by rw [List.getD_eq_getElem _ _ hi, hij]⟩

theorem invert_getD {i : Nat} (hi : i < p.length) : (invert p).getD (p.getD i 0) 0 = i := by
  rw [List.getD_eq_getElem?_getD, invert_getElem?_getD hp hi, Option.getD_some]

theorem isPermutation_invert : IsPermutation (invert p) := by
  refine ⟨fun x hx => ?_, List.nodup_iff_getElem?_ne_getElem?.mpr fun a b hab hb hsame => ?_⟩
  · rw [invert_length]
    exact List.mem_range.mp (mem_of_mem_applyPerm hx)
  · rw [invert_length] at hb
    obtain ⟨i, hi, rfl⟩ := isPermutation_surjective hp (hab.trans hb)
    obtain ⟨j, hj, rfl⟩ := isPermutation_surjective hp hb
    rw [invert_getElem?_getD hp hi, invert_getElem?_getD hp hj, Option.some_inj] at hsame
    subst hsame
    exact Nat.lt_irrefl _ hab

variable {α : Type} {x : List α} (hx : x.length = p.length)
include hx

/-- Two sequences that agree at every place a permutation names are equal. -/
theorem ext_of_isPermutation {y : List α} (hy : y.length = p.length)
    (h : ∀ i, i < p.length → x[p.getD i 0]? = y[p.getD i 0]?) : x = y := by
  refine List.ext_getElem? fun j => ?_
  by_cases hj : j < p.length
  · obtain ⟨i, hi, rfl⟩ := isPermutation_surjective hp hj
    exact h i hi
  · rw [List.getElem?_eq_none (by omega), List.getElem?_eq_none (by omega)]

/-- The inverse fetches to position `i` the element at position `p[i]`. -/
theorem applyPerm_invert_getElem? {i : Nat} (hi : i < p.length) :
    (applyPerm (invert p) x)[i]? = x[p.getD i 0]? := by
  have h := applyPerm_getElem?_getD (isPermutation_invert hp) ((invert_length p).trans hx.symm)
    (hx.symm ▸ isPermutation_getD_lt hp hi)
  rwa [invert_getD hp hi] at h

/-- The inverse as a list: the elements in the order the permutation names them. -/
theorem applyPerm_invert_eq_map (d : α) : applyPerm (invert p) x = p.map fun i => x.getD i d := by
  refine List.ext_getElem? fun i => ?_
  by_cases hi : i < p.length
  · have hlt : p[i] < x.length := hx.symm ▸ hp.1 _ (List.getElem_mem hi)
    rw [applyPerm_invert_getElem? hp hx hi, List.getD_eq_getElem _ _ hi, List.getElem?_map,
      List.getElem?_eq_getElem hi, Option.map_some, List.getElem?_eq_getElem hlt, List.getD_eq_getElem _ _ hlt]
  · rw [List.getElem?_eq_none (by rw [applyPerm_length]; omega), List.getElem?_eq_none (by simp; omega)]

theorem applyPerm_invert_applyPerm : applyPerm (invert p) (applyPerm p x) = x := by
  refine List.ext_getElem? fun i => ?_
  by_cases hi : i < p.length
  · rw [applyPerm_invert_getElem? hp (by rwa [applyPerm_length]) hi, applyPerm_getElem?_getD hp hx.symm (hx ▸ hi)]
  · rw [List.getElem?_eq_none (by rw [applyPerm_length, applyPerm_length]; omega), List.getElem?_eq_none (by omega)]

theorem applyPerm_applyPerm_invert : applyPerm p (applyPerm (invert p) x) = x := by
  refine ext_of_isPermutation hp (by rwa [applyPerm_length, applyPerm_length]) hx fun i hi => ?_
  rw [applyPerm_getElem?_getD hp (by rw [applyPerm_length, hx]) (by rwa [applyPerm_length, hx]),
    applyPerm_invert_getElem? hp hx hi]

end

theorem invert_invert {p : List Nat} (hp : IsPermutation p) : invert (invert p) = p := by
  have hinv := isPermutation_invert hp
  have hlen := invert_length p
  refine ext_of_isPermutation hinv (by rw [invert_length]) hlen.symm fun j hj => ?_
  rw [invert_getElem?_getD hinv hj]
  obtain ⟨i, hi, rfl⟩ := isPermutation_surjective hp (hlen ▸ hj)
  rw [invert_getD hp hi, List.getElem?_eq_getElem hi, List.getD_eq_getElem _ _ hi]

/-- Settles O27: both round trips, element by element. -/
theorem permutationRoundTrip : Obligations.PermutationRoundTrip := by
  intro α p x hp hx
  exact ⟨applyPerm_invert_applyPerm hp hx, applyPerm_applyPerm_invert hp hx, invert_invert hp,
    bij_iff_isPermutation.mpr (isPermutation_invert hp)⟩

/-! Products with permuted columns (R184, R223) -/

theorem applyPerm_replicate {α : Type} (p : List Nat) (n : Nat) (a : α) :
    applyPerm p (List.replicate n a) = List.replicate n a :=
  List.eq_replicate_iff.mpr ⟨by rw [applyPerm_length, List.length_replicate], fun _ hb =>
    List.eq_of_mem_replicate (mem_of_mem_applyPerm hb)⟩

section
variable {g : Matrix} (hg : RowsFit g)
include hg

theorem rowsFit_permuteColumns (p : List Nat) : RowsFit (permuteColumns g p) := permuteColumns_row_lengths hg p

variable {p : List Nat} (hp : IsPermutation p) (hlen : p.length = g.cols)
include hp hlen

theorem multiply_permuteColumns {u : List Bool} (hu : u.length = g.rowCount) :
    multiply u (permuteColumns g p) = applyPerm p (multiply u g) := by
  have hfit := rowsFit_permuteColumns hg p
  have hprod := multiply_length (v := u) hg
  have hrows := permuteColumns_rowCount g p
  refine multiply_ext hfit (hu.trans hrows.symm) (by rw [applyPerm_length, hprod, permuteColumns_cols])
    fun c hc => ?_
  obtain ⟨i, hi, rfl⟩ := isPermutation_surjective hp (hlen.symm ▸ hc)
  have hcol : (applyPerm p (multiply u g)).getD (p.getD i 0) false = (multiply u g).getD i false := by
    rw [List.getD_eq_getElem?_getD, applyPerm_getElem?_getD hp (by rw [hlen, hprod]) (by rw [hprod, ← hlen]; exact hi),
      ← List.getD_eq_getElem?_getD]
  rw [hcol, multiply_getD_xorSum hg hu, hrows]
  refine xorSum_congr fun r hr => ?_
  have hrow : (g.row r).length = g.cols := by
    rw [row_of_lt hr]
    exact hg _ (List.getElem_mem hr)
  rw [permuteColumns_entry hp (hlen.trans hrow.symm) hr (by rw [hrow, ← hlen]; exact hi)]

theorem rowsIndependent_permuteColumns_iff : RowsIndependent (permuteColumns g p) ↔ RowsIndependent g := by
  have hzero : ∀ u : List Bool, u.length = g.rowCount →
      (multiply u (permuteColumns g p) = List.replicate g.cols false ↔ multiply u g = List.replicate g.cols false) := by
    intro u hu
    rw [multiply_permuteColumns hg hp hlen hu]
    refine ⟨fun h => ?_, fun h => by rw [h, applyPerm_replicate]⟩
    rw [← applyPerm_invert_applyPerm hp ((multiply_length hg).trans hlen.symm), h, applyPerm_replicate]
  simp only [RowsIndependent, permuteColumns_rowCount, permuteColumns_cols]
  exact forall₂_congr fun u hu => by rw [hzero u hu]

theorem isCodeword_permuteColumns_iff {c : List Bool} (hc : c.length = g.cols) :
    IsCodeword (permuteColumns g p) (applyPerm p c) ↔ IsCodeword g c := by
  simp only [IsCodeword, permuteColumns_rowCount]
  refine exists_congr fun u => and_congr_right fun hu => ?_
  rw [multiply_permuteColumns hg hp hlen hu]
  refine ⟨fun h => ?_, fun h => by rw [h]⟩
  rw [← applyPerm_invert_applyPerm hp ((multiply_length hg).trans hlen.symm), h,
    applyPerm_invert_applyPerm hp (hc.trans hlen.symm)]

end

end Sys2Proof.Machine

/-! PROOFS. The decoder's answer (44_osd_decoder.md R221–R234): that it is a codeword with the metric of its
disagreements, that a codeword in the samples is found at once, and that a full search misses no codeword. -/

namespace Sys2Proof.Machine

/-! The order of reliability of one `DECODE` (R222) -/

/-- The positions in order of reliability (`ipi` of R222). -/
def decodeOrder (x : List F64) : List Nat := reliabilityOrder (reliabilities x)

theorem decodeOrder_isPermutation (x : List F64) : IsPermutation (decodeOrder x) := reliabilityOrder_isPermutation _

@[simp] theorem decodeOrder_length (x : List F64) : (decodeOrder x).length = x.length := by
  rw [decodeOrder, reliabilityOrder_length, reliabilities_length]

/-- The hard decisions in order of reliability (`alpha` of R223). -/
def orderedDecisions (x : List F64) : List Bool := applyPerm (invert (decodeOrder x)) (hardDecisions x)

/-- The reliabilities in their order (`beta` of R223). -/
def orderedReliabilities (x : List F64) : List F64 := applyPerm (invert (decodeOrder x)) (reliabilities x)

/-- The information bits of the seed: the hard decisions at the pivots (R225). -/
def seedBits (x : List F64) (g : Matrix) : List Bool :=
  (reliabilityElimination x g).2.map fun c => (orderedDecisions x).getD c false

theorem decodeCandidates_eq (x : List F64) (g : Matrix) (wMax : Nat) :
    decodeCandidates x g wMax =
      candidates (seedBits x g) (reliabilityElimination x g).1 (orderedDecisions x) (orderedReliabilities x) wMax := rfl

theorem decodeAnswer_eq (x : List F64) (g : Matrix) (wMax : Nat) :
    decodeAnswer x g wMax = (applyPerm (decodeOrder x) (bestCandidate x g wMax).1, (bestCandidate x g wMax).2) := rfl

/-- R226 in original positions: the sum, in order of reliability, of the reliabilities of the positions where a word
differs from the hard decisions. -/
def disagreement (x : List F64) (c : List Bool) : F64 :=
  (decodeOrder x).foldl (fun m i => if c.getD i false ≠ lt0 (x.getD i 0#64) then fadd m (fabs (x.getD i 0#64)) else m)
    f64Zero

theorem hardDecisions_length (x : List F64) : (hardDecisions x).length = x.length := List.length_map _

theorem hardDecisions_getD (x : List F64) (i : Nat) : (hardDecisions x).getD i (lt0 0#64) = lt0 (x.getD i 0#64) :=
  List.getD_map ..

/-- The metric of a word in order of reliability, in original positions. -/
theorem metric_applyPerm {x : List F64} {c : List Bool} (hc : c.length = x.length) :
    metric (applyPerm (invert (decodeOrder x)) c) (orderedDecisions x) (orderedReliabilities x) = disagreement x c := by
  have hperm := decodeOrder_isPermutation x
  have hlen := (decodeOrder_length x).symm
  rw [orderedDecisions, orderedReliabilities, applyPerm_invert_eq_map hperm (hc.trans hlen) false,
    applyPerm_invert_eq_map hperm ((hardDecisions_length x).trans hlen) (lt0 0#64),
    applyPerm_invert_eq_map hperm ((reliabilities_length x).trans hlen) f64Zero, metric, List.zip_map', List.zip_map',
    List.foldl_map, disagreement]
  simp only [hardDecisions_getD, reliabilities_getD]

/-! The code in order of reliability (R223, R224) -/

theorem invert_decodeOrder_length {x : List F64} {g : Matrix} (hlen : x.length = g.cols) :
    (invert (decodeOrder x)).length = g.cols := by
  rw [invert_length, decodeOrder_length, hlen]

section
variable {x : List F64} {g : Matrix} (hg : RowsFit g) (hlen : x.length = g.cols)
include hg

theorem reliabilityElimination_eliminated :
    Eliminated (permuteColumns g (invert (decodeOrder x))) g.cols (reliabilityElimination x g).1
      (reliabilityElimination x g).2 :=
  gauss_eliminated (rowsFit_permuteColumns hg _)

theorem reliabilityElimination_rowCount : (reliabilityElimination x g).1.rowCount = g.rowCount :=
  (reliabilityElimination_eliminated hg).rowCount.trans (permuteColumns_rowCount _ _)

theorem reliabilityElimination_count_le : (reliabilityElimination x g).2.length ≤ g.rowCount :=
  (reliabilityElimination_eliminated hg).count.trans_eq (permuteColumns_rowCount _ _)

include hlen

/-- R164: a word is a codeword exactly when, in order of reliability, it is a product of the reduced matrix. -/
theorem isCodeword_reliabilityElimination_iff {c : List Bool} (hc : c.length = g.cols) :
    IsCodeword (reliabilityElimination x g).1 (applyPerm (invert (decodeOrder x)) c) ↔ IsCodeword g c := by
  rw [(reliabilityElimination_eliminated hg).equiv.isCodeword_iff]
  exact isCodeword_permuteColumns_iff hg (isPermutation_invert (decodeOrder_isPermutation x))
    (invert_decodeOrder_length hlen) hc

theorem reliabilityElimination_full_iff :
    (reliabilityElimination x g).2.length = g.rowCount ↔ RowsIndependent g := by
  rw [← rowsIndependent_permuteColumns_iff hg (isPermutation_invert (decodeOrder_isPermutation x))
    (invert_decodeOrder_length hlen), ← gauss_full_iff (rowsFit_permuteColumns hg _), permuteColumns_rowCount]
  rfl

theorem reliabilityElimination_deficient_iff :
    (reliabilityElimination x g).2.length < g.rowCount ↔ ¬ RowsIndependent g := by
  have hle := reliabilityElimination_count_le (x := x) hg
  rw [← reliabilityElimination_full_iff hg hlen]
  omega

end

/-- Settles O33: dependent rows leave the permuted matrix without a pivot for some row. -/
theorem decodeRefusesDependentRows : Obligations.DecodeRefusesDependentRows := by
  intro fd fa fb s ⟨_, ⟨_, _, _, hm, _⟩, _⟩ hrows hlen hnan hdep
  obtain ⟨-, -, hfit⟩ := hm fb
  exact failsWith_decode_of_error
    (decodeWord_of_missing_pivot hrows hlen hnan ((reliabilityElimination_deficient_iff hfit hlen).mpr hdep) _) fd

/-! The answer is a codeword (R231) and its metric is its disagreement (R226) -/

/-- The best candidate is a product of the reduced matrix. -/
theorem exists_bestCandidate {x : List F64} {g : Matrix} (hd : Decodable x g) (wMax : Nat) :
    ∃ p, bestCandidate x g wMax =
      scoreCandidate (seedBits x g) (reliabilityElimination x g).1 (orderedDecisions x) (orderedReliabilities x) p := by
  obtain ⟨i, hi, -⟩ := bestCandidate_earliestLeast hd.noNaN g wMax
  rw [decodeCandidates_eq] at hi
  obtain ⟨p, -, hp⟩ := candidates_getElem?.mp hi
  exact ⟨p, hp.symm⟩

section
variable {x : List F64} {g : Matrix} (hg : RowsFit g) (hd : Decodable x g)
include hg hd

theorem seedBits_length : (seedBits x g).length = g.rowCount := by
  rw [seedBits, List.length_map]
  exact Nat.le_antisymm (reliabilityElimination_count_le hg) (Nat.le_of_not_lt hd.pivots)

theorem bestCandidate_eq_applyPerm (wMax : Nat) :
    (bestCandidate x g wMax).1 = applyPerm (invert (decodeOrder x)) (decodeAnswer x g wMax).1 := by
  rw [decodeAnswer_eq, applyPerm_invert_applyPerm (decodeOrder_isPermutation x)]
  rw [bestCandidate_length hd.noNaN hg, decodeOrder_length, hd.length]

theorem decodeAnswer_isCodeword (wMax : Nat) : IsCodeword g (decodeAnswer x g wMax).1 := by
  rw [← isCodeword_reliabilityElimination_iff hg hd.length (decodeAnswer_length hd.noNaN hg wMax),
    ← bestCandidate_eq_applyPerm hg hd]
  obtain ⟨p, hp⟩ := exists_bestCandidate hd wMax
  refine ⟨flipBits (seedBits x g) p, ?_, by rw [hp]; rfl⟩
  rw [flipBits, List.length_mapIdx, seedBits_length hg hd, reliabilityElimination_rowCount hg]

theorem decodeAnswer_metric (wMax : Nat) :
    (decodeAnswer x g wMax).2 = disagreement x (decodeAnswer x g wMax).1 := by
  rw [← metric_applyPerm ((decodeAnswer_length hd.noNaN hg wMax).trans hd.length.symm),
    ← bestCandidate_eq_applyPerm hg hd, decodeAnswer_eq]
  obtain ⟨p, hp⟩ := exists_bestCandidate hd wMax
  rw [hp]
  rfl

end

/-- R230: independent rows pass the last of the checks. -/
theorem decodable_of_rowsIndependent {x : List F64} {g : Matrix} (hg : RowsFit g) (hrows : 1 ≤ g.rowCount)
    (hlen : x.length = g.cols) (hnan : ∀ a ∈ x, isNaN a = false) (hind : RowsIndependent g) : Decodable x g :=
  ⟨hrows, hlen, hnan, ((reliabilityElimination_full_iff hg hlen).mpr hind).not_lt⟩

theorem succeeds_decode_of_decodable {s : State} {fa : SId} {fb : MId}
    (hd : Decodable s.store.s[fa] s.store.m[fb]) (fd : VId) :
    ∃ t, Succeeds (.decode fd fa fb) s t
      ∧ t.store.v[fd] = (decodeAnswer s.store.s[fa] s.store.m[fb] s.regs.arg0.toNat).1
      ∧ t.regs.metric = (decodeAnswer s.store.s[fa] s.store.m[fb] s.regs.arg0.toNat).2
      ∧ t.regs.res = s.regs.res ∧ KeepsAllBut [.v fd] s t :=
  succeeds_setV_setMetric (exec_decode_of_ok (decodeWord_of_decodable hd _) fd)

/-- Settles O32: a full rank passes the last check; the answer is a product of the reduced matrix, put back. -/
theorem decodeAnswersACodeword : Obligations.DecodeAnswersACodeword := by
  intro fd fa fb s ⟨_, ⟨_, _, _, hm, _⟩, _⟩ hrows hlen hnan hind
  obtain ⟨-, -, hfit⟩ := hm fb
  have hd := decodable_of_rowsIndependent hfit hrows hlen hnan hind
  obtain ⟨t, hsucc, hval, hmetric, hres, hframe⟩ := succeeds_decode_of_decodable hd fd
  refine ⟨t, hsucc, ?_, ?_, ?_, hres, hframe⟩
  · rw [hval]
    exact decodeAnswer_isCodeword hfit hd _
  · rw [hval]
    exact decodeAnswer_length hnan hfit _
  · rw [hmetric]
    exact nonNegative_bestCandidate hnan _ _

/-- Settles O36: the metric of the answer, in original positions. -/
theorem decodeMetricSumsDisagreements : Obligations.DecodeMetricSumsDisagreements := by
  intro fd fa fb s t ⟨_, ⟨_, _, _, hm, _⟩, _⟩ hsucc
  obtain ⟨-, -, hfit⟩ := hm fb
  obtain ⟨hd, hval, hmetric⟩ := decode_of_succeeds hsucc
  rw [hmetric, hval]
  exact decodeAnswer_metric hfit hd _

/-! Samples that form a codeword (R232) -/

theorem flipBits_nil (info : List Bool) : flipBits info [] = info := by
  simp only [flipBits, List.not_mem_nil, if_false]
  exact List.ext_getElem List.length_mapIdx fun i _ _ => List.getElem_mapIdx

/-- A word has no disagreement with itself. -/
theorem metric_self (alpha : List Bool) (beta : List F64) : metric alpha alpha beta = f64Zero := by
  refine List.foldlRecOn (motive := fun m => m = f64Zero) _ _ rfl fun m hm y hy => ?_
  have hsame : y.1.1 = y.1.2 := by
    obtain ⟨i, hi, hget⟩ := List.getElem_of_mem (List.of_mem_zip hy).1
    rw [← hget, List.getElem_zip]
  simp only [hsame, ne_eq, not_true_eq_false, if_false, hm]

section
variable {x : List F64} {g : Matrix} (hg : RowsFit g) (hd : Decodable x g)
include hg hd

/-- Each product of the reduced matrix is the one of its bits at the pivots. -/
theorem eq_of_multiply_reliabilityElimination {u c : List Bool} (hu : u.length = g.rowCount)
    (hc : multiply u (reliabilityElimination x g).1 = c) :
    ((reliabilityElimination x g).2.map fun j => c.getD j false) = u := by
  have hfull : (reliabilityElimination x g).2.length = g.rowCount :=
    Nat.le_antisymm (reliabilityElimination_count_le hg) (Nat.le_of_not_lt hd.pivots)
  refine bits_ext (by rw [List.length_map, hfull]) hu fun p hp => ?_
  have hp' := hfull.symm ▸ hp
  rw [← (reliabilityElimination_eliminated hg).multiply_getD_pivot (hu.trans (permuteColumns_rowCount _ _).symm) hp',
    hc, List.getD_eq_getElem _ _ (by simpa using hp'), List.getElem_map, List.getD_eq_getElem _ _ hp']

/-- The seed is the word of the hard decisions, with metric `+0.0`, and no later candidate is better. -/
theorem bestCandidate_of_codeword (hcode : IsCodeword g (hardDecisions x)) (wMax : Nat) :
    bestCandidate x g wMax = (orderedDecisions x, f64Zero) := by
  have hlen : (hardDecisions x).length = g.cols := (hardDecisions_length x).trans hd.length
  obtain ⟨u, hu, hprod⟩ := (isCodeword_reliabilityElimination_iff hg hd.length hlen).mpr hcode
  rw [reliabilityElimination_rowCount hg] at hu
  have hseed : seedBits x g = u := eq_of_multiply_reliabilityElimination hg hd hu hprod
  have hfirst : (decodeCandidates x g wMax)[0]? = some (orderedDecisions x, f64Zero) := by
    rw [decodeCandidates_eq, candidates_head?, scoreCandidate, flipBits_nil, hseed, hprod]
    exact congrArg (fun m => some (orderedDecisions x, m)) (metric_self _ _)
  obtain ⟨i, hi, hleast⟩ := bestCandidate_earliestLeast hd.noNaN g wMax
  obtain ⟨-, hlt⟩ := hleast 0 _ hfirst
  obtain rfl : i = 0 := by
    by_contra hne
    exact absurd (hlt (Nat.pos_of_ne_zero hne)) (Nat.not_lt_zero _)
  exact Option.some.inj (hi.symm.trans hfirst)

end

/-- Settles O34: the seed has metric `+0.0`, which no other candidate can undercut. -/
theorem decodeNoiselessIsIdempotent : Obligations.DecodeNoiselessIsIdempotent := by
  intro fd fa fb s ⟨_, ⟨_, _, _, hm, _⟩, _⟩ hrows hlen hnan hind hcode
  obtain ⟨-, -, hfit⟩ := hm fb
  have hd := decodable_of_rowsIndependent hfit hrows hlen hnan hind
  obtain ⟨t, hsucc, hval, hmetric, -⟩ := succeeds_decode_of_decodable hd fd
  rw [decodeAnswer_eq, bestCandidate_of_codeword hfit hd hcode] at hval hmetric
  refine ⟨t, hsucc, ?_, hmetric⟩
  rw [hval]
  exact applyPerm_applyPerm_invert (decodeOrder_isPermutation _)
    ((hardDecisions_length _).trans (decodeOrder_length _).symm)

/-! A full search (R230) -/

theorem mem_searchSubsets_iff {k wMax : Nat} (hk : k ≤ 65535) {p : List Nat} :
    p ∈ searchSubsets k wMax ↔ IsSubset k p.length p ∧ p.length ≤ wMax := by
  have hsize : ∀ w, w ≤ k → (p ∈ subsetsOfSize k w ↔ IsSubset k w p) := fun w hw => by
    rw [subsetsOfSize_eq hk hw, mem_subsetsFrom_zero_iff]
  simp only [searchSubsets, List.mem_flatMap, List.mem_range]
  constructor
  · rintro ⟨w, hw, hp⟩
    have hsub := (hsize w (by omega)).mp hp
    have hlen : p.length = w := hsub.1
    rw [hlen]
    exact ⟨hsub, by omega⟩
  · rintro ⟨hsub, hw⟩
    have hle : p.length ≤ k := by
      obtain ⟨-, hsorted, hmem⟩ := hsub
      have := (List.subperm_of_subset hsorted.nodup fun i hi => List.mem_range.mpr (hmem i hi)).length_le
      rwa [List.length_range] at this
    exact ⟨p.length, by omega, (hsize _ hle).mpr hsub⟩

/-- The positions below `k` at which two vectors differ. -/
def differences (k : Nat) (u v : List Bool) : List Nat :=
  (List.range k).filter fun i => u.getD i false != v.getD i false

theorem differences_isSubset (k : Nat) (u v : List Bool) : IsSubset k (differences k u v).length (differences k u v) :=
  ⟨rfl, List.pairwise_lt_range.filter _, fun _ hi => List.mem_range.mp (List.mem_of_mem_filter hi)⟩

theorem differences_length_le (k : Nat) (u v : List Bool) : (differences k u v).length ≤ k :=
  (List.length_filter_le _ _).trans_eq List.length_range

/-- Flipping the bits at which it differs turns one vector into the other. -/
theorem flipBits_differences {u v : List Bool} (h : v.length = u.length) :
    flipBits u (differences u.length u v) = v := by
  refine bits_ext (List.length_mapIdx) h fun i hi => ?_
  have hmem : i ∈ differences u.length u v ↔ u.getD i false ≠ v.getD i false := by
    simp [differences, hi]
  rw [flipBits, List.getD_eq_getElem _ _ (by simpa using hi), List.getElem_mapIdx]
  simp only [hmem, ← List.getD_eq_getElem u false hi]
  cases u.getD i false <;> cases v.getD i false <;> rfl

/-- With `w_max ≥ k`, the subsets searched turn the seed into every vector. -/
theorem exists_flipBits_eq {u v : List Bool} {k wMax : Nat} (hu : u.length = k) (hv : v.length = k) (hk : k ≤ 65535)
    (hw : k ≤ wMax) : ∃ p ∈ searchSubsets k wMax, flipBits u p = v := by
  subst hu
  exact ⟨differences u.length u v, (mem_searchSubsets_iff hk).mpr
    ⟨differences_isSubset _ _ _, (differences_length_le _ _ _).trans hw⟩, flipBits_differences hv⟩

/-- With `w_max ≥ k`, every codeword is a candidate, so none has a lower metric than the best. -/
theorem bestCandidate_le_of_codeword {x : List F64} {g : Matrix} (hg : RowsFit g) (hd : Decodable x g)
    (hk : g.rowCount ≤ 65535) {wMax : Nat} (hw : g.rowCount ≤ wMax) {c : List Bool} (hc : IsCodeword g c) :
    (bestCandidate x g wMax).2.toNat ≤ (disagreement x c).toNat ∧ NonNegative (disagreement x c) := by
  have hlen : c.length = g.cols := by
    obtain ⟨u, -, rfl⟩ := hc
    exact multiply_length hg
  obtain ⟨u, hu, hprod⟩ := (isCodeword_reliabilityElimination_iff hg hd.length hlen).mpr hc
  have hrows := reliabilityElimination_rowCount (x := x) hg
  rw [hrows] at hu
  obtain ⟨p, hp, hflip⟩ := exists_flipBits_eq (seedBits_length hg hd) hu hk hw
  rw [← hrows] at hp
  have hscore : scoreCandidate (seedBits x g) (reliabilityElimination x g).1 (orderedDecisions x)
      (orderedReliabilities x) p = (applyPerm (invert (decodeOrder x)) c, disagreement x c) := by
    rw [scoreCandidate, hflip, hprod, metric_applyPerm (hlen.trans hd.length.symm)]
  obtain ⟨i, -, hleast⟩ := bestCandidate_earliestLeast hd.noNaN g wMax
  obtain ⟨j, hj⟩ := List.mem_iff_getElem?.mp hp
  have hcand : (decodeCandidates x g wMax)[j]? = some (applyPerm (invert (decodeOrder x)) c, disagreement x c) :=
    candidates_getElem?.mpr ⟨p, hj, hscore⟩
  refine ⟨(hleast j _ hcand).1, ?_⟩
  have hnn := nonNegative_scoreCandidate (info := seedBits x g) (g := (reliabilityElimination x g).1)
    (alpha := orderedDecisions x) (nonNegative_of_mem_applyPerm hd.noNaN (invert (decodeOrder x))) p
  rw [← orderedReliabilities, hscore] at hnn
  exact hnn

/-- Settles O37: every codeword is among the candidates of a full search. -/
theorem decodeExhaustiveIsMaximumLikelihood : Obligations.DecodeExhaustiveIsMaximumLikelihood := by
  intro fd fa fb s t ⟨⟨_, hcap, _, hkn, _⟩, ⟨_, _, _, hm, _⟩, _⟩ hw hsucc c hc
  obtain ⟨hrows, -, hfit⟩ := hm fb
  obtain ⟨hd, -, hmetric⟩ := decode_of_succeeds hsucc
  obtain ⟨hle, hnn⟩ := bestCandidate_le_of_codeword hfit hd (hrows.trans (hkn.trans hcap)) hw hc
  rw [hmetric]
  exact (flt_eq_false_iff_of_nonNegative hnn (nonNegative_bestCandidate hd.noNaN _ _)).mpr hle

end Sys2Proof.Machine

/-! PROOFS. The addition of binary64 values (00_scope.md R13): the value of an encoding by its magnitude bits, that the
rounding picks the nearest of them with ties to even, where it overflows, and the sum of R13 put together from these. -/

namespace Sys2Proof.Machine

/-! The value of magnitude bits -/

/-- The value of magnitude bits in units of 2^-1074, with the bits as quotient and remainder. -/
def magUnits (m : Nat) : Nat :=
  if m / 2 ^ 52 = 0 then m % 2 ^ 52 else (2 ^ 52 + m % 2 ^ 52) * 2 ^ (m / 2 ^ 52 - 1)

theorem f64Units_eq (x : F64) : f64Units x = magUnits (f64Mag x) := by
  simp only [f64Units, magUnits, Nat.shiftRight_eq_div_pow, Nat.shiftLeft_eq, Nat.one_mul]

/-- A significand of 53 bits, or the power of two above them, at its exponent; below it, only without an exponent. -/
theorem magUnits_significand {k q : Nat} (hq : q ≤ 2 ^ 53) (hk : k = 0 ∨ 2 ^ 52 ≤ q) :
    magUnits (k * 2 ^ 52 + q) = q * 2 ^ k := by
  obtain hlt | ⟨hge, hlt⟩ | rfl : q < 2 ^ 52 ∨ (2 ^ 52 ≤ q ∧ q < 2 ^ 53) ∨ q = 2 ^ 53 := by omega
  · obtain rfl := hk.resolve_right (by omega)
    rw [magUnits, if_pos (by omega)]
    omega
  · have hdiv : (k * 2 ^ 52 + q) / 2 ^ 52 = k + 1 := by omega
    have hmod : 2 ^ 52 + (k * 2 ^ 52 + q) % 2 ^ 52 = q := by omega
    rw [magUnits, hdiv, hmod, if_neg (Nat.succ_ne_zero k), Nat.add_sub_cancel]
  · have hdiv : (k * 2 ^ 52 + 2 ^ 53) / 2 ^ 52 = k + 1 + 1 := by omega
    have hmod : 2 ^ 52 + (k * 2 ^ 52 + 2 ^ 53) % 2 ^ 52 = 2 ^ 52 := by omega
    have hpow : 2 ^ 52 * 2 ^ (k + 1) = 2 ^ 53 * 2 ^ k := by rw [pow_succ 2 k, pow_succ 2 52]; ring
    rw [magUnits, hdiv, hmod, if_neg (Nat.succ_ne_zero (k + 1)), Nat.add_sub_cancel (n := k + 1), hpow]

/-- A value is a multiple of 2^k, or too small to have 53 bits there. -/
theorem magUnits_dvd_or_lt (m k : Nat) : 2 ^ k ∣ magUnits m ∨ magUnits m < 2 ^ 52 * 2 ^ k := by
  rw [magUnits]
  split
  next =>
    have hpos := Nat.two_pow_pos k
    refine .inr ((Nat.mod_lt _ (by omega)).trans_le (Nat.le_mul_of_pos_right _ hpos))
  next he =>
    by_cases hk : k ≤ m / 2 ^ 52 - 1
    · exact .inl (Dvd.dvd.mul_left (pow_dvd_pow 2 hk) _)
    · refine .inr ?_
      have hexp : 2 ^ (m / 2 ^ 52 - 1) * 2 ≤ 2 ^ k := by
        rw [← pow_succ]
        exact Nat.pow_le_pow_right (by omega) (by omega)
      have hmod := Nat.mod_lt m (show 2 ^ 52 > 0 by omega)
      calc (2 ^ 52 + m % 2 ^ 52) * 2 ^ (m / 2 ^ 52 - 1)
          < (2 ^ 52 * 2) * 2 ^ (m / 2 ^ 52 - 1) := Nat.mul_lt_mul_of_pos_right (by omega) (Nat.two_pow_pos _)
        _ = 2 ^ 52 * (2 ^ (m / 2 ^ 52 - 1) * 2) := by ring
        _ ≤ 2 ^ 52 * 2 ^ k := Nat.mul_le_mul_left _ hexp

/-! Rounding to a multiple of a power of two -/

theorem roundShift_eq (n k : Nat) : roundShift n k =
    if 2 * (n % 2 ^ k) < 2 ^ k then n / 2 ^ k
    else if 2 ^ k < 2 * (n % 2 ^ k) then n / 2 ^ k + 1 else n / 2 ^ k + n / 2 ^ k % 2 := by
  simp only [roundShift, Nat.shiftRight_eq_div_pow, Nat.shiftLeft_eq, Nat.one_mul]

/-- Of the multiples `a * b`, the one that `n = q * b + r` is rounded to is nearest: `q`, `q + 1`, or, half way between,
the even one of the two. -/
theorem nearest_multiple {q r b : Nat} (hr : r < b) (a c : Nat)
    (hc : c = if 2 * r < b then q else if b < 2 * r then q + 1 else q + q % 2) :
    ((c * b : Nat) - (q * b + r : Nat) : Int).natAbs ≤ ((a * b : Nat) - (q * b + r : Nat) : Int).natAbs ∧
      (((a * b : Nat) - (q * b + r : Nat) : Int).natAbs = ((c * b : Nat) - (q * b + r : Nat) : Int).natAbs →
        a = c ∨ c % 2 = 0) := by
  have hsucc : (q + 1) * b = q * b + b := Nat.succ_mul q b
  have hbelow : a < q → a * b + b ≤ q * b := fun h => (Nat.succ_mul a b).symm.trans_le (Nat.mul_le_mul_right b h)
  have habove : q + 1 < a → q * b + b + b ≤ a * b := fun h => by
    rw [← hsucc, ← Nat.succ_mul]
    exact Nat.mul_le_mul_right b h
  have hplace : a * b + b ≤ q * b ∨ a = q ∨ a = q + 1 ∨ q * b + b + b ≤ a * b := by omega
  have hchoice : 2 * r < b ∧ c = q ∨ b < 2 * r ∧ c = q + 1 ∨ 2 * r = b ∧ (c = q ∨ c = q + 1) ∧ c % 2 = 0 := by
    split_ifs at hc <;> omega
  obtain ha | rfl | rfl | ha := hplace
  all_goals
    obtain ⟨h, rfl⟩ | ⟨h, rfl⟩ | ⟨h, rfl | rfl, heven⟩ := hchoice <;> omega

/-- No multiple of 2^k is nearer than the rounded one, and one as near is the same, or the rounded one is even. -/
theorem roundShift_nearest (n k a : Nat) :
    ((roundShift n k * 2 ^ k : Nat) - (n : Nat) : Int).natAbs ≤ ((a * 2 ^ k : Nat) - (n : Nat) : Int).natAbs ∧
      (((a * 2 ^ k : Nat) - (n : Nat) : Int).natAbs = ((roundShift n k * 2 ^ k : Nat) - (n : Nat) : Int).natAbs →
        a = roundShift n k ∨ roundShift n k % 2 = 0) := by
  have h := nearest_multiple (q := n / 2 ^ k) (Nat.mod_lt n (Nat.two_pow_pos k)) a _ (roundShift_eq n k)
  rwa [Nat.div_add_mod'] at h

/-! Rounding to 53 significant bits -/

/-- The exponent at which `n` has at most 53 bits. -/
def roundExp (n : Nat) : Nat := Nat.log2 n - 52

/-- The magnitude bits `n` units are rounded to, as if there were no greatest exponent. -/
def roundedMag (n : Nat) : Nat := roundExp n * 2 ^ 52 + roundShift n (roundExp n)

theorem roundUnits_eq (n : Nat) : roundUnits n = if f64InfMag < roundedMag n then f64InfMag else roundedMag n := by
  rw [roundUnits, Nat.shiftLeft_eq]
  rfl

theorem lt_of_roundExp (n : Nat) : n < 2 ^ 53 * 2 ^ roundExp n := by
  rw [← pow_add]
  exact Nat.lt_log2_self.trans_le (Nat.pow_le_pow_right (by omega) (by rw [roundExp]; omega))

theorem le_of_roundExp_ne_zero {n : Nat} (h : roundExp n ≠ 0) : 2 ^ 52 * 2 ^ roundExp n ≤ n := by
  rw [roundExp] at h ⊢
  have hn : n ≠ 0 := by
    rintro rfl
    exact h (by decide)
  rw [← pow_add, show 52 + (Nat.log2 n - 52) = Nat.log2 n by omega]
  exact Nat.log2_self_le hn

theorem roundShift_bounds (n k : Nat) : n / 2 ^ k ≤ roundShift n k ∧ roundShift n k ≤ n / 2 ^ k + 1 := by
  rw [roundShift_eq]
  generalize n / 2 ^ k = q
  split_ifs <;> omega

theorem roundShift_le (n : Nat) : roundShift n (roundExp n) ≤ 2 ^ 53 := by
  have hdiv := (Nat.div_lt_iff_lt_mul (Nat.two_pow_pos _)).mpr (lt_of_roundExp n)
  have hbounds := roundShift_bounds n (roundExp n)
  omega

theorem le_roundShift {n : Nat} (h : roundExp n ≠ 0) : 2 ^ 52 ≤ roundShift n (roundExp n) :=
  ((Nat.le_div_iff_mul_le (Nat.two_pow_pos _)).mpr (le_of_roundExp_ne_zero h)).trans (roundShift_bounds n _).1

theorem magUnits_roundedMag (n : Nat) : magUnits (roundedMag n) = roundShift n (roundExp n) * 2 ^ roundExp n :=
  magUnits_significand (roundShift_le n) (or_iff_not_imp_left.mpr le_roundShift)

theorem roundedMag_parity (n : Nat) : roundedMag n % 2 = roundShift n (roundExp n) % 2 := by
  rw [roundedMag]
  omega

/-- R13: no magnitude has a value nearer to `n` than the rounded one, and one as near has its value, or the rounded bits
are even. A value below those of 53 bits at the exponent is further off than the least of them. -/
theorem roundedMag_nearest (n m : Nat) :
    ((magUnits (roundedMag n) : Int) - n).natAbs ≤ ((magUnits m : Int) - n).natAbs ∧
      (((magUnits m : Int) - n).natAbs = ((magUnits (roundedMag n) : Int) - n).natAbs →
        magUnits m = magUnits (roundedMag n) ∨ roundedMag n % 2 = 0) := by
  rw [roundedMag_parity, magUnits_roundedMag]
  by_cases hdvd : 2 ^ roundExp n ∣ magUnits m
  · obtain ⟨a, ha⟩ := hdvd
    obtain ⟨hle, htie⟩ := roundShift_nearest n (roundExp n) a
    rw [ha, Nat.mul_comm _ a]
    exact ⟨hle, fun h => (htie h).imp_left fun hsame => by rw [hsame]⟩
  · have hlt := (magUnits_dvd_or_lt m (roundExp n)).resolve_left hdvd
    have hexp : roundExp n ≠ 0 := fun h => hdvd (by rw [h, pow_zero]; exact one_dvd _)
    have hge := le_of_roundExp_ne_zero hexp
    have hle := (roundShift_nearest n (roundExp n) (2 ^ 52)).1
    generalize 2 ^ 52 * 2 ^ roundExp n = least at hlt hge hle
    generalize roundShift n (roundExp n) * 2 ^ roundExp n = rounded at hle ⊢
    constructor
    · omega
    · intro h
      omega

/-- At the greatest exponent, the significand is rounded up to 2^53 from half a unit beyond its greatest value on. -/
theorem roundShift_carry_iff {q r c : Nat} (hr : r < 2 * c) (hq : q < 2 ^ 53) :
    2 ^ 53 ≤ (if 2 * r < 2 * c then q else if 2 * c < 2 * r then q + 1 else q + q % 2) ↔
      (2 ^ 54 - 1) * c ≤ q * (2 * c) + r := by
  obtain rfl | hsmall : q = 2 ^ 53 - 1 ∨ q ≤ 2 ^ 53 - 2 := by omega
  · split_ifs <;> omega
  · have hmul := Nat.mul_le_mul_right (2 * c) hsmall
    generalize q * (2 * c) = y at hmul ⊢
    split_ifs <;> omega

/-- The exponent is reached from half a unit beyond the greatest value below it on. -/
theorem le_roundedMag_iff (n e : Nat) : (e + 3) * 2 ^ 52 ≤ roundedMag n ↔ (2 ^ 54 - 1) * 2 ^ e ≤ n := by
  have hle := roundShift_le n
  have hlt := lt_of_roundExp n
  rw [roundedMag]
  obtain hk | hk | hk : roundExp n ≤ e ∨ roundExp n = e + 1 ∨ e + 2 ≤ roundExp n := by omega
  · have hpow : 2 ^ roundExp n ≤ 2 ^ e := Nat.pow_le_pow_right (by omega) hk
    generalize 2 ^ roundExp n = b at hpow hlt
    generalize 2 ^ e = c at hpow ⊢
    omega
  · have hpow : 2 ^ roundExp n = 2 * 2 ^ e := by rw [hk, pow_succ']
    have hq := (Nat.div_lt_iff_lt_mul (Nat.two_pow_pos _)).mpr hlt
    have hn := Nat.div_add_mod' n (2 ^ roundExp n)
    have hr := Nat.mod_lt n (Nat.two_pow_pos (roundExp n))
    rw [roundShift_eq] at hle ⊢
    rw [hpow] at hn hr hq hle ⊢
    have hcarry := roundShift_carry_iff hr hq
    rw [hn] at hcarry
    rw [← hcarry, hk]
    omega
  · have hpow : 2 * (2 * 2 ^ e) ≤ 2 ^ roundExp n := by
      rw [← pow_succ', ← pow_succ']
      exact Nat.pow_le_pow_right (by omega) hk
    have hge := (Nat.mul_le_mul_left (2 ^ 52) hpow).trans (le_of_roundExp_ne_zero (by omega))
    have hq := le_roundShift (n := n) (by omega)
    generalize 2 ^ e = c at hge ⊢
    omega

/-- R13: a sum is rounded to an infinity from half a unit beyond the largest finite value on. -/
theorem roundUnits_eq_infMag_iff (n : Nat) : roundUnits n = f64InfMag ↔ (2 ^ 54 - 1) * 2 ^ 2044 ≤ n := by
  rw [← le_roundedMag_iff, roundUnits_eq, show (2044 + 3) * 2 ^ 52 = f64InfMag from rfl]
  split <;> omega

/-! The sum (R13) -/

section
variable {sign : Bool} {mag : Nat} (h : mag ≤ f64InfMag)
include h

theorem f64Mag_mkF64 : f64Mag (mkF64 sign mag) = mag := by
  rw [f64InfMag] at h
  rw [f64Mag_eq, mkF64_toNat (by omega)]
  omega

theorem isNaN_mkF64 : isNaN (mkF64 sign mag) = false := by
  rw [isNaN, f64Mag_mkF64 h]
  exact decide_eq_false (Nat.not_lt_of_le h)

theorem isInf_mkF64 : isInf (mkF64 sign mag) = true ↔ mag = f64InfMag := by
  rw [isInf, f64Mag_mkF64 h, decide_eq_true_iff]

end

theorem f64Sign_mkF64 (sign : Bool) (mag : Nat) : f64Sign (mkF64 sign mag) = sign := by
  rw [f64Sign, mkF64, BitVec.getLsbD_append]
  cases sign <;> rfl

theorem getLsbD_zero_mkF64 (sign : Bool) (mag : Nat) : (mkF64 sign mag).getLsbD 0 = decide (mag % 2 = 1) := by
  rw [mkF64, BitVec.getLsbD_append, if_pos (by omega), BitVec.getLsbD_ofNat, Nat.testBit_zero]
  exact Bool.true_and _

theorem f64Exact_eq (x : F64) : f64Exact x = if f64Sign x = true then -(magUnits (f64Mag x) : Int)
    else (magUnits (f64Mag x) : Int) := by
  rw [f64Exact, f64Units_eq]

/-- The sign of the sum of two finite values (R13). -/
def sumSign (x y : F64) : Bool :=
  if f64Exact x + f64Exact y = 0 then f64Sign x && f64Sign y else decide (f64Exact x + f64Exact y < 0)

/-- R13: the sum of two finite values is their exact sum, rounded once. -/
theorem fadd_of_finite {x y : F64} (hxn : isNaN x = false) (hxi : isInf x = false) (hyn : isNaN y = false)
    (hyi : isInf y = false) :
    fadd x y = mkF64 (sumSign x y) (roundUnits (f64Exact x + f64Exact y).natAbs) := by
  simp only [fadd, hxn, hxi, hyn, hyi, Bool.or_self, Bool.false_eq_true, if_false, sumSign]
  split
  next hzero => rw [hzero]; rfl
  next => rfl

/-- The rounded sum is nearest to the exact one, also among values of the other sign. -/
theorem f64Exact_nearest (z : Int) (sign : Bool) (hsign : z ≠ 0 → sign = decide (z < 0))
    (hfin : roundUnits z.natAbs ≠ f64InfMag) (r : F64) :
    (f64Exact (mkF64 sign (roundUnits z.natAbs)) - z).natAbs ≤ (f64Exact r - z).natAbs ∧
      ((f64Exact r - z).natAbs = (f64Exact (mkF64 sign (roundUnits z.natAbs)) - z).natAbs →
        f64Exact r = f64Exact (mkF64 sign (roundUnits z.natAbs)) ∨
          (mkF64 sign (roundUnits z.natAbs)).getLsbD 0 = false) := by
  have hmag : roundUnits z.natAbs = roundedMag z.natAbs := by
    rw [roundUnits_eq] at hfin ⊢
    exact if_neg fun h => hfin (if_pos h)
  obtain ⟨hle, htie⟩ := roundedMag_nearest z.natAbs (f64Mag r)
  obtain ⟨hzero, -⟩ := roundedMag_nearest z.natAbs 0
  rw [← hmag] at hle htie hzero
  rw [getLsbD_zero_mkF64, decide_eq_false_iff_not, f64Exact_eq, f64Exact_eq, f64Sign_mkF64,
    f64Mag_mkF64 (roundUnits_le _)]
  rw [show magUnits 0 = 0 from rfl] at hzero
  generalize magUnits (f64Mag r) = other at hle htie ⊢
  generalize magUnits (roundUnits z.natAbs) = units at hle htie hzero ⊢
  generalize roundUnits z.natAbs % 2 = parity at htie ⊢
  by_cases hz : z = 0
  · split_ifs <;> omega
  · rw [hsign hz]
    simp only [decide_eq_true_eq]
    split_ifs <;> omega

theorem isNaN_freeNaN (x y : F64) : isNaN (freeNaN x y) = true := by
  rw [isNaN, decide_eq_true_iff, f64Mag_eq, freeNaN, append_toNat, append_toNat, f64InfMag]
  have hlow := ((Config.nanBits x y).extractLsb' 0 51).isLt
  simp only [BitVec.toNat_ofNat, BitVec.toNat_ofBool]
  omega

theorem isNaN_of_isInf {x : F64} (h : isInf x = true) : isNaN x = false := by
  rw [isInf, decide_eq_true_iff] at h
  rw [isNaN, h]
  exact decide_eq_false (Nat.lt_irrefl _)

/-- There is one infinity of each sign. -/
theorem eq_of_isInf {x y : F64} (hx : isInf x = true) (hy : isInf y = true) (hsign : f64Sign x = f64Sign y) :
    x = y := by
  rw [isInf, decide_eq_true_iff, f64Mag_eq] at hx hy
  rw [f64Sign_eq, f64Sign_eq, decide_eq_decide] at hsign
  have hxlt := x.isLt
  have hylt := y.isLt
  refine BitVec.eq_of_toNat_eq ?_
  omega

section
variable {x y : F64}

theorem fadd_of_isNaN (h : isNaN x = true ∨ isNaN y = true) : fadd x y = freeNaN x y :=
  if_pos (Bool.or_eq_true_iff.mpr h)

/-- R13: an infinite first operand is the sum, or it meets the opposite infinity. -/
theorem fadd_of_isInf_left (hx : isInf x = true) (hy : isNaN y = false) :
    fadd x y = if isInf y = true ∧ f64Sign x ≠ f64Sign y then freeNaN x y else x := by
  simp only [fadd, isNaN_of_isInf hx, hy, hx, Bool.or_self, Bool.false_eq_true, if_false, if_true, Bool.and_eq_true,
    bne_iff_ne]

theorem fadd_of_isInf_right (hy : isInf y = true) (hx : isNaN x = false) (hxi : isInf x = false) : fadd x y = y := by
  simp only [fadd, isNaN_of_isInf hy, hx, hxi, hy, Bool.or_self, Bool.false_eq_true, if_false, if_true]

end

/-- Settles O43: two finite operands by the rounding of their exact sum; then by which operand is infinite or a NaN. -/
theorem faddRoundsToNearestEven : Obligations.FaddRoundsToNearestEven := by
  intro x y
  refine ⟨fun hxn hxi hyn hyi => ?finite, fun hx hy hsame => ?left, fun hy hx hsame => ?right, fun hnan => ?nan⟩
  case finite =>
    rw [fadd_of_finite hxn hxi hyn hyi]
    refine ⟨isNaN_mkF64 (roundUnits_le _), ?_, fun hne => ?_, fun heq => ?_, fun hfin r _ _ => ?_⟩
    · rw [isInf_mkF64 (roundUnits_le _), roundUnits_eq_infMag_iff]
    · rw [f64Sign_mkF64, sumSign, if_neg hne]
    · rw [f64Sign_mkF64, sumSign, if_pos heq]
    · refine f64Exact_nearest _ _ (fun hne => if_neg hne) (fun hinf => ?_) r
      exact Bool.false_ne_true (hfin.symm.trans ((isInf_mkF64 (roundUnits_le _)).mpr hinf))
  case left => rw [fadd_of_isInf_left hx hy, if_neg fun h => h.2 (hsame h.1).symm]
  case right =>
    cases hxi : isInf x with
    | false => exact fadd_of_isInf_right hy hx hxi
    | true =>
      obtain rfl := eq_of_isInf hxi hy (hsame hxi)
      rw [fadd_of_isInf_left hy hx, if_neg fun h => h.2 rfl]
  case nan =>
    obtain hx | hy | ⟨hx, hy, hsign⟩ := hnan
    · rw [fadd_of_isNaN (.inl hx), isNaN_freeNaN]
    · rw [fadd_of_isNaN (.inr hy), isNaN_freeNaN]
    · rw [fadd_of_isInf_left hx (isNaN_of_isInf hy), if_pos ⟨hy, hsign⟩, isNaN_freeNaN]

end Sys2Proof.Machine
